-- ==== Sys2Proof/Word.lean ====
section
/-! DEFINITION. The words of HCE and the entry types of its tables: a symbol or buffer byte (rule R7),
a 32-bit register (rule R9), a bit sequence (rule R10), a NODE entry (rule R45), a CODE entry (rule R50). -/

namespace Sys2Proof

/-- A symbol or one byte of a buffer (rules R7, R55, R56). -/
abbrev Byte := BitVec 8

/-- A register, a frequency, a command word, a port offset (rules R7, R9, R72). -/
abbrev Word := BitVec 32

/-- The index of a NODE entry as the machine stores it: 9 bits (rule R45). -/
abbrev NodeIndex := BitVec 9

/-- A bit sequence, its first bit first (rule R10). -/
abbrev Bits := List Bool

/-- The KIND of a NODE entry (rule R45). -/
inductive NodeKind where
  | leaf
  | internal
  deriving DecidableEq, Repr

/-- One entry of the NODE memory (rule R45). -/
structure Node where
  kind  : NodeKind
  sym   : Byte
  freq  : Word
  left  : NodeIndex
  right : NodeIndex
  deriving DecidableEq, Repr

/-- The all-zero NODE entry (rules R45, R165). -/
def Node.zero : Node := ⟨.leaf, 0#8, 0#32, 0#9, 0#9⟩

/-- One CODE entry: the code's bits. Its LEN is their number, and no bits means the symbol is absent
(rules R50, R51; log entry 8). -/
abbrev Code := Bits

end Sys2Proof
end

