-- ==== Sys2Proof/Config.lean ====
section
/-! DEFINITION. The parameters of HCE (rules R7, R8) and the free values: what the spec leaves unspecified
after a late fault and after a reset edge (rules R274, R301; U1, U2). A free value has no body. -/

namespace Sys2Proof.Config

/-- BUF_CAP of `State.reset` (rule R8). DESIGN CHOICE 64 (log entry 1): the step reads the capacity from
State and never from here. -/
def bufCap : Nat := 64

/-- The largest BUF_CAP (rule R8). -/
def bufCapMax : Nat := 2 ^ 30

/-- MAXLEN, the longest code (rule R7). -/
def maxLen : Nat := 255

/-- BITCNT_MAX, the largest legal bit count (rule R7). -/
def bitCntMax : Nat := 2 ^ 31 - 1

/-! The free values. The first argument is State's counter `freeTick`, the second an index (log entries 3, 4). -/

opaque freeIbuf : Nat → Nat → Byte
opaque freeObuf : Nat → Nat → Byte
opaque freeInLen : Nat → Word
opaque freeFreq : Nat → Nat → Word
opaque freeNodeKind : Nat → Nat → Bool
opaque freeNodeSym : Nat → Nat → Byte
opaque freeNodeFreq : Nat → Nat → Word
opaque freeNodeLeft : Nat → Nat → NodeIndex
opaque freeNodeRight : Nat → Nat → NodeIndex
opaque freeNodeCnt : Nat → NodeIndex
opaque freeRootValid : Nat → Bool
opaque freeRootIndex : Nat → NodeIndex
opaque freeCode : Nat → Nat → Bits

end Sys2Proof.Config
end

