-- ==== Sys2Proof/Syntax.lean ====
section
/-! DEFINITION. What HCE can be told: the 14 commands (rule R105), the host port's accesses and answers
(rule R72), and the turns of the two agents and the reset input (rules R16, R300). -/

namespace Sys2Proof

/-- The commands of rule R105. No command has an operand (rule R103). -/
inductive Instr where
  | nop
  | clr
  | freq
  | build
  | gen
  | enc
  | dec
  | ser
  | deser
  | swap
  | pack
  | unpack
  | compress
  | decompress
  deriving DecidableEq, Repr

/-- One access of the host port: kind, offset, size 1 or 4 and, for a write, its data (rule R72). -/
inductive Access where
  | read1  (offset : Word)
  | read4  (offset : Word)
  | write1 (offset : Word) (data : Byte)
  | write4 (offset : Word) (data : Word)
  deriving DecidableEq, Repr

/-- The data of an answer: none for a write, `size` bytes for a read (rule R72). -/
inductive ReadData where
  | none
  | byte (b : Byte)
  | word (w : Word)
  deriving DecidableEq, Repr

/-- `resp` of rule R72. -/
inductive Resp where
  | ok
  | err
  deriving DecidableEq, Repr

/-- The port's answer to an access (rule R72). -/
structure Response where
  resp  : Resp
  rdata : ReadData
  deriving DecidableEq, Repr

/-- A turn: the host performs an access (rule R85), the engine may take its step (rule R87), or a rising
edge of `clk` samples `rst` = 1 (rule R300). DESIGN CHOICE: turns are listed in State (log entry 5). -/
inductive Input where
  | access (a : Access)
  | engine
  | rst
  deriving DecidableEq, Repr

end Sys2Proof
end

