-- ==== Sys2Proof/WellFormed.lean ====
section
/-! DEFINITION. Which command words and which capacities the spec admits (rules R8, R100, R105). -/

namespace Sys2Proof

/-- A command has no operand, so every command is well formed (rule R103). -/
def Instr.wellFormed : Instr → Bool
  | .nop | .clr | .freq | .build | .gen | .enc | .dec | .ser | .deser | .swap
  | .pack | .unpack | .compress | .decompress => true

/-- The ZERO field of a command word is 0 (rule R107). -/
def zeroFieldClear (w : Word) : Bool := w.extractLsb' 8 24 == 0#24

/-- The OPC field of a command word selects a row of the opcode map (rules R105, R106). -/
def opcodeDefined (w : Word) : Bool := (w.extractLsb' 0 8).toNat ≤ 0x0D

/-- A word is one of the 14 command words (rule R108). -/
def commandWellFormed (w : Word) : Bool := zeroFieldClear w && opcodeDefined w

/-- BUF_CAP is in the range the spec admits (rule R8). -/
def bufCapWellFormed (n : Nat) : Bool := 1 ≤ n && n ≤ Config.bufCapMax

end Sys2Proof
end

