-- ==== Sys2Proof/Decode.lean ====
section
/-! DEFINITION. The decoder and the encoder of command words (rules R100, R105 to R108). -/

namespace Sys2Proof

/-- One row of the opcode map: word `w` selects it when `w &&& mask = pattern` (rule R105). -/
structure OpcodeRow where
  mask    : Word
  pattern : Word
  instr   : Instr
  deriving DecidableEq, Repr

/-- The opcode map (rule R105): every mask is 0xFFFF_FFFF. -/
def opcodeMap : List OpcodeRow :=
  [ ⟨0xFFFFFFFF#32, 0x00000000#32, .nop⟩,
    ⟨0xFFFFFFFF#32, 0x00000001#32, .clr⟩,
    ⟨0xFFFFFFFF#32, 0x00000002#32, .freq⟩,
    ⟨0xFFFFFFFF#32, 0x00000003#32, .build⟩,
    ⟨0xFFFFFFFF#32, 0x00000004#32, .gen⟩,
    ⟨0xFFFFFFFF#32, 0x00000005#32, .enc⟩,
    ⟨0xFFFFFFFF#32, 0x00000006#32, .dec⟩,
    ⟨0xFFFFFFFF#32, 0x00000007#32, .ser⟩,
    ⟨0xFFFFFFFF#32, 0x00000008#32, .deser⟩,
    ⟨0xFFFFFFFF#32, 0x00000009#32, .swap⟩,
    ⟨0xFFFFFFFF#32, 0x0000000A#32, .pack⟩,
    ⟨0xFFFFFFFF#32, 0x0000000B#32, .unpack⟩,
    ⟨0xFFFFFFFF#32, 0x0000000C#32, .compress⟩,
    ⟨0xFFFFFFFF#32, 0x0000000D#32, .decompress⟩ ]

/-- Why a word is no command: its ZERO field is set (rule R107), or its OPC is reserved (rule R106). -/
inductive Illegal where
  | zeroFieldSet
  | reservedOpcode
  deriving DecidableEq, Repr

/-- The decoder, total on words (rule R108): the row the word selects, else why it is illegal. -/
def decode (w : Word) : Except Illegal Instr :=
  match opcodeMap.find? (fun r => w &&& r.mask == r.pattern) with
  | some r => .ok r.instr
  | none => if zeroFieldClear w then .error .reservedOpcode else .error .zeroFieldSet

/-- The encoder: the OPC of rule R105 below a ZERO field of 0 (rule R100). -/
def encode : Instr → Word
  | .nop        => 0x00#32
  | .clr        => 0x01#32
  | .freq       => 0x02#32
  | .build      => 0x03#32
  | .gen        => 0x04#32
  | .enc        => 0x05#32
  | .dec        => 0x06#32
  | .ser        => 0x07#32
  | .deser      => 0x08#32
  | .swap       => 0x09#32
  | .pack       => 0x0A#32
  | .unpack     => 0x0B#32
  | .compress   => 0x0C#32
  | .decompress => 0x0D#32

/-- The word whose low `nbits` bits are those of `w` and whose other bits are 0. A command is one 32-bit
word carried whole by the port, so there is no byte order to apply (rules R78, R100). -/
def tableWord (nbits w : Nat) : Word := BitVec.ofNat 32 (w % 2 ^ nbits)

/-- What the decoder reads from an instruction whose bits are `w`: none when it has a bit above the one
32-bit word of a command, or when the word is illegal. -/
def decodeTableWord (nbits w : Nat) : Option Instr :=
  if w % 2 ^ nbits < 2 ^ 32 then (decode (tableWord nbits w)).toOption else none

end Sys2Proof
end

