-- ==== Sys2Proof/Machine/State.lean ====
section
/-! DEFINITION. The state of HCE (spec/10_state.md, rule R301), its nine fault causes (rule R260), the
reasons a step can stop (none), and the reset state. -/

namespace Sys2Proof.Machine

/-- The nine causes a fault entry records (rule R260; U8 says exactly nine). Taking one is a next state,
not a stop (rule R273). -/
inductive Cause where
  | invalidTreeState
  | unmatchedBitSequence
  | missingCodeForSymbol
  | truncatedInput
  | invalidBitCount
  | invalidCodeTable
  | lengthOverflow
  | illegalCommand
  | capacityExceeded
  deriving DecidableEq, Repr

/-- Reasons a step stops with a fault: none. Every error of the spec is recorded in FAULT_CODE and the
machine goes on (rule R273), and an access that is not served answers ERR (rules R73 to R75). -/
inductive Fault : Type
  deriving DecidableEq, Repr

/-- Reasons a step is refused. -/
inductive Refusal where
  /-- Raised by an arm of `exec` whose instruction has no meaning yet; no arm raises it. Safe. -/
  | notModelled (mnemonic : String)
  deriving DecidableEq, Repr

/-- A byte buffer: the bytes that differ from what an unlisted one reads as, by rising byte index
(rules R55, R56, R82; log entry 2). -/
abbrev Memory := List Host.Cell

/-- FREQ (rule R42). -/
abbrev FreqTable := Vector Word 256

/-- NODE (rule R45). -/
abbrev NodeMemory := Vector Node 511

/-- CODE (rule R50). -/
abbrev CodeTable := Vector Code 256

/-- Everything the spec gives HCE (rule R301), and three fields of the model's own: `inputs`, `lastResp`
and `freeTick` (log entries 4, 5, 6). -/
structure State where
  /-- STATUS.BUSY (rule R26). -/
  busy : Bool
  /-- STATUS.DONE (rule R27). -/
  done : Bool
  /-- STATUS.FAULT (rule R28). -/
  faulted : Bool
  /-- CTRL.IE_DONE (rule R29). -/
  ieDone : Bool
  /-- CTRL.IE_FAULT (rule R29). -/
  ieFault : Bool
  /-- FAULT_CODE, absent for code 0 (rule R30; log entry 9). -/
  faultCode : Option Cause
  /-- FAULT_INFO (rule R31). -/
  faultInfo : Word
  /-- IN_LEN (rule R32). -/
  inLen : Word
  /-- OUT_LEN (rule R33). -/
  outLen : Word
  /-- BITCNT (rule R34). -/
  bitCnt : Word
  /-- NODE_CNT (rule R35). -/
  nodeCnt : NodeIndex
  /-- ROOT.VALID (rule R36). -/
  rootValid : Bool
  /-- ROOT.INDEX (rule R36). -/
  rootIndex : NodeIndex
  /-- CMDR (rule R22). -/
  cmdr : Word
  /-- BUF_CAP, the constant that CAP shows (rules R8, R38; log entry 1). -/
  bufCap : Nat
  /-- FREQ (rule R42). -/
  freq : FreqTable
  /-- NODE (rule R45). -/
  node : NodeMemory
  /-- CODE (rule R50). -/
  code : CodeTable
  /-- IBUF (rule R55). -/
  ibuf : Memory
  /-- OBUF (rule R56). -/
  obuf : Memory
  /-- The turns still to come (the model's own; log entry 5). -/
  inputs : List Input
  /-- The port's answer to the latest access (the model's own; log entry 6). -/
  lastResp : Option Response
  /-- The counter that free values are applied to (the model's own; log entry 4). -/
  freeTick : Nat
  deriving DecidableEq, Repr

/-- The reset state of rule R301 for a capacity, any contents of the two buffers, and the model's own
fields as given. -/
def State.resetWith (cap : Nat) (ibuf obuf : Memory) (inputs : List Input) (tick : Nat) : State where
  busy := false
  done := false
  faulted := false
  ieDone := false
  ieFault := false
  faultCode := none
  faultInfo := 0#32
  inLen := 0#32
  outLen := 0#32
  bitCnt := 0#32
  nodeCnt := 0#9
  rootValid := false
  rootIndex := 0#9
  cmdr := 0#32
  bufCap := cap
  freq := Vector.replicate 256 0#32
  node := Vector.replicate 511 Node.zero
  code := Vector.replicate 256 []
  ibuf := ibuf
  obuf := obuf
  inputs := inputs
  lastResp := none
  freeTick := tick

/-- HCE right after reset (rule R301). DESIGN CHOICE: BUF_CAP is 64 (log entry 1), no buffer byte is
listed (log entry 2), no turn is listed (log entry 5), freeTick is 0 (log entry 4). -/
def State.reset : State := State.resetWith Config.bufCap [] [] [] 0

end Sys2Proof.Machine
end

