-- ==== Sys2Proof/Machine/Ops.lean ====
section
/-! DEFINITION. The named operations over buffers, tables and STATUS that every meaning uses, and fault
entry with its counterpart (rules R273, R274, R276). -/

namespace Sys2Proof.Machine

/-! ## Buffers (rules R55 to R58, R82) -/

/-- What a buffer byte that is not listed reads as. DESIGN CHOICE 0x00 (log entry 2). -/
def Memory.unlisted : Byte := 0#8

/-- One byte of a buffer (rule R11's `MemRead(space, i, 1)`). -/
def Memory.read : Memory → Nat → Byte
  | [], _ => Memory.unlisted
  | (k, b) :: m, a => if a = k then b else Memory.read m a

/-- Store one byte of a buffer, keeping the canonical form (rule R11's `MemWrite(space, i, 1, b)`). -/
def Memory.write : Memory → Nat → Byte → Memory
  | [], a, b => if b = Memory.unlisted then [] else [(a, b)]
  | (k, c) :: m, a, b =>
    if a < k then (if b = Memory.unlisted then (k, c) :: m else (a, b) :: (k, c) :: m)
    else if a = k then (if b = Memory.unlisted then m else (a, b) :: m)
    else (k, c) :: Memory.write m a b

/-- The canonical form: indices strictly rising, no byte listed that an unlisted index reads as. -/
abbrev Memory.wf (m : Memory) : Prop :=
  m.Pairwise (fun x y => x.1 < y.1) ∧ ∀ x ∈ m, x.2 ≠ Memory.unlisted

/-- Every listed index is below the capacity (rules R55, R56). -/
abbrev Memory.below (cap : Nat) (m : Memory) : Prop := ∀ x ∈ m, x.1 < cap

/-- The bytes at `a`, `a + 1`, …, `a + n - 1`. -/
def Memory.readBytes (m : Memory) (a n : Nat) : List Byte :=
  (List.range n).map (fun i => Memory.read m (a + i))

/-- Store bytes at ascending indices from `a` (rule R82). -/
def Memory.writeBytes : Memory → Nat → List Byte → Memory
  | m, _, [] => m
  | m, a, b :: bs => Memory.writeBytes (Memory.write m a b) (a + 1) bs

/-- The buffer whose byte `i` is `f i` for every `i` below `n`. -/
def Memory.ofFn (n : Nat) (f : Nat → Byte) : Memory :=
  Memory.writeBytes [] 0 ((List.range n).map f)

/-! ## Tables (rules R42, R45, R50) -/

/-- The symbols in ascending order (rule R165's `for s in 0..255`). -/
def symbols : List Byte := (List.range 256).map (BitVec.ofNat 8)

/-- `FREQ[s]`. -/
def freqOf (t : FreqTable) (s : Byte) : Word := t[s.toNat]'s.isLt

/-- `FREQ[s] <- v`. -/
def setFreq (t : FreqTable) (s : Byte) (v : Word) : FreqTable := t.set s.toNat v s.isLt

/-- `CODE[s].BITS`; `CODE[s].LEN` is its length. -/
def codeOf (t : CodeTable) (s : Byte) : Code := t[s.toNat]'s.isLt

/-- `CODE[s] <- {LEN = len(c), BITS = c}`. -/
def setCode (t : CodeTable) (s : Byte) (c : Code) : CodeTable := t.set s.toNat c s.isLt

/-- `NODE[i]`; all-zero outside the memory, which no checked index reaches (log entry 11). -/
def nodeAt (m : NodeMemory) (i : Nat) : Node := if h : i < 511 then m[i] else Node.zero

/-- `NODE[i] <- n`; nothing outside the memory, which rule R168 never reaches. -/
def setNode (m : NodeMemory) (i : Nat) (n : Node) : NodeMemory := m.setIfInBounds i n

/-- FREQ with every counter 0. -/
def zeroFreq : FreqTable := Vector.replicate 256 0#32

/-- NODE with every entry all-zero. -/
def zeroNode : NodeMemory := Vector.replicate 511 Node.zero

/-- CODE with every symbol absent. -/
def emptyCode : CodeTable := Vector.replicate 256 []

/-- NCODE: how many symbols are present in CODE (rule R37). -/
def codeCount (t : CodeTable) : Nat := (symbols.filter (fun s => codeOf t s ≠ [])).length

/-! ## Bits and bytes (rules R12, R76) -/

/-- `ceil8(B)` (rule R12). -/
def ceil8 (b : Nat) : Nat := (b + 7) / 8

/-- The `w`-bit value whose bits, most significant first, are `f 0`, `f 1`, …, `f (w - 1)` (rule R76). -/
def msbFirst : (w : Nat) → (Nat → Bool) → BitVec w
  | 0, _ => 0#0
  | w + 1, f => (msbFirst w f).concat (f w)

/-- Bit `i` of a bit sequence, 0 beyond its end (rule R131's `bit(i)`). -/
def bitAt (q : Bits) (i : Nat) : Bool := q.getD i false

/-! ## Locations and write sets (rule R104) -/

/-- A location that a command can have in its write set (rule R104). -/
inductive Loc where
  | freq
  | node
  | nodeCnt
  | root
  | code
  | bitCnt
  | ibuf
  | inLen
  | obuf
  | outLen
  | faultCode
  | faultInfo
  | faultBit
  deriving DecidableEq, Repr

/-! ## Free values (rule R274, U1, U2; log entries 3, 4) -/

/-- FREQ with every counter free. -/
def freeFreq (tick : Nat) : FreqTable := Vector.ofFn (fun i => Config.freeFreq tick i.val)

/-- NODE with every entry free. -/
def freeNode (tick : Nat) : NodeMemory :=
  Vector.ofFn (fun i =>
    { kind  := if Config.freeNodeKind tick i.val then .internal else .leaf
      sym   := Config.freeNodeSym tick i.val
      freq  := Config.freeNodeFreq tick i.val
      left  := Config.freeNodeLeft tick i.val
      right := Config.freeNodeRight tick i.val })

/-- CODE with every entry a free LEN and free bits (U2). -/
def freeCode (tick : Nat) : CodeTable :=
  Vector.ofFn (fun i => (Config.freeCode tick i.val).take Config.maxLen)

/-- IBUF with every byte free. -/
def freeIbuf (tick cap : Nat) : Memory := Memory.ofFn cap (Config.freeIbuf tick)

/-- OBUF with every byte free. -/
def freeObuf (tick cap : Nat) : Memory := Memory.ofFn cap (Config.freeObuf tick)

/-- The late fault's unspecified values: every location of the write set takes a free value, but BITCNT
becomes 0 (rule R274). OUT_LEN is fault entry's business. -/
def scramble (ws : List Loc) (s : State) : State :=
  { s with
    freq      := if .freq ∈ ws then freeFreq s.freeTick else s.freq
    node      := if .node ∈ ws then freeNode s.freeTick else s.node
    nodeCnt   := if .nodeCnt ∈ ws then Config.freeNodeCnt s.freeTick else s.nodeCnt
    rootValid := if .root ∈ ws then Config.freeRootValid s.freeTick else s.rootValid
    rootIndex := if .root ∈ ws then Config.freeRootIndex s.freeTick else s.rootIndex
    code      := if .code ∈ ws then freeCode s.freeTick else s.code
    bitCnt    := if .bitCnt ∈ ws then 0#32 else s.bitCnt
    ibuf      := if .ibuf ∈ ws then freeIbuf s.freeTick s.bufCap else s.ibuf
    inLen     := if .inLen ∈ ws then Config.freeInLen s.freeTick else s.inLen
    obuf      := if .obuf ∈ ws then freeObuf s.freeTick s.bufCap else s.obuf
    freeTick  := s.freeTick + 1 }

/-! ## Faults (rules R14, R271, R273, R274, R276) -/

/-- When a fault is raised (rule R274). -/
inductive Phase where
  | early
  | late
  deriving DecidableEq, Repr

/-- `raise F(info)` (rule R14), with rule R274's early or late. -/
structure Raise where
  cause : Cause
  info  : Word
  phase : Phase
  deriving DecidableEq, Repr

/-- What a command's rule gives: the state it leaves, or the first `raise` reached (rule R271). -/
abbrev Body := Except Raise State

/-- `raise F(info)` of an early fault. -/
def raiseEarly {α : Type} (c : Cause) (info : Nat) : Except Raise α :=
  .error ⟨c, BitVec.ofNat 32 info, .early⟩

/-- `raise F(info)` of a late fault. -/
def raiseLate {α : Type} (c : Cause) (info : Nat) : Except Raise α :=
  .error ⟨c, BitVec.ofNat 32 info, .late⟩

/-- What rule R274 does to the write set. -/
def spoil (ws : List Loc) (p : Phase) (s : State) : State :=
  match p with
  | .early => s
  | .late => scramble ws s

/-- Fault entry (rule R273): the cause and its detail are recorded, FAULT is set, DONE and BUSY cleared,
and the write set is treated as rule R274 says, OUT_LEN becoming 0 if it is in it. CMDR keeps the word. -/
def faultEntry (ws : List Loc) (r : Raise) (s : State) : State :=
  let t := spoil ws r.phase s
  { t with
    faultCode := some r.cause
    faultInfo := r.info
    faulted   := true
    done      := false
    busy      := false
    outLen    := if .outLen ∈ ws then 0#32 else t.outLen }

/-- What CLR does to a recorded fault (rule R242), HCE's counterpart of a return from a trap (rule R276). -/
def clearFault (s : State) : State :=
  { s with faultCode := none, faultInfo := 0#32, faulted := false }

/-- The engine step's completion: BUSY <- 0, DONE <- 1 (rules R27, R87). -/
def complete (s : State) : State := { s with busy := false, done := true }

/-- The engine step of a command with a write set and a rule (rule R87): it completes, or it faults from
the state the command found. -/
def runCommand (ws : List Loc) (body : State → Body) (s : State) : Host.Outcome State Fault Refusal :=
  match body s with
  | .ok t => .next (complete t)
  | .error r => .next (faultEntry ws r s)

/-- The engine step of an illegal word: IllegalCommand with the word, and an empty write set
(rules R106, R107, R268; log entry 13). -/
def illegalCommand (s : State) : Host.Outcome State Fault Refusal :=
  .next (faultEntry [] ⟨.illegalCommand, s.cmdr, .early⟩ s)

/-! ## Results of a command -/

/-- OBUF[0..len) <- bytes and OUT_LEN <- len (rule R57). -/
def putOutput (bytes : List Byte) (s : State) : State :=
  { s with
    obuf   := Memory.writeBytes s.obuf 0 bytes
    outLen := BitVec.ofNat 32 bytes.length }

/-- BITCNT <- b. -/
def putBitCount (b : Nat) (s : State) : State := { s with bitCnt := BitVec.ofNat 32 b }

end Sys2Proof.Machine
end

