-- ==== Sys2Proof/Machine/Operands.lean ====
section
/-! DEFINITION. The implicit operands of the commands (rule R104): what each reads and writes, the input
bytes, the bit count and the packed payload, with the checks made where they are read. -/

namespace Sys2Proof.Machine

/-- What a command's rule reads, apart from STATUS and CMDR (rule R104). -/
def readSet : Instr → List Loc
  | .nop        => []
  | .clr        => []
  | .freq       => [.inLen, .ibuf]
  | .build      => [.freq]
  | .gen        => [.node, .nodeCnt, .root]
  | .enc        => [.inLen, .ibuf, .code]
  | .dec        => [.inLen, .bitCnt, .ibuf, .code]
  | .ser        => [.inLen, .bitCnt, .ibuf, .code]
  | .deser      => [.inLen, .ibuf]
  | .swap       => [.ibuf, .inLen, .obuf, .outLen]
  | .pack       => [.inLen, .ibuf]
  | .unpack     => [.inLen, .bitCnt, .ibuf]
  | .compress   => [.inLen, .ibuf]
  | .decompress => [.inLen, .ibuf]

/-- The write set of a command (rule R104). -/
def writeSet : Instr → List Loc
  | .nop        => []
  | .clr        => [.freq, .node, .nodeCnt, .root, .code, .bitCnt, .outLen, .faultCode, .faultInfo, .faultBit]
  | .freq       => [.freq]
  | .build      => [.node, .nodeCnt, .root]
  | .gen        => [.code]
  | .enc        => [.obuf, .outLen, .bitCnt]
  | .dec        => [.obuf, .outLen]
  | .ser        => [.obuf, .outLen]
  | .deser      => [.code, .bitCnt, .obuf, .outLen]
  | .swap       => [.ibuf, .inLen, .obuf, .outLen]
  | .pack       => [.obuf, .outLen, .bitCnt]
  | .unpack     => [.obuf, .outLen]
  | .compress   => [.freq, .node, .nodeCnt, .root, .code, .bitCnt, .ibuf, .inLen, .obuf, .outLen]
  | .decompress => [.code, .bitCnt, .ibuf, .inLen, .obuf, .outLen]

/-- IN_LEN as a number (rule R32). -/
def inputLength (s : State) : Nat := s.inLen.toNat

/-- IBUF[0..IN_LEN), the input bytes (rules R32, R57). -/
def inputBytes (s : State) : List Byte := Memory.readBytes s.ibuf 0 (inputLength s)

/-- IBUF[0..n). -/
def inputPart (s : State) (n : Nat) : List Byte := Memory.readBytes s.ibuf 0 n

/-- `check_in()` (rule R150): IN_LEN is compared, unsigned, with BUF_CAP before the rest of the rule. -/
def checkIn (s : State) (rest : Body) : Body :=
  if inputLength s > s.bufCap then raiseEarly .capacityExceeded (inputLength s) else rest

/-- BITCNT as UNPACK, DEC and SER read it (rules R34, R265): bit 31 set is InvalidBitCount. -/
def withBitCount (s : State) (rest : Nat → Body) : Body :=
  if s.bitCnt.msb then raiseEarly .invalidBitCount s.bitCnt.toNat else rest s.bitCnt.toNat

/-- The packed payload of UNPACK, DEC and SER: after `check_in()` and the bit count, IBUF must hold
`ceil8(B)` bytes, else TruncatedInput(0) (rules R139, R203, R222, R264). The rest gets B and the bytes. -/
def withPayload (s : State) (rest : Nat → List Byte → Body) : Body :=
  checkIn s (withBitCount s (fun b =>
    if ceil8 b > inputLength s then raiseEarly .truncatedInput 0
    else rest b (inputPart s (ceil8 b))))

end Sys2Proof.Machine
end

