-- ==== Sys2Proof/Machine/Flags.lean ====
section
/-! DEFINITION. STATUS, CTRL and the register images computed from State, the operating states, and the
interrupt output (rules R25 to R31, R35 to R38, R260, R278, R282). -/

namespace Sys2Proof.Machine

/-- The number of a cause (rule R260). -/
def causeNumber : Cause → BitVec 4
  | .invalidTreeState     => 1#4
  | .unmatchedBitSequence => 2#4
  | .missingCodeForSymbol => 3#4
  | .truncatedInput       => 4#4
  | .invalidBitCount      => 5#4
  | .invalidCodeTable     => 6#4
  | .lengthOverflow       => 7#4
  | .illegalCommand       => 8#4
  | .capacityExceeded     => 9#4

/-- Bits 3:0 of FAULT_CODE (rule R30). -/
def faultCodeNumber : Option Cause → BitVec 4
  | none => 0#4
  | some c => causeNumber c

/-- STATUS as a word: BUSY in bit 0, DONE in bit 1, FAULT in bit 2, zeros above (rule R25). -/
def statusWord (s : State) : Word :=
  0#29 ++ BitVec.ofBool s.faulted ++ BitVec.ofBool s.done ++ BitVec.ofBool s.busy

/-- CTRL as a word: IE_DONE in bit 0, IE_FAULT in bit 1, zeros above (rule R29). -/
def ctrlWord (s : State) : Word :=
  0#30 ++ BitVec.ofBool s.ieFault ++ BitVec.ofBool s.ieDone

/-- FAULT_CODE as a word (rule R30). -/
def faultCodeWord (s : State) : Word := (faultCodeNumber s.faultCode).setWidth 32

/-- NODE_CNT as a word (rule R35). -/
def nodeCntWord (s : State) : Word := s.nodeCnt.setWidth 32

/-- ROOT as a word: VALID in bit 31, INDEX in bits 8:0 (rule R36). -/
def rootWord (s : State) : Word := BitVec.ofBool s.rootValid ++ 0#22 ++ s.rootIndex

/-- NCODE as a word (rule R37). -/
def ncodeWord (s : State) : Word := BitVec.ofNat 32 (codeCount s.code)

/-- CAP as a word (rule R38). -/
def capWord (s : State) : Word := BitVec.ofNat 32 s.bufCap

/-- The level of the interrupt output (rule R278). -/
def irq (s : State) : Bool := (s.ieDone && s.done) || (s.ieFault && s.faulted)

/-- The operating states (rule R282). -/
inductive OperatingState where
  | idle
  | busy
  | faulted
  deriving DecidableEq, Repr

/-- Which operating state HCE is in (rule R282). -/
def operatingState (s : State) : OperatingState :=
  if s.busy then .busy else if s.faulted then .faulted else .idle

/-- Acceptance of a command word: CMDR <- w, BUSY <- 1, DONE <- 0 (rule R101). -/
def acceptCommand (w : Word) (s : State) : State := { s with cmdr := w, busy := true, done := false }

/-- A word is accepted when no fault is recorded, or when it is CLR (rules R101, R102). -/
def accepts (s : State) (w : Word) : Bool := !s.faulted || w == 0x00000001#32

/-- A write to STATUS: bit 1 of the written value clears DONE, nothing else happens (rule R25). -/
def writeStatus (v : Word) (s : State) : State := { s with done := s.done && !v.getLsbD 1 }

/-- A write to CTRL stores bits 1:0 (rule R29). -/
def writeCtrl (v : Word) (s : State) : State := { s with ieDone := v.getLsbD 0, ieFault := v.getLsbD 1 }

end Sys2Proof.Machine
end

