-- ==== Sys2Proof/Machine/CodeGenerator.lean ====
section
/-! DEFINITION. The code-generator tree-walker: GEN (spec/42_code_generator.md). -/

namespace Sys2Proof.Machine

/-- `walk(i, p)` (rule R183), with a bound on the depth of the calls above every index: each call goes to
a smaller index, so a bound of `i + 1` is never used up (rule R184). LEFT is walked before RIGHT; LEFT
appends 0 and RIGHT appends 1 (rule R181). -/
def walk (m : NodeMemory) : Nat → Nat → Bits → CodeTable → Except Raise CodeTable
  | 0, i, _, _ => raiseLate .invalidTreeState i
  | fuel + 1, i, p, c =>
    match (nodeAt m i).kind with
    | .leaf =>
      if codeOf c (nodeAt m i).sym ≠ [] then raiseLate .invalidTreeState i
      else .ok (setCode c (nodeAt m i).sym p)
    | .internal =>
      if i ≤ (nodeAt m i).left.toNat ∨ i ≤ (nodeAt m i).right.toNat
          ∨ (nodeAt m i).left = (nodeAt m i).right then raiseLate .invalidTreeState i
      else if p.length = Config.maxLen then raiseLate .invalidTreeState i
      else
        match walk m fuel (nodeAt m i).left.toNat (p ++ [false]) c with
        | .error r => .error r
        | .ok c' => walk m fuel (nodeAt m i).right.toNat (p ++ [true]) c'

/-- The code table of a tree: empty with no tree, the one-bit code 0 for a lone leaf, else the paths
(rules R182, R183). -/
def generateCodes (m : NodeMemory) (cnt : NodeIndex) (valid : Bool) (root : NodeIndex) :
    Except Raise CodeTable :=
  if valid = false then .ok emptyCode
  else if cnt.toNat ≤ root.toNat then raiseLate .invalidTreeState root.toNat
  else
    match (nodeAt m root.toNat).kind with
    | .leaf => .ok (setCode emptyCode (nodeAt m root.toNat).sym [false])
    | .internal => walk m (root.toNat + 1) root.toNat [] emptyCode

/-- The rule of GEN (R183). -/
def genBody (s : State) : Body :=
  match generateCodes s.node s.nodeCnt s.rootValid s.rootIndex with
  | .error r => .error r
  | .ok c => .ok { s with code := c }

/-- GEN (rule R183). -/
def execGen (s : State) : Host.Outcome State Fault Refusal := runCommand (writeSet .gen) genBody s

end Sys2Proof.Machine
end

