-- ==== Sys2Proof/Machine/BitPacker.lean ====
section
/-! DEFINITION. The bidirectional bit-packer: the functions pack and unpack, the streaming packer that makes
the same bytes, and the commands PACK and UNPACK (spec/43_bit_packer.md). -/

namespace Sys2Proof.Machine

/-- Byte `j` of a packed sequence: its elements 8j to 8j + 7, most significant bit first, zeros beyond
the end (rule R131). -/
def packByte (q : Bits) (j : Nat) : Byte := msbFirst 8 (fun k => bitAt q (8 * j + k))

/-- `pack(q)` (rule R131). -/
def packBits (q : Bits) : List Byte := (List.range (ceil8 q.length)).map (packByte q)

/-- Element `i` of an unpacked sequence (rule R133). DESIGN CHOICE (log entry 11): where `y` is too short,
which rule R133 leaves undefined and no command reaches, a missing byte reads as 0x00. -/
def unpackBit (y : List Byte) (i : Nat) : Bool := (y.getD (i / 8) 0#8).getLsbD (7 - i % 8)

/-- `unpack(y, B)` (rule R133), of B elements also where `y` is too short (log entry 11). -/
def unpackBits (y : List Byte) (b : Nat) : Bits := (List.range b).map (unpackBit y)

/-! ## The streaming packer (rule R141) -/

/-- A streaming packer: the bytes emitted so far and the partial byte, which is up to 7 bits, its latest bit
lowest, and their 3-bit count. It is working state of one command (rule R60). -/
structure Packer where
  emitted : List Byte
  held    : BitVec 7
  count   : BitVec 3
  deriving DecidableEq, Repr

/-- The packer at the start of a command: its partial byte is 0 bits long (rule R141). -/
def Packer.start : Packer := ⟨[], 0#7, 0#3⟩

/-- A bit arrives: the eighth completes a byte, which is emitted; an earlier one joins the partial byte
(rule R141). -/
def Packer.push (p : Packer) (b : Bool) : Packer :=
  if p.count = 7#3 then ⟨p.emitted ++ [p.held.concat b], 0#7, 0#3⟩
  else ⟨p.emitted, (p.held.concat b).setWidth 7, p.count + 1#3⟩

/-- The end of the sequence: a partial byte that is not 0 bits long is shifted left, filled with zeros, and
emitted (rule R141). -/
def Packer.finish (p : Packer) : Packer :=
  if p.count = 0#3 then p
  else ⟨p.emitted ++ [p.held.setWidth 8 <<< (8 - p.count.toNat)], 0#7, 0#3⟩

/-- The packer at the end of a command that packed `q` (rule R141). -/
def streamPack (q : Bits) : Packer := (q.foldl Packer.push Packer.start).finish

/-! ## The commands -/

/-- A byte of the bit-per-byte form: the bit in bit 0 (rule R137). -/
def bitByte (b : Bool) : Byte := if b then 1#8 else 0#8

/-- The bit of a byte in bit-per-byte form: bits 7:1 are ignored (rule R137). -/
def byteBit (x : Byte) : Bool := x.getLsbD 0

/-- The rule of PACK (R136). -/
def packBody (s : State) : Body :=
  checkIn s (.ok (putBitCount (inputLength s) (putOutput (packBits ((inputBytes s).map byteBit)) s)))

/-- The rule of UNPACK (R139). -/
def unpackBody (s : State) : Body :=
  withPayload s (fun b y =>
    if b > s.bufCap then raiseEarly .capacityExceeded b
    else .ok (putOutput ((unpackBits y b).map bitByte) s))

/-- PACK (rule R136). -/
def execPack (s : State) : Host.Outcome State Fault Refusal := runCommand (writeSet .pack) packBody s

/-- UNPACK (rule R139). -/
def execUnpack (s : State) : Host.Outcome State Fault Refusal := runCommand (writeSet .unpack) unpackBody s

end Sys2Proof.Machine
end

