-- ==== Sys2Proof/Machine/Container.lean ====
section
/-! DEFINITION. The container frame: SER and DESER (spec/46_container.md). -/

namespace Sys2Proof.Machine

/-- The container's `int32`: four bytes, most significant first (rules R77, R217). -/
def headerBytes (b : Nat) : List Byte :=
  [ (BitVec.ofNat 32 b).extractLsb' 24 8, (BitVec.ofNat 32 b).extractLsb' 16 8,
    (BitVec.ofNat 32 b).extractLsb' 8 8, (BitVec.ofNat 32 b).extractLsb' 0 8 ]

/-- The word that the first four bytes hold (rule R227's `W`). -/
def headerWord (x : List Byte) : Word :=
  x.getD 0 0#8 ++ x.getD 1 0#8 ++ x.getD 2 0#8 ++ x.getD 3 0#8

/-- One table entry: symbol, codeBitCount, codeBytes (rules R215, R220). -/
def entryBytes (s : Byte) (c : Code) : List Byte := s :: BitVec.ofNat 8 c.length :: packBits c

/-- The table: the present symbols' entries in ascending symbol order (rules R222, R223). -/
def tableBytes (c : CodeTable) : List Byte :=
  symbols.flatMap (fun s => if codeOf c s = [] then [] else entryBytes s (codeOf c s))

/-- `T`, the table's size in bytes (rule R222). -/
def tableSize (c : CodeTable) : Nat :=
  (symbols.map (fun s => if codeOf c s = [] then 0 else 2 + ceil8 (codeOf c s).length)).sum

/-- The container of a bit count, a payload and a code table (rules R215, R216). -/
def containerBytes (b : Nat) (payload : List Byte) (c : CodeTable) : List Byte :=
  headerBytes b ++ payload ++ tableBytes c

/-- The rule of SER (R222). -/
def serBody (s : State) : Body :=
  withPayload s (fun b y =>
    if 4 + ceil8 b + tableSize s.code > s.bufCap then
      raiseEarly .capacityExceeded (4 + ceil8 b + tableSize s.code)
    else .ok (putOutput (containerBytes b y s.code) s))

/-- Some symbol already has this code (rule R228). -/
def hasCode (c : CodeTable) (a : Bits) : Bool := symbols.any (fun t => codeOf c t == a)

/-- DESER's table loop at offset `pos` of the container `x` (rule R227), with a bound on its passes that
the container's length covers, since every pass moves on by 3 bytes or more. The checks of an entry are
in the rule's order. -/
def loadEntries (x : List Byte) : Nat → Nat → CodeTable → Except Raise CodeTable
  | 0, _, c => .ok c
  | fuel + 1, pos, c =>
    if x.length ≤ pos then .ok c
    else if pos + 2 > x.length then raiseLate .truncatedInput pos
    else
      let s := x.getD pos 0#8
      let len := (x.getD (pos + 1) 0#8).toNat
      if len = 0 then raiseLate .invalidCodeTable pos
      else if pos + 2 + ceil8 len > x.length then raiseLate .truncatedInput pos
      else
        let a := unpackBits ((x.drop (pos + 2)).take (ceil8 len)) len
        if codeOf c s ≠ [] then raiseLate .invalidCodeTable pos
        else if hasCode c a then raiseLate .invalidCodeTable pos
        else loadEntries x fuel (pos + 2 + ceil8 len) (setCode c s a)

/-- The rule of DESER (R227). -/
def deserBody (s : State) : Body :=
  checkIn s
    (if inputLength s < 4 then raiseEarly .truncatedInput 0
     else if (headerWord (inputBytes s)).msb then
       raiseEarly .invalidBitCount (headerWord (inputBytes s)).toNat
     else if 4 + ceil8 (headerWord (inputBytes s)).toNat > inputLength s then raiseEarly .truncatedInput 4
     else
       match loadEntries (inputBytes s) (inputLength s) (4 + ceil8 (headerWord (inputBytes s)).toNat)
           emptyCode with
       | .error r => .error r
       | .ok c =>
         .ok (putBitCount (headerWord (inputBytes s)).toNat
           (putOutput (((inputBytes s).drop 4).take (ceil8 (headerWord (inputBytes s)).toNat))
             { s with code := c })))

/-- SER (rule R222). -/
def execSer (s : State) : Host.Outcome State Fault Refusal := runCommand (writeSet .ser) serBody s

/-- DESER (rule R227). -/
def execDeser (s : State) : Host.Outcome State Fault Refusal := runCommand (writeSet .deser) deserBody s

end Sys2Proof.Machine
end

