-- ==== Sys2Proof/Machine/Decoder.lean ====
section
/-! DEFINITION. The decoder: DEC, and the code-trie walker that rule R205 allows in its place
(spec/45_decoder.md). -/

namespace Sys2Proof.Machine

/-- `rev(a)`: the symbol whose code is `a`, none for the empty sequence and for no code (rule R201). Where
two symbols had equal codes it answers the lower one, which rule R52 excludes (log entry 11). -/
def rev (c : CodeTable) (a : Bits) : Option Byte :=
  if a = [] then none else symbols.find? (fun s => codeOf c s == a)

/-- The decoder's loop (rule R203) at bit index `i`, with the accumulator and the bytes emitted so far:
a lookup after every bit; a full OBUF and a non-empty accumulator at the end are faults. -/
def decodeFrom (c : CodeTable) (cap : Nat) : Nat → Bits → Bits → List Byte → Except Raise (List Byte)
  | i, [], acc, out =>
    if acc = [] then .ok out else raiseLate .unmatchedBitSequence (i - acc.length)
  | i, b :: q, acc, out =>
    match rev c (acc ++ [b]) with
    | none => decodeFrom c cap (i + 1) q (acc ++ [b]) out
    | some s =>
      if out.length = cap then raiseLate .capacityExceeded i
      else decodeFrom c cap (i + 1) q [] (out ++ [s])

/-- The rule of DEC (R203). -/
def decBody (s : State) : Body :=
  withPayload s (fun b y =>
    match decodeFrom s.code s.bufCap 0 (unpackBits y b) [] [] with
    | .error r => .error r
    | .ok out => .ok (putOutput out s))

/-- DEC (rule R203). -/
def execDec (s : State) : Host.Outcome State Fault Refusal := runCommand (writeSet .dec) decBody s

/-! ## The trie walk (rule R205) -/

/-- Where the walker stands: on a trie node, which is a sequence that some present code begins with, or in
the dead state. -/
inductive TrieState where
  | at (node : Bits)
  | dead
  deriving DecidableEq, Repr

/-- A sequence is a node of the trie of the present codes when some present code begins with it. -/
def isTrieNode (c : CodeTable) (a : Bits) : Bool :=
  symbols.any (fun s => codeOf c s ≠ [] && a.isPrefixOf (codeOf c s))

/-- Follow the edge of a bit; the walker dies where the edge does not exist. -/
def trieEdge (c : CodeTable) (t : TrieState) (b : Bool) : TrieState :=
  match t with
  | .dead => .dead
  | .at a => if isTrieNode c (a ++ [b]) then .at (a ++ [b]) else .dead

/-- The symbol that marks the node the walker stands on, if any. -/
def trieMark (c : CodeTable) (t : TrieState) : Option Byte :=
  match t with
  | .dead => none
  | .at a => rev c a

/-- The walker's loop: like the decoder's, but it holds a trie node or the dead state, and `start`, the
index of the first bit after the last byte emitted. -/
def trieDecodeFrom (c : CodeTable) (cap : Nat) :
    Nat → Nat → Bits → TrieState → List Byte → Except Raise (List Byte)
  | i, start, [], _, out =>
    if start = i then .ok out else raiseLate .unmatchedBitSequence start
  | i, start, b :: q, t, out =>
    match trieMark c (trieEdge c t b) with
    | none => trieDecodeFrom c cap (i + 1) start q (trieEdge c t b) out
    | some s =>
      if out.length = cap then raiseLate .capacityExceeded i
      else trieDecodeFrom c cap (i + 1) (i + 1) q (.at []) (out ++ [s])

end Sys2Proof.Machine
end

