-- ==== Sys2Proof/Machine/Encoder.lean ====
section
/-! DEFINITION. The symbol-to-code lookup encoder: ENC (spec/44_encoder.md). -/

namespace Sys2Proof.Machine

/-- The encoder's loop (rule R192) at input index `i` with encoded stream `e` of `b` bits: the code of each
byte is appended, and the three checks are made in the rule's order at each index. -/
def encodeFrom (c : CodeTable) (cap : Nat) : Nat → List Byte → Bits → Nat → Except Raise Bits
  | _, [], e, _ => .ok e
  | i, x :: xs, e, b =>
    if codeOf c x = [] then raiseLate .missingCodeForSymbol i
    else if b + (codeOf c x).length > Config.bitCntMax then raiseLate .lengthOverflow i
    else if ceil8 (b + (codeOf c x).length) > cap then raiseLate .capacityExceeded i
    else encodeFrom c cap (i + 1) xs (e ++ codeOf c x) (b + (codeOf c x).length)

/-- The rule of ENC (R192). -/
def encBody (s : State) : Body :=
  checkIn s
    (match encodeFrom s.code s.bufCap 0 (inputBytes s) [] 0 with
     | .error r => .error r
     | .ok e => .ok (putBitCount e.length (putOutput (packBits e) s)))

/-- ENC (rule R192). -/
def execEnc (s : State) : Host.Outcome State Fault Refusal := runCommand (writeSet .enc) encBody s

end Sys2Proof.Machine
end

