-- ==== Sys2Proof/Machine/Frequency.lean ====
section
/-! DEFINITION. Frequency analysis: FREQ (spec/40_frequency.md). -/

namespace Sys2Proof.Machine

/-- `FREQ[s] <- FREQ[s] + 1` (rule R151; it never wraps in a run, rule R152). -/
def bump (t : FreqTable) (s : Byte) : FreqTable := setFreq t s (freqOf t s + 1#32)

/-- The counts of the bytes, from a table of zeros (rule R151). -/
def countBytes (bytes : List Byte) : FreqTable := bytes.foldl bump zeroFreq

/-- The rule of FREQ (R151). -/
def freqBody (s : State) : Body := checkIn s (.ok { s with freq := countBytes (inputBytes s) })

/-- FREQ (rule R151). -/
def execFreq (s : State) : Host.Outcome State Fault Refusal := runCommand (writeSet .freq) freqBody s

end Sys2Proof.Machine
end

