-- ==== Sys2Proof/Machine/TreeBuilder.lean ====
section
/-! DEFINITION. The priority-queue tree builder: BUILD (spec/41_tree_builder.md). -/

namespace Sys2Proof.Machine

/-- BUILD's working state: the NODE memory, the number of entries made, the queue's members (rule R59). -/
structure Forest where
  node  : NodeMemory
  n     : Nat
  queue : List Nat
  deriving DecidableEq, Repr

/-- `key(i) < key(j)`: by frequency, unsigned, then by index (rules R160, R163). -/
def keyLt (m : NodeMemory) (i j : Nat) : Bool :=
  decide ((nodeAt m i).freq < (nodeAt m j).freq) || ((nodeAt m i).freq == (nodeAt m j).freq && decide (i < j))

/-- The member with the least key among `best` and the others (rule R160). -/
def minKey (m : NodeMemory) (best : Nat) : List Nat → Nat
  | [] => best
  | j :: js => minKey m (if keyLt m j best then j else best) js

/-- `remove_min(Q)`: the member with the least key and the others; none when Q is empty (rule R161). -/
def removeMin (m : NodeMemory) : List Nat → Option (Nat × List Nat)
  | [] => none
  | i :: is => some (minKey m i is, (i :: is).erase (minKey m i is))

/-- The leaf entry of a symbol (rule R45). -/
def leafNode (s : Byte) (f : Word) : Node := ⟨.leaf, s, f, 0#9, 0#9⟩

/-- The internal entry over two entries: the first removed is LEFT (rules R45, R164). -/
def internalNode (m : NodeMemory) (a b : Nat) : Node :=
  ⟨.internal, 0#8, (nodeAt m a).freq + (nodeAt m b).freq, BitVec.ofNat 9 a, BitVec.ofNat 9 b⟩

/-- Write entry `n`, insert it in the queue, and count it. -/
def addNode (w : Forest) (x : Node) : Forest := ⟨setNode w.node w.n x, w.n + 1, w.queue ++ [w.n]⟩

/-- One pass of the leaf loop: a leaf for a symbol with a count above 0 (rules R163, R165). -/
def addLeaf (t : FreqTable) (w : Forest) (s : Byte) : Forest :=
  if freqOf t s = 0#32 then w else addNode w (leafNode s (freqOf t s))

/-- The leaf loop, in ascending symbol order, from an all-zero memory (rule R165). -/
def leafForest (t : FreqTable) : Forest := symbols.foldl (addLeaf t) ⟨zeroNode, 0, []⟩

/-- One pass of the merge loop; none when fewer than two members are left (rule R165). -/
def mergeOnce (w : Forest) : Option Forest :=
  match removeMin w.node w.queue with
  | none => none
  | some (a, q) =>
    match removeMin w.node q with
    | none => none
    | some (b, q') => some (addNode ⟨w.node, w.n, q'⟩ (internalNode w.node a b))

/-- The merge loop, at most `fuel` passes (rule R168: one pass fewer than members suffices). -/
def mergeAll : Nat → Forest → Forest
  | 0, w => w
  | fuel + 1, w =>
    match mergeOnce w with
    | none => w
    | some w' => mergeAll fuel w'

/-- The forest BUILD ends with (rule R165). -/
def huffmanForest (t : FreqTable) : Forest := mergeAll (leafForest t).queue.length (leafForest t)

/-- The rule of BUILD (R165): NODE, NODE_CNT and ROOT from FREQ; no fault. -/
def buildBody (s : State) : Body :=
  let w := huffmanForest s.freq
  .ok { s with
        node := w.node
        nodeCnt := BitVec.ofNat 9 w.n
        rootValid := w.queue.length = 1
        rootIndex := BitVec.ofNat 9 (if w.queue.length = 1 then w.queue.headD 0 else 0) }

/-- BUILD (rule R165). -/
def execBuild (s : State) : Host.Outcome State Fault Refusal := runCommand (writeSet .build) buildBody s

end Sys2Proof.Machine
end

