-- ==== Sys2Proof/Machine/System.lean ====
section
/-! DEFINITION. The housekeeping commands NOP, CLR and SWAP and the composite commands COMPRESS and
DECOMPRESS (spec/47_system_commands.md). -/

namespace Sys2Proof.Machine

/-- The rule of NOP (R240): nothing. -/
def nopBody (s : State) : Body := .ok s

/-- Every table empty, BITCNT and OUT_LEN 0 (rule R242). -/
def clearTables (s : State) : State :=
  { s with
    freq := zeroFreq
    node := zeroNode
    nodeCnt := 0#9
    rootValid := false
    rootIndex := 0#9
    code := emptyCode
    bitCnt := 0#32
    outLen := 0#32 }

/-- The rule of CLR (R242): the tables and the recorded fault are cleared. -/
def clrBody (s : State) : Body := .ok (clearFault (clearTables s))

/-- The exchange of the two buffers and their lengths (rule R244). -/
def swapBuffers (s : State) : State :=
  { s with ibuf := s.obuf, obuf := s.ibuf, inLen := s.outLen, outLen := s.inLen }

/-- The rule of SWAP (R244). -/
def swapBody (s : State) : Body := checkIn s (.ok (swapBuffers s))

/-- The next stage of a composite command: it runs on the state the stages before left, and a fault it
raises is late (rules R246, R274). -/
def thenStage (before : Body) (stage : State → Body) : Body :=
  match before with
  | .error r => .error r
  | .ok t =>
    match stage t with
    | .ok u => .ok u
    | .error r => .error { r with phase := .late }

/-- The rule of COMPRESS (R247): FREQ, BUILD, GEN, ENC, SWAP, SER. -/
def compressBody (s : State) : Body :=
  thenStage (thenStage (thenStage (thenStage (thenStage (freqBody s) buildBody) genBody) encBody) swapBody)
    serBody

/-- The rule of DECOMPRESS (R249): DESER, SWAP, DEC. -/
def decompressBody (s : State) : Body := thenStage (thenStage (deserBody s) swapBody) decBody

/-- NOP (rule R240). -/
def execNop (s : State) : Host.Outcome State Fault Refusal := runCommand (writeSet .nop) nopBody s

/-- CLR (rule R242). -/
def execClr (s : State) : Host.Outcome State Fault Refusal := runCommand (writeSet .clr) clrBody s

/-- SWAP (rule R244). -/
def execSwap (s : State) : Host.Outcome State Fault Refusal := runCommand (writeSet .swap) swapBody s

/-- COMPRESS (rule R247). -/
def execCompress (s : State) : Host.Outcome State Fault Refusal :=
  runCommand (writeSet .compress) compressBody s

/-- DECOMPRESS (rule R249). -/
def execDecompress (s : State) : Host.Outcome State Fault Refusal :=
  runCommand (writeSet .decompress) decompressBody s

end Sys2Proof.Machine
end

