-- ==== Sys2Proof/Machine/Port.lean ====
section
/-! DEFINITION. The host port: the windows, the register map, what a read answers and what a write does
(rules R23 to R40, R44, R47, R53, R70 to R75, R80, R101, R102). -/

namespace Sys2Proof.Machine

/-- The registers of rule R23, each reserved word counted as one. -/
inductive Reg where
  | cmd
  | status
  | ctrl
  | faultCode
  | faultInfo
  | inLen
  | outLen
  | bitCnt
  | nodeCnt
  | root
  | ncode
  | cmdr
  | cap
  | reserved34
  | reserved38
  | reserved3c
  deriving DecidableEq, Repr

/-- The offset of a register (rule R23). -/
def regOffset : Reg → Word
  | .cmd        => 0x00#32
  | .status     => 0x04#32
  | .ctrl       => 0x08#32
  | .faultCode  => 0x0C#32
  | .faultInfo  => 0x10#32
  | .inLen      => 0x14#32
  | .outLen     => 0x18#32
  | .bitCnt     => 0x1C#32
  | .nodeCnt    => 0x20#32
  | .root       => 0x24#32
  | .ncode      => 0x28#32
  | .cmdr       => 0x2C#32
  | .cap        => 0x30#32
  | .reserved34 => 0x34#32
  | .reserved38 => 0x38#32
  | .reserved3c => 0x3C#32

/-- The register at word `k` of the register block (rule R23). -/
def regOfIndex : Nat → Reg
  | 0  => .cmd
  | 1  => .status
  | 2  => .ctrl
  | 3  => .faultCode
  | 4  => .faultInfo
  | 5  => .inLen
  | 6  => .outLen
  | 7  => .bitCnt
  | 8  => .nodeCnt
  | 9  => .root
  | 10 => .ncode
  | 11 => .cmdr
  | 12 => .cap
  | 13 => .reserved34
  | 14 => .reserved38
  | _  => .reserved3c

/-- What a size-4 read of a register returns (rules R22 to R39). -/
def readReg (s : State) : Reg → Word
  | .cmd        => 0#32
  | .status     => statusWord s
  | .ctrl       => ctrlWord s
  | .faultCode  => faultCodeWord s
  | .faultInfo  => s.faultInfo
  | .inLen      => s.inLen
  | .outLen     => s.outLen
  | .bitCnt     => s.bitCnt
  | .nodeCnt    => nodeCntWord s
  | .root       => rootWord s
  | .ncode      => ncodeWord s
  | .cmdr       => s.cmdr
  | .cap        => capWord s
  | .reserved34 => 0#32
  | .reserved38 => 0#32
  | .reserved3c => 0#32

/-- Where an offset falls (rule R70), with the word index in a word window and the byte index in a buffer
window. -/
inductive Place where
  | reg   (r : Reg)
  | freqw (k : Nat)
  | nodew (k : Nat)
  | codew (k : Nat)
  | ibufw (i : Nat)
  | obufw (i : Nat)
  | unmapped
  deriving DecidableEq, Repr

/-- The windows of rule R70; the buffer windows end at the capacity (rule R71). -/
def placeOf (cap : Nat) (o : Word) : Place :=
  let a := o.toNat
  if a < 0x40 then .reg (regOfIndex (a / 4))
  else if 0x1000 ≤ a ∧ a < 0x1400 then .freqw ((a - 0x1000) / 4)
  else if 0x2000 ≤ a ∧ a < 0x3000 then .nodew ((a - 0x2000) / 4)
  else if 0x4000 ≤ a ∧ a < 0x8000 then .codew ((a - 0x4000) / 4)
  else if 0x40000000 ≤ a ∧ a < 0x40000000 + cap then .ibufw (a - 0x40000000)
  else if 0x80000000 ≤ a ∧ a < 0x80000000 + cap then .obufw (a - 0x80000000)
  else .unmapped

/-- The link word of a NODE entry (rule R47). -/
def linkWord (n : Node) : Word :=
  match n.kind with
  | .leaf => 0#24 ++ n.sym
  | .internal => 1#1 ++ 0#6 ++ n.left ++ 0#7 ++ n.right

/-- Word `k` of NODEW: FREQ at even words, the link at odd ones, 0 after entry 510 (rule R47). -/
def nodewWord (m : NodeMemory) (k : Nat) : Word :=
  if k / 2 < 511 then
    (if k % 2 = 0 then (nodeAt m (k / 2)).freq else linkWord (nodeAt m (k / 2)))
  else 0#32

/-- Word `w` of a CODEW entry: LEN, then eight words of code bits, first bit in bit 31, then zeros
(rules R51, R53). -/
def codeEntryWord (c : Code) (w : Nat) : Word :=
  if w = 0 then BitVec.ofNat 32 c.length
  else if w ≤ 8 then msbFirst 32 (fun j => bitAt c (32 * (w - 1) + j))
  else 0#32

/-- Word `k` of CODEW: word `k mod 16` of the entry of symbol `k div 16` (rule R53). -/
def codewWord (t : CodeTable) (k : Nat) : Word :=
  codeEntryWord (codeOf t (BitVec.ofNat 8 (k / 16))) (k % 16)

/-- OK for a write. -/
def okWrite : Response := ⟨.ok, .none⟩

/-- OK with a word. -/
def okWord (w : Word) : Response := ⟨.ok, .word w⟩

/-- OK with a byte. -/
def okByte (b : Byte) : Response := ⟨.ok, .byte b⟩

/-- ERR: no state change, and 0 as read data (rule R72). -/
def errResponse : Access → Response
  | .read1 _    => ⟨.err, .byte 0#8⟩
  | .read4 _    => ⟨.err, .word 0#32⟩
  | .write1 _ _ => ⟨.err, .none⟩
  | .write4 _ _ => ⟨.err, .none⟩

/-- A size-4 access must have offset[1:0] = 00 (rule R80). -/
def aligned4 (o : Word) : Bool := o.extractLsb' 0 2 == 0#2

/-- A size-4 read of a word window; none for any other place (rules R44, R47, R53, R73). -/
def readWord (s : State) (o : Word) : Option Word :=
  if aligned4 o then
    match placeOf s.bufCap o with
    | .reg r   => some (readReg s r)
    | .freqw k => some (freqOf s.freq (BitVec.ofNat 8 k))
    | .nodew k => some (nodewWord s.node k)
    | .codew k => some (codewWord s.code k)
    | .ibufw _ => none
    | .obufw _ => none
    | .unmapped => none
  else none

/-- A size-1 read of a buffer window; none for any other place (rules R71, R73). -/
def readByte (s : State) (o : Word) : Option Byte :=
  match placeOf s.bufCap o with
  | .ibufw i => some (Memory.read s.ibuf i)
  | .obufw i => some (Memory.read s.obuf i)
  | .reg _   => none
  | .freqw _ => none
  | .nodew _ => none
  | .codew _ => none
  | .unmapped => none

/-- A write of a word to CMD: accepted, or refused with ERR (rules R101, R102). -/
def issueCommand (w : Word) (s : State) : State × Resp :=
  if accepts s w then (acceptCommand w s, .ok) else (s, .err)

/-- A size-4 write of a register: CMD issues a command, STATUS clears DONE, CTRL, IN_LEN and BITCNT
store, and the others ignore it with OK (rules R24, R25, R29, R32, R34, R39, R40). -/
def writeReg (r : Reg) (v : Word) (s : State) : State × Resp :=
  match r with
  | .cmd        => issueCommand v s
  | .status     => (writeStatus v s, .ok)
  | .ctrl       => (writeCtrl v s, .ok)
  | .inLen      => ({ s with inLen := v }, .ok)
  | .bitCnt     => ({ s with bitCnt := v }, .ok)
  | .faultCode  => (s, .ok)
  | .faultInfo  => (s, .ok)
  | .outLen     => (s, .ok)
  | .nodeCnt    => (s, .ok)
  | .root       => (s, .ok)
  | .ncode      => (s, .ok)
  | .cmdr       => (s, .ok)
  | .cap        => (s, .ok)
  | .reserved34 => (s, .ok)
  | .reserved38 => (s, .ok)
  | .reserved3c => (s, .ok)

/-- A size-4 write: registers as above, the table windows ignore it with OK, and any other place or a
misaligned offset answers ERR (rules R44, R47, R53, R73, R74, R80). -/
def writeWord (o : Word) (v : Word) (s : State) : State × Resp :=
  if aligned4 o then
    match placeOf s.bufCap o with
    | .reg r   => writeReg r v s
    | .freqw _ => (s, .ok)
    | .nodew _ => (s, .ok)
    | .codew _ => (s, .ok)
    | .ibufw _ => (s, .err)
    | .obufw _ => (s, .err)
    | .unmapped => (s, .err)
  else (s, .err)

/-- A size-1 write: IBUF stores it, OBUF ignores it with OK, any other place answers ERR
(rules R71, R73, R74). -/
def writeByte (o : Word) (b : Byte) (s : State) : State × Resp :=
  match placeOf s.bufCap o with
  | .ibufw i => ({ s with ibuf := Memory.write s.ibuf i b }, .ok)
  | .obufw _ => (s, .ok)
  | .reg _   => (s, .err)
  | .freqw _ => (s, .err)
  | .nodew _ => (s, .err)
  | .codew _ => (s, .err)
  | .unmapped => (s, .err)

/-- An access while BUSY = 0. -/
def idleAccess (a : Access) (s : State) : State × Response :=
  match a with
  | .read4 o =>
    match readWord s o with
    | some w => (s, okWord w)
    | none => (s, errResponse a)
  | .read1 o =>
    match readByte s o with
    | some b => (s, okByte b)
    | none => (s, errResponse a)
  | .write4 o v => ((writeWord o v s).1, ⟨(writeWord o v s).2, .none⟩)
  | .write1 o b => ((writeByte o b s).1, ⟨(writeByte o b s).2, .none⟩)

/-- An access while BUSY = 1: a size-4 read of STATUS is served, everything else answers ERR and changes
nothing (rule R75). -/
def busyAccess (a : Access) (s : State) : State × Response :=
  match a with
  | .read4 o => if o = regOffset .status then (s, okWord (statusWord s)) else (s, errResponse a)
  | .read1 _ => (s, errResponse a)
  | .write4 _ _ => (s, errResponse a)
  | .write1 _ _ => (s, errResponse a)

/-- One access of the host port: the state it leaves and the answer (rule R72). -/
def portAccess (a : Access) (s : State) : State × Response :=
  if s.busy then busyAccess a s else idleAccess a s

/-- A host turn: the access, and its answer in `lastResp` (log entry 6). -/
def hostTurn (a : Access) (s : State) : State :=
  { (portAccess a s).1 with lastResp := some (portAccess a s).2 }

end Sys2Proof.Machine
end

