-- ==== Sys2Proof/Machine/Engine.lean ====
section
/-! DEFINITION. The turns of HCE: the engine step, the host's access, the reset edge (rules R85, R87, R92,
R300 to R302; log entries 3, 5, 7). -/

namespace Sys2Proof.Machine

/-- The engine step on the latched word: the command it decodes to, or IllegalCommand, which is decided
from the word alone (rules R87, R106, R107, R272). -/
def engineStep (s : State) : Host.Outcome State Fault Refusal :=
  match decode s.cmdr with
  | .ok i => exec i s
  | .error _ => illegalCommand s

/-- The engine's turn: it has a step exactly when BUSY = 1 (rule R87). -/
def engineTurn (s : State) : Host.Outcome State Fault Refusal :=
  if s.busy then engineStep s else .next s

/-- A rising clock edge with `rst` = 1: the reset state with free buffers, whatever HCE was doing
(rules R300, R301, R302; log entry 3). -/
def rstEdge (s : State) : State :=
  State.resetWith s.bufCap (freeIbuf s.freeTick s.bufCap) (freeObuf s.freeTick s.bufCap) s.inputs
    (s.freeTick + 1)

/-- One step: the first turn listed; with none listed the engine's turn (log entry 5). -/
def advance (s : State) : Host.Outcome State Fault Refusal :=
  match s.inputs with
  | [] => engineTurn s
  | .engine :: rest => engineTurn { s with inputs := rest }
  | .access a :: rest => .next (hostTurn a { s with inputs := rest })
  | .rst :: rest => .next (rstEdge { s with inputs := rest })

/-- The state an accepted write of the word leaves, with the engine's turn listed first (log entry 7). -/
def placeCommand (w : Word) (s : State) : State :=
  { acceptCommand w s with inputs := .engine :: s.inputs }

end Sys2Proof.Machine
end

