-- ==== Sys2Proof/Machine/Step.lean ====
section
/-! DEFINITION. The machine's step, and how a word is placed so that the next step runs it. -/

namespace Sys2Proof.Machine

/-- One step of HCE: one turn (log entry 5). -/
def step (s : State) : Host.Outcome State Fault Refusal := advance s

/-- `s` with the command word latched, so that the next step runs exactly it (log entry 7). -/
def State.withFetchWord (s : State) (nbits w : Nat) : State := placeCommand (tableWord nbits w) s

end Sys2Proof.Machine
end

