-- ==== Sys2Proof/Machine/Script.lean ====
section
/-! DEFINITION. The host-script notation as data, and the turns a script stands for (rules R109 to R114;
log entry 12). -/

namespace Sys2Proof.Machine

/-- An operand of a statement: a register, a buffer byte or a table word (rule R110). -/
inductive ScriptOperand where
  | reg      (r : Reg)
  | ibuf     (n : Nat)
  | obuf     (n : Nat)
  | freqWord (s : Byte)
  | nodeFreq (i : Nat)
  | nodeLink (i : Nat)
  | codeWord (s : Byte) (w : Nat)
  deriving DecidableEq, Repr

/-- The offset an operand stands for (rules R23, R44, R47, R53, R71). -/
def ScriptOperand.offset : ScriptOperand → Word
  | .reg r        => regOffset r
  | .ibuf n       => BitVec.ofNat 32 (0x40000000 + n)
  | .obuf n       => BitVec.ofNat 32 (0x80000000 + n)
  | .freqWord s   => BitVec.ofNat 32 (0x1000 + 4 * s.toNat)
  | .nodeFreq i   => BitVec.ofNat 32 (0x2000 + 8 * i)
  | .nodeLink i   => BitVec.ofNat 32 (0x2004 + 8 * i)
  | .codeWord s w => BitVec.ofNat 32 (0x4000 + 64 * s.toNat + 4 * w)

/-- A statement: the primitives of rule R111 and the pseudo-statements of rule R112. -/
inductive Stmt where
  | ww   (r : Reg) (v : Word)
  | rw   (o : ScriptOperand)
  | wb   (n : Nat) (v : Byte)
  | rb   (o : ScriptOperand)
  | cmd  (i : Instr)
  | wait (polls : Nat)
  | load (bytes : List Byte)
  | run  (i : Instr) (polls : Nat)
  | dump (n : Nat)
  | ack
  deriving DecidableEq, Repr

/-- A size-4 write of a register. -/
def writeTurn (r : Reg) (v : Word) : Input := .access (.write4 (regOffset r) v)

/-- A size-4 read of an operand. -/
def readTurn (o : ScriptOperand) : Input := .access (.read4 o.offset)

/-- A size-1 read of an operand. -/
def readByteTurn (o : ScriptOperand) : Input := .access (.read1 o.offset)

/-- A size-1 write of IBUF. -/
def writeByteTurn (n : Nat) (v : Byte) : Input := .access (.write1 (ScriptOperand.ibuf n).offset v)

/-- The issue of a command: its word to CMD (rule R111's `cmd`). -/
def cmdTurn (i : Instr) : Input := writeTurn .cmd (encode i)

/-- The polls of a `wait`: reads of STATUS, the engine's turn among them before the last (rule R113). -/
def waitTurns (polls : Nat) : List Input :=
  List.replicate polls (readTurn (.reg .status)) ++ [.engine, readTurn (.reg .status)]

/-- The byte writes of a `load`, from index `n`. -/
def loadTurns : Nat → List Byte → List Input
  | _, [] => []
  | n, b :: bs => writeByteTurn n b :: loadTurns (n + 1) bs

/-- The turns of a statement (rules R111, R112, R113). -/
def Stmt.expand : Stmt → List Input
  | .ww r v     => [writeTurn r v]
  | .rw o       => [readTurn o]
  | .wb n v     => [writeByteTurn n v]
  | .rb o       => [readByteTurn o]
  | .cmd i      => [cmdTurn i]
  | .wait p     => waitTurns p
  | .load bytes => loadTurns 0 bytes ++ [writeTurn .inLen (BitVec.ofNat 32 bytes.length)]
  | .run i p    => cmdTurn i :: waitTurns p
  | .dump n     => readTurn (.reg .outLen) :: (List.range n).map (fun k => readByteTurn (.obuf k))
  | .ack        => [writeTurn .status 0x2#32]

/-- A line: at most one statement, and a comment (rule R109). -/
structure ScriptLine where
  stmt    : Option Stmt
  comment : String
  deriving DecidableEq, Repr

/-- The turns of a script, its lines in order (rules R109, R113). -/
def scriptTurns (lines : List ScriptLine) : List Input :=
  lines.flatMap (fun l => match l.stmt with | some st => st.expand | none => [])

end Sys2Proof.Machine
end

