-- ==== Sys2Proof/Safety.lean ====
section
/-! DEFINITION. The terms claims about HCE are stated in: the invariants the spec gives every state
(rules R8, R25, R33, R43, R46, R52), what a location's being unchanged means (rule R104), tree paths
(rule R180), prefix-freedom (rule R186) and the shortest-match reading of a bit stream (rule R202). -/

namespace Sys2Proof.Machine

/-! ## Invariants -/

/-- BUF_CAP is in its range (rule R8). -/
def CapacityLegal (s : State) : Prop := bufCapWellFormed s.bufCap = true

/-- STATUS is one of the five combinations of rule R25, and BUSY with FAULT only while CLR runs
(rule R282). -/
def StatusLegal (s : State) : Prop :=
  (s.done = true → s.busy = false ∧ s.faulted = false) ∧
  (s.busy = true → s.faulted = true → s.cmdr = encode .clr)

/-- FAULT_CODE is 0 exactly when FAULT = 0, and then FAULT_INFO is 0 (rules R30, R31, R260). -/
def FaultRecordLegal (s : State) : Prop :=
  (s.faultCode = none ↔ s.faulted = false) ∧ (s.faulted = false → s.faultInfo = 0#32)

/-- Both buffers are in canonical form and hold nothing at or above BUF_CAP (rules R55, R56). -/
def BuffersLegal (s : State) : Prop :=
  Memory.wf s.ibuf ∧ Memory.wf s.obuf ∧ Memory.below s.bufCap s.ibuf ∧ Memory.below s.bufCap s.obuf

/-- OUT_LEN is at most BUF_CAP (rule R33). -/
def OutputLegal (s : State) : Prop := s.outLen.toNat ≤ s.bufCap

/-- The sum of the counters of FREQ (rules R43, R153). -/
def freqSum (t : FreqTable) : Nat := (symbols.map (fun s => (freqOf t s).toNat)).sum

/-- How many symbols are present in FREQ: `S` of rule R153. -/
def freqCount (t : FreqTable) : Nat := (symbols.filter (fun s => freqOf t s ≠ 0#32)).length

/-- The invariant of FREQ (rule R43). -/
def FreqLegal (cap : Nat) (t : FreqTable) : Prop := freqSum t ≤ cap

/-- `S`, the number of leaves of a tree of `cnt` entries (rules R35, R46). -/
def leafCount (cnt : NodeIndex) : Nat := (cnt.toNat + 1) / 2

/-- The invariants of NODE, clauses (a) to (e) of rule R46, with the zero fields of rule R45. -/
structure TreeLegal (m : NodeMemory) (cnt : NodeIndex) (valid : Bool) (root : NodeIndex) : Prop where
  /-- (a) -/
  count : (cnt = 0#9 ∧ valid = false ∧ root = 0#9) ∨
    (cnt.toNat = 2 * leafCount cnt - 1 ∧ 1 ≤ leafCount cnt ∧ leafCount cnt ≤ 256 ∧ valid = true ∧
      root.toNat + 1 = cnt.toNat)
  /-- (b), leaves -/
  leaves : ∀ i < leafCount cnt, (nodeAt m i).kind = .leaf ∧ 1 ≤ (nodeAt m i).freq.toNat ∧
    (nodeAt m i).left = 0#9 ∧ (nodeAt m i).right = 0#9
  /-- (b), ascending symbols -/
  ascending : ∀ i j, i < j → j < leafCount cnt → (nodeAt m i).sym.toNat < (nodeAt m j).sym.toNat
  /-- (b) and (c), internal entries -/
  internals : ∀ i, leafCount cnt ≤ i → i < cnt.toNat →
    (nodeAt m i).kind = .internal ∧ (nodeAt m i).sym = 0#8 ∧
    (nodeAt m i).left.toNat < i ∧ (nodeAt m i).right.toNat < i ∧
    (nodeAt m i).left ≠ (nodeAt m i).right ∧
    (nodeAt m i).freq.toNat =
      (nodeAt m (nodeAt m i).left.toNat).freq.toNat + (nodeAt m (nodeAt m i).right.toNat).freq.toNat
  /-- (d) -/
  owned : ∀ i, i + 1 < cnt.toNat →
    ∃ j, (leafCount cnt ≤ j ∧ j < cnt.toNat ∧ ((nodeAt m j).left.toNat = i ∨ (nodeAt m j).right.toNat = i)) ∧
      ∀ k, leafCount cnt ≤ k → k < cnt.toNat →
        (nodeAt m k).left.toNat = i ∨ (nodeAt m k).right.toNat = i → k = j
  /-- (e) -/
  rest : ∀ i, cnt.toNat ≤ i → nodeAt m i = Node.zero

/-- The invariant of CODE: no two present symbols have equal codes (rule R52). -/
def CodesDistinct (t : CodeTable) : Prop :=
  ∀ a b : Byte, codeOf t a ≠ [] → codeOf t a = codeOf t b → a = b

/-- Every LEN is at most MAXLEN (rules R7, R50). -/
def CodeLengthsLegal (t : CodeTable) : Prop := ∀ a : Byte, (codeOf t a).length ≤ Config.maxLen

/-- The tables satisfy rules R43, R46 and R52, which are claimed while no fault is recorded (C11, U2). -/
def TablesLegal (s : State) : Prop :=
  s.faulted = false →
    FreqLegal s.bufCap s.freq ∧ TreeLegal s.node s.nodeCnt s.rootValid s.rootIndex ∧ CodesDistinct s.code

/-- Every invariant the spec gives a state. -/
structure Inv (s : State) : Prop where
  capacity : CapacityLegal s
  status   : StatusLegal s
  fault    : FaultRecordLegal s
  buffers  : BuffersLegal s
  output   : OutputLegal s
  lengths  : CodeLengthsLegal s.code
  tables   : TablesLegal s

/-! ## Frames -/

/-- A location holds in `t` what it holds in `s`; a buffer, byte by byte (rule R104). -/
def Unchanged (l : Loc) (s t : State) : Prop :=
  match l with
  | .freq      => t.freq = s.freq
  | .node      => t.node = s.node
  | .nodeCnt   => t.nodeCnt = s.nodeCnt
  | .root      => t.rootValid = s.rootValid ∧ t.rootIndex = s.rootIndex
  | .code      => t.code = s.code
  | .bitCnt    => t.bitCnt = s.bitCnt
  | .ibuf      => ∀ a, Memory.read t.ibuf a = Memory.read s.ibuf a
  | .inLen     => t.inLen = s.inLen
  | .obuf      => ∀ a, Memory.read t.obuf a = Memory.read s.obuf a
  | .outLen    => t.outLen = s.outLen
  | .faultCode => t.faultCode = s.faultCode
  | .faultInfo => t.faultInfo = s.faultInfo
  | .faultBit  => t.faulted = s.faulted

/-! ## Trees and codes -/

/-- The bits `p` lead from entry `i` down to entry `j`: 0 to LEFT, 1 to RIGHT (rules R180, R181). -/
inductive TreePath (m : NodeMemory) : Nat → Bits → Nat → Prop where
  | here (i : Nat) : TreePath m i [] i
  | left {i j : Nat} {p : Bits} (h : (nodeAt m i).kind = .internal)
      (rest : TreePath m (nodeAt m i).left.toNat p j) : TreePath m i (false :: p) j
  | right {i j : Nat} {p : Bits} (h : (nodeAt m i).kind = .internal)
      (rest : TreePath m (nodeAt m i).right.toNat p j) : TreePath m i (true :: p) j

/-- `key(i) < key(j)` of rule R160, on numbers. -/
def KeyLess (m : NodeMemory) (i j : Nat) : Prop :=
  (nodeAt m i).freq.toNat < (nodeAt m j).freq.toNat ∨
    ((nodeAt m i).freq.toNat = (nodeAt m j).freq.toNat ∧ i < j)

/-- Entry `j` is in the queue when entry `k` is made: it exists, and no internal entry made before `k`
has it as a child (rules R160, R165); `leaves` is the number of leaves. -/
def QueuedBefore (m : NodeMemory) (leaves k j : Nat) : Prop :=
  j < k ∧ ∀ i, leaves ≤ i → i < k → (nodeAt m i).left.toNat ≠ j ∧ (nodeAt m i).right.toNat ≠ j

/-- No code is a beginning of another symbol's code (rule R186 (c)). -/
def PrefixFree (t : CodeTable) : Prop :=
  ∀ a b : Byte, codeOf t a ≠ [] → codeOf t b ≠ [] → a ≠ b → ¬ codeOf t a <+: codeOf t b

/-- The encoded stream of a byte string (rule R190). -/
def encodedStream (t : CodeTable) (x : List Byte) : Bits := x.flatMap (codeOf t)

/-- Reading `q` by rule R202 emits `x` and leaves `r`: each emitted symbol is the shortest beginning of
what remains that is a code, and no beginning of `r` is a code. -/
inductive ShortestMatches (t : CodeTable) : Bits → List Byte → Bits → Prop where
  | stop {r : Bits} (h : ∀ (a : Bits) (s : Byte), a <+: r → a ≠ [] → codeOf t s ≠ a) :
      ShortestMatches t r [] r
  | emit {s : Byte} {q r : Bits} {x : List Byte} (present : codeOf t s ≠ [])
      (shortest : ∀ (a : Bits) (u : Byte), a <+: codeOf t s → a ≠ [] → codeOf t u = a → a = codeOf t s)
      (rest : ShortestMatches t q x r) : ShortestMatches t (codeOf t s ++ q) (s :: x) r

/-- The code table HCE makes for an input: FREQ, BUILD and GEN, none where GEN would fault
(rule R247). -/
def codesFor (x : List Byte) : Option CodeTable :=
  let w := huffmanForest (countBytes x)
  (generateCodes w.node (BitVec.ofNat 9 w.n) (w.queue.length = 1)
    (BitVec.ofNat 9 (if w.queue.length = 1 then w.queue.headD 0 else 0))).toOption

/-! ## Containers and faults -/

/-- A table entry as a container may hold it: a symbol, a code length, and code bytes whose padding may be
anything (rules R134, R220). -/
structure RawEntry where
  sym   : Byte
  len   : Nat
  bytes : List Byte
  deriving DecidableEq, Repr

/-- codeBitCount is 1 to 255 and codeBytes has `ceil8(codeBitCount)` bytes (rule R220). -/
def RawEntry.legal (e : RawEntry) : Prop := 1 ≤ e.len ∧ e.len ≤ Config.maxLen ∧ e.bytes.length = ceil8 e.len

/-- The code an entry holds (rules R133, R227). -/
def RawEntry.code (e : RawEntry) : Bits := unpackBits e.bytes e.len

/-- The bytes of an entry in the container (rule R215). -/
def RawEntry.raw (e : RawEntry) : List Byte := e.sym :: BitVec.ofNat 8 e.len :: e.bytes

/-- The bytes of a list of entries. -/
def rawTable (es : List RawEntry) : List Byte := es.flatMap RawEntry.raw

/-- Entries that a code table can hold together: legal, no symbol twice, no code twice (rule R228). -/
def EntriesLegal (es : List RawEntry) : Prop :=
  (∀ e ∈ es, e.legal) ∧ (es.map RawEntry.sym).Nodup ∧ (es.map RawEntry.code).Nodup

/-- `c` holds the codes of the entries and no others. -/
def HoldsEntries (c : CodeTable) (es : List RawEntry) : Prop :=
  (∀ e ∈ es, codeOf c e.sym = e.code) ∧ ∀ x : Byte, x ∉ es.map RawEntry.sym → codeOf c x = []

/-- The engine step of command `i` enters the fault `c` with detail `info` (rules R14, R273). -/
def FaultsWith (i : Instr) (s : State) (c : Cause) (info : Nat) (p : Phase) : Prop :=
  exec i s = .next (faultEntry (writeSet i) ⟨c, BitVec.ofNat 32 info, p⟩ s)

end Sys2Proof.Machine
end

