-- ==== Sys2Proof/Certificates/Slice0/Obligations.lean ====
section
/-! DEFINITION. The statements about HCE that the provers settle, one per `def Obligations.<Name>`. -/

open Sys2Proof Sys2Proof.Machine

/-! ## Command words -/

/-- Rule R105, R108: word `w` selects a command exactly when it is that command's word. -/
def Obligations.DecodeExactlyTheCommandWords : Prop :=
  ∀ (w : Word) (i : Instr), decode w = .ok i ↔ w = encode i

/-- Rule R105: words written out from the opcode map, and three words that are no command. -/
def Obligations.OpcodeMapWords : Prop :=
  decode 0x00000000#32 = .ok .nop ∧ decode 0x00000001#32 = .ok .clr ∧
  decode 0x00000002#32 = .ok .freq ∧ decode 0x00000005#32 = .ok .enc ∧
  decode 0x00000008#32 = .ok .deser ∧ decode 0x0000000A#32 = .ok .pack ∧
  decode 0x0000000D#32 = .ok .decompress ∧ decode 0x0000000E#32 = .error .reservedOpcode ∧
  decode 0x00000101#32 = .error .zeroFieldSet ∧ decode 0x80000002#32 = .error .zeroFieldSet

/-- Rules R106, R107: a word is illegal exactly when ZERO is not 0, or ZERO is 0 and OPC is 0x0E or above;
the decoder says which. -/
def Obligations.IllegalWordsAreTheReservedOnes : Prop :=
  ∀ w : Word,
    (decode w = .error .zeroFieldSet ↔ w.extractLsb' 8 24 ≠ 0#24) ∧
    (decode w = .error .reservedOpcode ↔
      w.extractLsb' 8 24 = 0#24 ∧ 0x0E ≤ (w.extractLsb' 0 8).toNat)

/-! ## Steps -/

/-- Rule R87: while BUSY = 1 the engine's turn runs the command that CMDR decodes to. Which turn comes
next is the model's choice of log entry 5. -/
def Obligations.StepRunsTheLatchedCommand : Prop :=
  ∀ (s : State) (i : Instr), s.busy = true → decode s.cmdr = .ok i →
    (s.inputs = [] → step s = exec i s) ∧
    (∀ rest, s.inputs = .engine :: rest → step s = exec i { s with inputs := rest })

/-- Log entry 5 (the model's choice) with rules R85, R87, R300: the first listed turn is taken; an idle
HCE with no turn listed stays as it is. -/
def Obligations.StepTakesTheFirstTurn : Prop :=
  ∀ (s : State) (rest : List Input),
    (∀ a, s.inputs = .access a :: rest → step s = .next (hostTurn a { s with inputs := rest })) ∧
    (s.inputs = .rst :: rest → step s = .next (rstEdge { s with inputs := rest })) ∧
    (s.busy = false → s.inputs = .engine :: rest → step s = .next { s with inputs := rest }) ∧
    (s.busy = false → s.inputs = [] → step s = .next s)

/-- Log entry 7 (the model's choice): after `withFetchWord` the very next step runs the word, from the
state that its acceptance leaves (rule R101). -/
def Obligations.PlacedWordRunsNext : Prop :=
  ∀ (s : State) (w : Nat) (i : Instr), w < 2 ^ 32 → decode (BitVec.ofNat 32 w) = .ok i →
    step (s.withFetchWord 32 w) =
      exec i { s with cmdr := BitVec.ofNat 32 w, busy := true, done := false }

/-- Rules R268, R272: the engine's turn on an illegal latched word records IllegalCommand, cause 8, with the
word, whatever IN_LEN is, and changes nothing else. That the engine's turn comes next when no turn is listed
is the model's choice of log entry 5. -/
def Obligations.IllegalWordFaults : Prop :=
  causeNumber .illegalCommand = 8#4 ∧
  ∀ (s : State) (e : Illegal), s.busy = true → decode s.cmdr = .error e →
    (s.inputs = [] → step s = .next { s with
      busy := false, done := false, faulted := true,
      faultCode := some .illegalCommand, faultInfo := s.cmdr }) ∧
    (∀ rest, s.inputs = .engine :: rest → step s = .next { s with
      busy := false, done := false, faulted := true,
      faultCode := some .illegalCommand, faultInfo := s.cmdr, inputs := rest })

/-- Rule R92 and log entry 10: no step stops the machine. -/
def Obligations.StepAlwaysAnswersNext : Prop := ∀ s : State, ∃ t, step s = .next t

/-! ## Frames -/

/-- Rules R87, R104, R273, R274: a command ends with BUSY = 0, completed or faulted; it leaves CMDR, CTRL,
CAP and every location outside its write set as they were, but for the fault registers of a fault. -/
def Obligations.CommandChangesOnlyItsWriteSet : Prop :=
  ∀ (i : Instr) (s t : State), exec i s = .next t →
    t.busy = false ∧ t.cmdr = s.cmdr ∧ t.bufCap = s.bufCap ∧ t.ieDone = s.ieDone ∧
    t.ieFault = s.ieFault ∧ t.inputs = s.inputs ∧ t.lastResp = s.lastResp ∧
    (t.done = true ∨ (t.done = false ∧ t.faulted = true ∧ t.faultCode ≠ none)) ∧
    (∀ l, l ∉ writeSet i → l ≠ .faultCode → l ≠ .faultInfo → l ≠ .faultBit → Unchanged l s t) ∧
    (t.done = true → ∀ l, l ∉ writeSet i → Unchanged l s t)

/-- Rule R57: the commands that only write OBUF leave every byte of it at and above the new OUT_LEN, and
every byte of IBUF, as it was. The capacity is in its range (rule R8), a clause of `Inv`. -/
def Obligations.OutputCommandsKeepTheRestOfObuf : Prop :=
  ∀ (i : Instr) (s t : State), i ∈ [Instr.enc, .dec, .ser, .deser, .pack, .unpack] → CapacityLegal s →
    Memory.wf s.obuf → exec i s = .next t → t.done = true →
    (∀ a, t.outLen.toNat ≤ a → Memory.read t.obuf a = Memory.read s.obuf a) ∧ t.ibuf = s.ibuf

/-- Rules R244, R247, R249: a completed composite leaves, beyond the new IN_LEN and OUT_LEN, the bytes the
other buffer held before, since it exchanges the buffers once. -/
def Obligations.CompositesExchangeTheRestOfTheBuffers : Prop :=
  ∀ (i : Instr) (s t : State), i ∈ [Instr.compress, .decompress] → Memory.wf s.ibuf → Memory.wf s.obuf →
    exec i s = .next t → t.done = true →
    (∀ a, t.outLen.toNat ≤ a → Memory.read t.obuf a = Memory.read s.ibuf a) ∧
    (∀ a, t.inLen.toNat ≤ a → Memory.read t.ibuf a = Memory.read s.obuf a)

/-! ## Fault entry and the checks that raise -/

/-- Rules R273, R274: what fault entry records and what it does to the write set. -/
def Obligations.FaultEntryRecordsTheFault : Prop :=
  ∀ (ws : List Loc) (c : Cause) (info : Word) (s : State),
    faultEntry ws ⟨c, info, .early⟩ s =
      { s with
        busy := false, done := false, faulted := true, faultCode := some c, faultInfo := info,
        outLen := if .outLen ∈ ws then 0#32 else s.outLen } ∧
    ∀ t, t = faultEntry ws ⟨c, info, .late⟩ s →
      t.busy = false ∧ t.done = false ∧ t.faulted = true ∧ t.faultCode = some c ∧ t.faultInfo = info ∧
      t.cmdr = s.cmdr ∧ t.ieDone = s.ieDone ∧ t.ieFault = s.ieFault ∧ t.bufCap = s.bufCap ∧
      (.outLen ∈ ws → t.outLen = 0#32) ∧ (.bitCnt ∈ ws → t.bitCnt = 0#32) ∧
      ∀ l, l ∉ ws → l ≠ .faultCode → l ≠ .faultInfo → l ≠ .faultBit → Unchanged l s t

/-- Rules R150, R269, R274: every command that reads IBUF, and SWAP, raises CapacityExceeded(IN_LEN) first
when IN_LEN > BUF_CAP, having written nothing; OUT_LEN becomes 0 but for FREQ. -/
def Obligations.CheckInFaultsFirst : Prop :=
  ∀ (i : Instr) (s : State),
    i ∈ [Instr.freq, .enc, .dec, .ser, .deser, .swap, .pack, .unpack, .compress, .decompress] →
    s.bufCap < s.inLen.toNat →
    exec i s = .next { s with
      busy := false, done := false, faulted := true, faultCode := some .capacityExceeded,
      faultInfo := s.inLen, outLen := if i = .freq then s.outLen else 0#32 }

/-- Rules R264, R265, R271: UNPACK, DEC and SER raise InvalidBitCount(BITCNT) when bit 31 of BITCNT is set,
else TruncatedInput(0) when IBUF holds too few bytes, before any write. -/
def Obligations.PayloadChecksFault : Prop :=
  ∀ (i : Instr) (s : State), i ∈ [Instr.unpack, .dec, .ser] → s.inLen.toNat ≤ s.bufCap →
    (2 ^ 31 ≤ s.bitCnt.toNat →
      exec i s = .next { s with
        busy := false, done := false, faulted := true, faultCode := some .invalidBitCount,
        faultInfo := s.bitCnt, outLen := 0#32 }) ∧
    (s.bitCnt.toNat < 2 ^ 31 → s.inLen.toNat < ceil8 s.bitCnt.toNat →
      exec i s = .next { s with
        busy := false, done := false, faulted := true, faultCode := some .truncatedInput,
        faultInfo := 0#32, outLen := 0#32 })

/-- Rules R139, R222, R269: UNPACK raises CapacityExceeded(BITCNT) and SER CapacityExceeded(size needed)
when the output does not fit OBUF, before any write. -/
def Obligations.OutputCapacityFaults : Prop :=
  ∀ s : State, s.inLen.toNat ≤ s.bufCap → s.bitCnt.toNat < 2 ^ 31 → ceil8 s.bitCnt.toNat ≤ s.inLen.toNat →
    (s.bufCap < s.bitCnt.toNat →
      exec .unpack s = .next { s with
        busy := false, done := false, faulted := true, faultCode := some .capacityExceeded,
        faultInfo := s.bitCnt, outLen := 0#32 }) ∧
    (s.bufCap < 4 + ceil8 s.bitCnt.toNat + tableSize s.code →
      exec .ser s = .next { s with
        busy := false, done := false, faulted := true, faultCode := some .capacityExceeded,
        faultInfo := BitVec.ofNat 32 (4 + ceil8 s.bitCnt.toNat + tableSize s.code), outLen := 0#32 })

/-- Rules R218, R227, R264: DESER's faults before any write, in their order: a header that is incomplete, a
negative bit count, a payload that is incomplete. -/
def Obligations.DeserEarlyFaults : Prop :=
  ∀ (s : State) (w : Nat), s.inLen.toNat ≤ s.bufCap →
    w = (Memory.read s.ibuf 0).toNat * 2 ^ 24 + (Memory.read s.ibuf 1).toNat * 2 ^ 16 +
      (Memory.read s.ibuf 2).toNat * 2 ^ 8 + (Memory.read s.ibuf 3).toNat →
    (s.inLen.toNat < 4 →
      exec .deser s = .next { s with
        busy := false, done := false, faulted := true, faultCode := some .truncatedInput,
        faultInfo := 0#32, outLen := 0#32 }) ∧
    (4 ≤ s.inLen.toNat → 2 ^ 31 ≤ w →
      exec .deser s = .next { s with
        busy := false, done := false, faulted := true, faultCode := some .invalidBitCount,
        faultInfo := BitVec.ofNat 32 w, outLen := 0#32 }) ∧
    (4 ≤ s.inLen.toNat → w < 2 ^ 31 → s.inLen.toNat < 4 + ceil8 w →
      exec .deser s = .next { s with
        busy := false, done := false, faulted := true, faultCode := some .truncatedInput,
        faultInfo := 4#32, outLen := 0#32 })

/-! ## NOP, CLR, SWAP -/

/-- Rule R240: NOP does nothing but complete; it is accepted like any command, and refused while
FAULT = 1. -/
def Obligations.NopOnlyCompletes : Prop :=
  decode 0x00000000#32 = .ok .nop ∧
  (∀ s : State, exec .nop s = .next { s with busy := false, done := true }) ∧
  (∀ s : State, s.faulted = false → issueCommand 0x00000000#32 s =
    ({ s with cmdr := 0x00000000#32, busy := true, done := false }, .ok)) ∧
  (∀ s : State, s.faulted = true → issueCommand 0x00000000#32 s = (s, .err))

/-- Rule R242: CLR empties the tables, clears the recorded fault, BITCNT and OUT_LEN, keeps IBUF, IN_LEN,
OBUF's bytes and CTRL, cannot fault, and is accepted while FAULT = 1. -/
def Obligations.ClrClearsTablesAndFault : Prop :=
  decode 0x00000001#32 = .ok .clr ∧
  (∀ s : State, ∃ (f : FreqTable) (m : NodeMemory) (c : CodeTable),
    exec .clr s = .next { s with
      busy := false, done := true, faulted := false, faultCode := none, faultInfo := 0#32,
      outLen := 0#32, bitCnt := 0#32, nodeCnt := 0#9, rootValid := false, rootIndex := 0#9,
      freq := f, node := m, code := c } ∧
    (∀ x, freqOf f x = 0#32) ∧ (∀ i, nodeAt m i = Node.zero) ∧ (∀ x, codeOf c x = [])) ∧
  (∀ s : State, s.faulted = true → (issueCommand 0x00000001#32 s).2 = .ok)

/-- Rule R244: SWAP exchanges the buffers and their lengths, twice restores them, and raises
CapacityExceeded(IN_LEN) before anything is exchanged. -/
def Obligations.SwapExchangesTheBuffers : Prop :=
  decode 0x00000009#32 = .ok .swap ∧
  ∀ s : State,
    (s.inLen.toNat ≤ s.bufCap → exec .swap s = .next { s with
      busy := false, done := true, ibuf := s.obuf, obuf := s.ibuf, inLen := s.outLen, outLen := s.inLen }) ∧
    (s.inLen.toNat ≤ s.bufCap → s.outLen.toNat ≤ s.bufCap →
      ∀ t u, exec .swap s = .next t → exec .swap t = .next u → u = { s with busy := false, done := true }) ∧
    (s.bufCap < s.inLen.toNat → exec .swap s = .next { s with
      busy := false, done := false, faulted := true, faultCode := some .capacityExceeded,
      faultInfo := s.inLen, outLen := 0#32 })

/-! ## FREQ, BUILD, GEN -/

/-- Rules R151, R152, R153: FREQ sets every counter to the number of occurrences in the input and changes
nothing else; the counters sum to IN_LEN, and `S` is within its bounds. -/
def Obligations.FreqCountsTheInput : Prop :=
  ∀ s : State, CapacityLegal s → s.inLen.toNat ≤ s.bufCap →
    ∃ f : FreqTable, exec .freq s = .next { s with busy := false, done := true, freq := f } ∧
      (∀ x, (freqOf f x).toNat = (inputBytes s).count x) ∧
      freqSum f = s.inLen.toNat ∧
      (s.inLen.toNat = 0 → freqCount f = 0) ∧
      (0 < s.inLen.toNat → 1 ≤ freqCount f ∧ freqCount f ≤ min 256 s.inLen.toNat)

/-- Rules R165, R166, R167, R168, R169: BUILD completes for every FREQ and writes only NODE, NODE_CNT and
ROOT; with sums below 2^32 the tree satisfies rule R46, its leaves are the present symbols with their
counts, and the root's FREQ is the sum of FREQ. -/
def Obligations.BuildMakesTheTree : Prop :=
  ∀ s : State, ∃ (m : NodeMemory) (n r : NodeIndex) (v : Bool),
    exec .build s = .next { s with
      busy := false, done := true, node := m, nodeCnt := n, rootValid := v, rootIndex := r } ∧
    leafCount n = freqCount s.freq ∧
    (freqSum s.freq < 2 ^ 32 →
      TreeLegal m n v r ∧
      (∀ i < leafCount n, (nodeAt m i).freq = freqOf s.freq (nodeAt m i).sym) ∧
      (∀ x, freqOf s.freq x ≠ 0#32 → ∃ i < leafCount n, (nodeAt m i).sym = x) ∧
      (v = true → (nodeAt m r.toNat).freq.toNat = freqSum s.freq))

/-- Rules R160, R161, R163, R164: every internal entry takes as LEFT the member of the queue with the least
key, by frequency and then by index, and as RIGHT the one with the next least. -/
def Obligations.BuildMergesTheTwoLeastKeys : Prop :=
  ∀ (s t : State) (k l r : Nat), exec .build s = .next t → leafCount t.nodeCnt ≤ k → k < t.nodeCnt.toNat →
    l = (nodeAt t.node k).left.toNat → r = (nodeAt t.node k).right.toNat →
    (nodeAt t.node k).kind = .internal ∧
    QueuedBefore t.node (leafCount t.nodeCnt) k l ∧ QueuedBefore t.node (leafCount t.nodeCnt) k r ∧
    KeyLess t.node l r ∧
    ∀ j, QueuedBefore t.node (leafCount t.nodeCnt) k j → j ≠ l → j ≠ r → KeyLess t.node r j

/-- Rule R171: BUILD is a function of FREQ alone. -/
def Obligations.BuildDependsOnFreqAlone : Prop :=
  ∀ s s' t t' : State, s.freq = s'.freq → exec .build s = .next t → exec .build s' = .next t' →
    t.node = t'.node ∧ t.nodeCnt = t'.nodeCnt ∧ t.rootValid = t'.rootValid ∧ t.rootIndex = t'.rootIndex

/-- Rules R180 to R184, R186 (a), (b): on a legal tree GEN completes and writes only CODE: no code without a
tree, the one-bit code 0 for a lone leaf, else for exactly the leaves' symbols the path from the root. -/
def Obligations.GenReadsCodesOffTheTree : Prop :=
  ∀ s : State, TreeLegal s.node s.nodeCnt s.rootValid s.rootIndex →
    ∃ c : CodeTable, exec .gen s = .next { s with busy := false, done := true, code := c } ∧
      CodeLengthsLegal c ∧
      (s.rootValid = false → ∀ x, codeOf c x = []) ∧
      (leafCount s.nodeCnt = 1 → ∀ x, codeOf c x = if x = (nodeAt s.node 0).sym then [false] else []) ∧
      (2 ≤ leafCount s.nodeCnt →
        (∀ x, codeOf c x ≠ [] ↔ ∃ i < leafCount s.nodeCnt, (nodeAt s.node i).sym = x) ∧
        ∀ i < leafCount s.nodeCnt,
          TreePath s.node s.rootIndex.toNat (codeOf c (nodeAt s.node i).sym) i)

/-- Rule R186 (c), (d), (e): the codes GEN makes are distinct and prefix-free, and with two leaves or more
every infinite bit string begins with one of them. -/
def Obligations.GenCodesAreCompleteAndPrefixFree : Prop :=
  ∀ s t : State, TreeLegal s.node s.nodeCnt s.rootValid s.rootIndex → exec .gen s = .next t →
    PrefixFree t.code ∧ CodesDistinct t.code ∧
    (2 ≤ leafCount s.nodeCnt → ∀ f : Nat → Bool, ∃ x : Byte, codeOf t.code x ≠ [] ∧
      ∀ k < (codeOf t.code x).length, bitAt (codeOf t.code x) k = f k)

/-- Rules R183, R261: GEN's check of ROOT.INDEX and of the root's children raises InvalidTreeState with the
root's index. -/
def Obligations.GenFaultsOnABadRoot : Prop :=
  ∀ (s : State) (r : Nat) (n : Node), s.rootValid = true → r = s.rootIndex.toNat → n = nodeAt s.node r →
    (s.nodeCnt.toNat ≤ r → FaultsWith .gen s .invalidTreeState r .late) ∧
    (r < s.nodeCnt.toNat → n.kind = .internal →
      r ≤ n.left.toNat ∨ r ≤ n.right.toNat ∨ n.left = n.right →
      FaultsWith .gen s .invalidTreeState r .late)

/-! ## The bit packer -/

/-- Rule R131: `pack(q)` has `ceil8(B)` bytes, and byte j is the weighted sum of elements 8j to 8j + 7, with
zeros beyond the end. Rule R141: the streaming packer has emitted the whole bytes and counts the bits of the
partial one as the sequence arrives, and ends with `pack(q)` emitted and a partial byte of 0 bits. -/
def Obligations.PackIsTheWeightedSum : Prop :=
  ∀ q : Bits, (packBits q).length = ceil8 q.length ∧
    (∀ j < ceil8 q.length, ((packBits q).getD j 0#8).toNat =
      ((List.range 8).map (fun k => (bitAt q (8 * j + k)).toNat * 2 ^ (7 - k))).sum) ∧
    (q.foldl Packer.push Packer.start).emitted = (packBits q).take (q.length / 8) ∧
    (q.foldl Packer.push Packer.start).count.toNat = q.length % 8 ∧
    (streamPack q).emitted = packBits q ∧ (streamPack q).count = 0#3

/-- Rule R135: unpacking a packed sequence gives it back, and packing an unpacked byte string gives it back
exactly when it has `ceil8(B)` bytes and zero padding. -/
def Obligations.PackAndUnpackAreInverse : Prop :=
  (∀ q : Bits, unpackBits (packBits q) q.length = q) ∧
  ∀ (y : List Byte) (b : Nat), packBits (unpackBits y b) = y ↔
    y.length = ceil8 b ∧
      ∀ i, b ≤ i → i < 8 * ceil8 b → (y.getD (i / 8) 0#8).getLsbD (7 - i % 8) = false

/-- Rule R136: PACK packs bit 0 of every input byte, most significant bit first, zero-filled, and sets
OUT_LEN and BITCNT; the rest of OBUF and everything else is unchanged. -/
def Obligations.PackCommandPacksBitZero : Prop :=
  ∀ s : State, Memory.wf s.obuf → s.inLen.toNat ≤ s.bufCap →
    ∃ m : Memory, exec .pack s = .next { s with
        busy := false, done := true, obuf := m,
        outLen := BitVec.ofNat 32 (ceil8 s.inLen.toNat), bitCnt := s.inLen } ∧
      (∀ j k, j < ceil8 s.inLen.toNat → k < 8 →
        (Memory.read m j).getLsbD (7 - k) =
          (decide (8 * j + k < s.inLen.toNat) && (Memory.read s.ibuf (8 * j + k)).getLsbD 0)) ∧
      ∀ a, ceil8 s.inLen.toNat ≤ a → Memory.read m a = Memory.read s.obuf a

/-- Rule R139: UNPACK writes BITCNT bytes 0x00 or 0x01, the bits of the input most significant first; the
rest of OBUF and everything else is unchanged. -/
def Obligations.UnpackCommandSpreadsTheBits : Prop :=
  ∀ s : State, Memory.wf s.obuf → s.inLen.toNat ≤ s.bufCap → s.bitCnt.toNat < 2 ^ 31 →
    ceil8 s.bitCnt.toNat ≤ s.inLen.toNat → s.bitCnt.toNat ≤ s.bufCap →
    ∃ m : Memory, exec .unpack s = .next { s with
        busy := false, done := true, obuf := m, outLen := s.bitCnt } ∧
      (∀ i < s.bitCnt.toNat, Memory.read m i =
        if (Memory.read s.ibuf (i / 8)).getLsbD (7 - i % 8) then 0x01#8 else 0x00#8) ∧
      ∀ a, s.bitCnt.toNat ≤ a → Memory.read m a = Memory.read s.obuf a

/-- Rule R140: PACK, SWAP, UNPACK completes and leaves in OBUF bit 0 of every byte that was in IBUF; PACK
sets BITCNT and OUT_LEN, and SWAP moves the packed bytes to IBUF. -/
def Obligations.PackSwapUnpackRoundTrip : Prop :=
  ∀ s : State, CapacityLegal s → BuffersLegal s → s.inLen.toNat ≤ s.bufCap →
    ∃ t u v : State, exec .pack s = .next t ∧ exec .swap t = .next u ∧ exec .unpack u = .next v ∧
      t.done = true ∧ u.done = true ∧ v.done = true ∧
      t.bitCnt = s.inLen ∧ t.outLen.toNat = ceil8 s.inLen.toNat ∧
      u.ibuf = t.obuf ∧ u.inLen.toNat = ceil8 s.inLen.toNat ∧
      v.outLen = s.inLen ∧
      ∀ i < s.inLen.toNat, Memory.read v.obuf i = Memory.read s.ibuf i &&& 0x01#8

/-! ## The encoder and the decoder -/

/-- Rules R190, R192: when every input byte has a code and the stream fits, ENC completes with the packed
concatenation of the codes, its length in BITCNT and its bytes in OUT_LEN; all else is unchanged. -/
def Obligations.EncPacksTheCodes : Prop :=
  ∀ (s : State) (e : Bits), Memory.wf s.obuf → s.inLen.toNat ≤ s.bufCap →
    (∀ x ∈ inputBytes s, codeOf s.code x ≠ []) → e = encodedStream s.code (inputBytes s) →
    e.length ≤ Config.bitCntMax → ceil8 e.length ≤ s.bufCap →
    ∃ m : Memory, exec .enc s = .next { s with
        busy := false, done := true, obuf := m,
        outLen := BitVec.ofNat 32 (ceil8 e.length), bitCnt := BitVec.ofNat 32 e.length } ∧
      (∀ j k, j < ceil8 e.length → k < 8 → (Memory.read m j).getLsbD (7 - k) = bitAt e (8 * j + k)) ∧
      ∀ a, ceil8 e.length ≤ a → Memory.read m a = Memory.read s.obuf a

/-- Rules R192, R263, R267, R269: ENC's three faults at the first input index where one applies, in their
order at that index, with the index as detail. -/
def Obligations.EncFaultsAtTheFirstBadByte : Prop :=
  ∀ (s : State) (p : List Byte) (x : Byte) (rest : List Byte),
    s.inLen.toNat ≤ s.bufCap → inputBytes s = p ++ x :: rest →
    (∀ y ∈ p, codeOf s.code y ≠ []) → (encodedStream s.code p).length ≤ Config.bitCntMax →
    ceil8 (encodedStream s.code p).length ≤ s.bufCap →
    (codeOf s.code x = [] → FaultsWith .enc s .missingCodeForSymbol p.length .late) ∧
    (codeOf s.code x ≠ [] → Config.bitCntMax < (encodedStream s.code (p ++ [x])).length →
      FaultsWith .enc s .lengthOverflow p.length .late) ∧
    (codeOf s.code x ≠ [] → (encodedStream s.code (p ++ [x])).length ≤ Config.bitCntMax →
      s.bufCap < ceil8 (encodedStream s.code (p ++ [x])).length →
      FaultsWith .enc s .capacityExceeded p.length .late)

/-- Rules R200 to R203: when the shortest-match reading of the BITCNT stream bits is exhausted with nothing
left over and fits OBUF, DEC completes with the emitted bytes; all else is unchanged. -/
def Obligations.DecEmitsTheShortestMatches : Prop :=
  ∀ (s : State) (x : List Byte), Memory.wf s.obuf → CodesDistinct s.code → s.inLen.toNat ≤ s.bufCap →
    s.bitCnt.toNat < 2 ^ 31 → ceil8 s.bitCnt.toNat ≤ s.inLen.toNat →
    ShortestMatches s.code (unpackBits (inputBytes s) s.bitCnt.toNat) x [] → x.length ≤ s.bufCap →
    ∃ m : Memory, exec .dec s = .next { s with
        busy := false, done := true, obuf := m, outLen := BitVec.ofNat 32 x.length } ∧
      Memory.readBytes m 0 x.length = x ∧
      ∀ a, x.length ≤ a → Memory.read m a = Memory.read s.obuf a

/-- Rules R203, R206, R262, R269: DEC's two faults in its loop: what is left over at the end, with the index
of its first bit, and a full OBUF, with the index of the bit that completes the symbol with no room. -/
def Obligations.DecFaultsInItsLoop : Prop :=
  ∀ (s : State) (x : List Byte) (r : Bits), CodesDistinct s.code → s.inLen.toNat ≤ s.bufCap →
    s.bitCnt.toNat < 2 ^ 31 → ceil8 s.bitCnt.toNat ≤ s.inLen.toNat →
    ShortestMatches s.code (unpackBits (inputBytes s) s.bitCnt.toNat) x r →
    (x.length ≤ s.bufCap → r ≠ [] →
      FaultsWith .dec s .unmatchedBitSequence (s.bitCnt.toNat - r.length) .late) ∧
    (s.bufCap < x.length →
      FaultsWith .dec s .capacityExceeded
        ((encodedStream s.code (x.take (s.bufCap + 1))).length - 1) .late)

/-- Rule R205: the walk over the trie of the present codes emits the same bytes and raises the same fault
as the accumulator with its reverse lookup, for every code table and stream. -/
def Obligations.TrieWalkDecodesAlike : Prop :=
  ∀ (c : CodeTable) (cap : Nat) (q : Bits),
    trieDecodeFrom c cap 0 0 q (.at []) [] = decodeFrom c cap 0 q [] []

/-- Rule R207: with a prefix-free table, ENC, SWAP, DEC gives the input back. -/
def Obligations.EncSwapDecRoundTrip : Prop :=
  ∀ s t : State, CapacityLegal s → BuffersLegal s → PrefixFree s.code → exec .enc s = .next t →
    t.done = true →
    ∃ u v : State, exec .swap t = .next u ∧ exec .dec u = .next v ∧ u.done = true ∧ v.done = true ∧
      v.outLen = s.inLen ∧ Memory.readBytes v.obuf 0 s.inLen.toNat = inputBytes s

/-! ## The container -/

/-- Rules R77, R216, R222, R223: SER completes with the big-endian bit count, the payload and the table in
ascending symbol order, 4 + P + T bytes; all else is unchanged. -/
def Obligations.SerFramesTheContainer : Prop :=
  ∀ (s : State) (p t : Nat), Memory.wf s.obuf → s.inLen.toNat ≤ s.bufCap → s.bitCnt.toNat < 2 ^ 31 →
    p = ceil8 s.bitCnt.toNat → p ≤ s.inLen.toNat → t = tableSize s.code → 4 + p + t ≤ s.bufCap →
    ∃ m : Memory, exec .ser s = .next { s with
        busy := false, done := true, obuf := m, outLen := BitVec.ofNat 32 (4 + p + t) } ∧
      (∀ k < 4, Memory.read m k = (s.bitCnt >>> (24 - 8 * k)).setWidth 8) ∧
      (∀ j < p, Memory.read m (4 + j) = Memory.read s.ibuf j) ∧
      Memory.readBytes m (4 + p) t = symbols.flatMap (fun x =>
        if codeOf s.code x = [] then []
        else x :: BitVec.ofNat 8 (codeOf s.code x).length :: packBits (codeOf s.code x)) ∧
      ∀ a, 4 + p + t ≤ a → Memory.read m a = Memory.read s.obuf a

/-- Rules R216, R227, R230: DESER of a header, a payload and legal entries in any order completes with the
bit count, the payload and exactly the entries' codes; all else is unchanged. -/
def Obligations.DeserLoadsTheContainer : Prop :=
  ∀ (s : State) (b : Nat) (y : List Byte) (es : List RawEntry), Memory.wf s.obuf →
    s.inLen.toNat ≤ s.bufCap → b < 2 ^ 31 → y.length = ceil8 b → EntriesLegal es →
    inputBytes s = headerBytes b ++ y ++ rawTable es →
    ∃ (c : CodeTable) (m : Memory), exec .deser s = .next { s with
        busy := false, done := true, code := c, bitCnt := BitVec.ofNat 32 b, obuf := m,
        outLen := BitVec.ofNat 32 (ceil8 b) } ∧
      HoldsEntries c es ∧ Memory.readBytes m 0 (ceil8 b) = y ∧
      ∀ a, ceil8 b ≤ a → Memory.read m a = Memory.read s.obuf a

/-- Rules R226, R227, R228, R264, R266: DESER's faults inside its table loop, in their order within an
entry, with the offset of the offending entry: an incomplete entry head, a code length of 0, incomplete
code bytes, a symbol already present, a code already present. -/
def Obligations.DeserFaultsInItsTableLoop : Prop :=
  ∀ (s : State) (b pos : Nat) (y : List Byte) (es : List RawEntry) (tail : List Byte),
    s.inLen.toNat ≤ s.bufCap → b < 2 ^ 31 → y.length = ceil8 b → EntriesLegal es →
    inputBytes s = headerBytes b ++ y ++ rawTable es ++ tail →
    pos = 4 + ceil8 b + (rawTable es).length →
    (tail.length = 1 → FaultsWith .deser s .truncatedInput pos .late) ∧
    (∀ x rest, tail = x :: 0#8 :: rest → FaultsWith .deser s .invalidCodeTable pos .late) ∧
    (∀ x l rest, tail = x :: l :: rest → l ≠ 0#8 → rest.length < ceil8 l.toNat →
      FaultsWith .deser s .truncatedInput pos .late) ∧
    (∀ (e : RawEntry) (rest : List Byte), e.legal → tail = e.raw ++ rest →
      e.sym ∈ es.map RawEntry.sym ∨ e.code ∈ es.map RawEntry.code →
      FaultsWith .deser s .invalidCodeTable pos .late)

/-- Rule R231: SER, SWAP, DESER is the identity on the bit count, the payload and the code table. -/
def Obligations.SerSwapDeserIdentity : Prop :=
  ∀ s t : State, CapacityLegal s → BuffersLegal s → CodesDistinct s.code → CodeLengthsLegal s.code →
    exec .ser s = .next t → t.done = true →
    ∃ u v : State, exec .swap t = .next u ∧ exec .deser u = .next v ∧ u.done = true ∧ v.done = true ∧
      v.bitCnt = s.bitCnt ∧ v.code = s.code ∧ v.outLen.toNat = ceil8 s.bitCnt.toNat ∧
      ∀ j < ceil8 s.bitCnt.toNat, Memory.read v.obuf j = Memory.read s.ibuf j

/-! ## COMPRESS and DECOMPRESS -/

/-- Rules R186 (a), R248: FREQ, BUILD and GEN of an input that fits give a table in which every byte of the
input has a code. -/
def Obligations.EveryInputByteGetsACode : Prop :=
  ∀ x : List Byte, x.length ≤ Config.bufCapMax →
    ∃ c, codesFor x = some c ∧ PrefixFree c ∧ CodeLengthsLegal c ∧ ∀ b, codeOf c b ≠ [] ↔ b ∈ x

/-- Rule R247: when the payload and the container fit, COMPRESS completes with the tables of its input, the
payload in IBUF and the container in OBUF. The tables are those that FREQ, BUILD and GEN leave when they run
one after another on the same input; the leaves of the tree hold the counts of FREQ. -/
def Obligations.CompressMakesTheContainer : Prop :=
  ∀ (s : State) (c : CodeTable) (e : Bits), CapacityLegal s → BuffersLegal s → s.inLen.toNat ≤ s.bufCap →
    codesFor (inputBytes s) = some c → e = encodedStream c (inputBytes s) → e.length ≤ Config.bitCntMax →
    4 + ceil8 e.length + tableSize c ≤ s.bufCap →
    ∃ f b g t : State, exec .freq s = .next f ∧ exec .build f = .next b ∧ exec .gen b = .next g ∧
      f.done = true ∧ b.done = true ∧ g.done = true ∧
      exec .compress s = .next t ∧ t.done = true ∧ t.faulted = s.faulted ∧
      t.freq = g.freq ∧ t.node = g.node ∧ t.nodeCnt = g.nodeCnt ∧ t.rootValid = g.rootValid ∧
      t.rootIndex = g.rootIndex ∧ t.code = g.code ∧
      (∀ x, (freqOf t.freq x).toNat = (inputBytes s).count x) ∧
      TreeLegal t.node t.nodeCnt t.rootValid t.rootIndex ∧
      (∀ i < leafCount t.nodeCnt, (nodeAt t.node i).freq = freqOf t.freq (nodeAt t.node i).sym) ∧
      (∀ x ∈ inputBytes s, ∃ i < leafCount t.nodeCnt, (nodeAt t.node i).sym = x) ∧
      t.code = c ∧ t.bitCnt.toNat = e.length ∧
      t.inLen.toNat = ceil8 e.length ∧ Memory.readBytes t.ibuf 0 (ceil8 e.length) = packBits e ∧
      t.outLen.toNat = 4 + ceil8 e.length + tableSize c ∧
      Memory.readBytes t.obuf 0 t.outLen.toNat = containerBytes e.length (packBits e) c

/-- Rules R247, R248: COMPRESS completes or raises CapacityExceeded or LengthOverflow, nothing else. Rules
R246, R274: the FREQ stage's fault is early; the ENC stage's faults are ENC's own but late; the SER stage's
fault is late, with the size the container needs. -/
def Obligations.CompressFaultsOnlyForSize : Prop :=
  ∀ s : State, CapacityLegal s →
    (∀ t, exec .compress s = .next t →
      t.done = true ∨ t.faultCode = some .capacityExceeded ∨ t.faultCode = some .lengthOverflow) ∧
    (s.bufCap < s.inLen.toNat → FaultsWith .compress s .capacityExceeded s.inLen.toNat .early) ∧
    (∀ (f b g : State) (k : Cause) (info : Nat) (p : Phase), exec .freq s = .next f → f.done = true →
      exec .build f = .next b → exec .gen b = .next g → FaultsWith .enc g k info p →
      FaultsWith .compress s k info .late) ∧
    ∀ (c : CodeTable) (e : Bits), s.inLen.toNat ≤ s.bufCap → codesFor (inputBytes s) = some c →
      e = encodedStream c (inputBytes s) → e.length ≤ Config.bitCntMax → ceil8 e.length ≤ s.bufCap →
      s.bufCap < 4 + ceil8 e.length + tableSize c →
      FaultsWith .compress s .capacityExceeded (4 + ceil8 e.length + tableSize c) .late

/-- Rule R249: DECOMPRESS of a container whose payload reads to the end and fits completes with the bytes
in OBUF, the payload in IBUF and the container's codes and bit count; the tree is untouched. Rules R246,
R274: its DESER stage's faults are DESER's, early and late alike; its DEC stage's two faults are late. -/
def Obligations.DecompressReadsTheContainer : Prop :=
  ∀ s : State,
    (∀ (k : Cause) (info : Nat) (p : Phase), FaultsWith .deser s k info p →
      FaultsWith .decompress s k info p) ∧
    ∀ (b : Nat) (y : List Byte) (es : List RawEntry) (c : CodeTable) (x : List Byte) (r : Bits),
      CapacityLegal s → BuffersLegal s → s.inLen.toNat ≤ s.bufCap → b < 2 ^ 31 →
      y.length = ceil8 b → EntriesLegal es → inputBytes s = headerBytes b ++ y ++ rawTable es →
      HoldsEntries c es → ShortestMatches c (unpackBits y b) x r →
      (r = [] → x.length ≤ s.bufCap →
        ∃ t : State, exec .decompress s = .next t ∧ t.done = true ∧ t.code = c ∧ t.bitCnt.toNat = b ∧
          t.inLen.toNat = ceil8 b ∧ Memory.readBytes t.ibuf 0 (ceil8 b) = y ∧ t.outLen.toNat = x.length ∧
          Memory.readBytes t.obuf 0 x.length = x ∧ t.freq = s.freq ∧ t.node = s.node ∧
          t.nodeCnt = s.nodeCnt ∧ t.rootValid = s.rootValid ∧ t.rootIndex = s.rootIndex) ∧
      (r ≠ [] → x.length ≤ s.bufCap →
        FaultsWith .decompress s .unmatchedBitSequence (b - r.length) .late) ∧
      (s.bufCap < x.length →
        FaultsWith .decompress s .capacityExceeded
          ((encodedStream c (x.take (s.bufCap + 1))).length - 1) .late)

/-- Rule R251: COMPRESS, SWAP, DECOMPRESS gives back every input that COMPRESS completes on. -/
def Obligations.CompressDecompressRoundTrip : Prop :=
  ∀ s t : State, CapacityLegal s → BuffersLegal s → exec .compress s = .next t → t.done = true →
    ∃ u v : State, exec .swap t = .next u ∧ exec .decompress u = .next v ∧ u.done = true ∧
      v.done = true ∧ v.outLen = s.inLen ∧ Memory.readBytes v.obuf 0 s.inLen.toNat = inputBytes s

/-- Rule R305: from the reset state every command is accepted; NOP, CLR, FREQ, BUILD, GEN, ENC, DEC, PACK,
UNPACK and SWAP complete with empty results, SER and COMPRESS with the container 00 00 00 00 or, below
4 bytes of capacity, CapacityExceeded(4), and DESER and DECOMPRESS fault with TruncatedInput(0). -/
def Obligations.CommandsFromReset : Prop :=
  ∀ (s : State) (cap : Nat) (i o : Memory) (q : List Input) (k : Nat), bufCapWellFormed cap = true →
    Memory.wf i → Memory.wf o → s = State.resetWith cap i o q k →
    (∀ j : Instr, (issueCommand (encode j) s).2 = .ok) ∧
    (∀ j ∈ [Instr.nop, .clr, .freq, .build, .gen, .enc, .dec, .pack, .unpack, .swap],
      ∃ t, exec j s = .next t ∧ t.done = true ∧ t.outLen = 0#32 ∧ t.bitCnt = 0#32 ∧
        (∀ x, freqOf t.freq x = 0#32) ∧ t.nodeCnt = 0#9 ∧ t.rootValid = false ∧
        ∀ x, codeOf t.code x = []) ∧
    (4 ≤ cap → ∀ j ∈ [Instr.ser, .compress], ∃ t, exec j s = .next t ∧ t.done = true ∧ t.outLen = 4#32 ∧
      Memory.readBytes t.obuf 0 4 = [0#8, 0#8, 0#8, 0#8]) ∧
    (cap < 4 → ∀ j ∈ [Instr.ser, .compress], ∃ t, exec j s = .next t ∧
      t.faultCode = some .capacityExceeded ∧ t.faultInfo = 4#32) ∧
    (∀ j ∈ [Instr.deser, .decompress], ∃ t, exec j s = .next t ∧ t.faultCode = some .truncatedInput ∧
      t.faultInfo = 0#32)

/-! ## The host port -/

/-- Rule R75: while BUSY = 1 a size-4 read of STATUS answers its three bits, and every other access answers
ERR with data 0; no access changes the state. Rules R25, R282: in a state with legal STATUS the word read is
1, or 5 while CLR runs after a fault. -/
def Obligations.BusyPortServesOnlyStatus : Prop :=
  ∀ s : State, s.busy = true →
    (∃ w : Word, portAccess (.read4 0x00000004#32) s = (s, ⟨.ok, .word w⟩) ∧
      w.toNat = 1 + 2 * s.done.toNat + 4 * s.faulted.toNat ∧
      (StatusLegal s →
        (s.faulted = false → w = 0x00000001#32) ∧
        (s.faulted = true → w = 0x00000005#32 ∧ s.cmdr = 0x00000001#32))) ∧
    (∀ o : Word, o ≠ 0x00000004#32 → portAccess (.read4 o) s = (s, ⟨.err, .word 0#32⟩)) ∧
    (∀ o : Word, portAccess (.read1 o) s = (s, ⟨.err, .byte 0#8⟩)) ∧
    (∀ o v : Word, portAccess (.write4 o v) s = (s, ⟨.err, .none⟩)) ∧
    ∀ (o : Word) (v : Byte), portAccess (.write1 o v) s = (s, ⟨.err, .none⟩)

/-- Rules R101, R102: a word written to CMD is accepted when FAULT = 0 or it is CLR, with exactly CMDR, BUSY
and DONE changed, and is otherwise refused with ERR and no change. -/
def Obligations.CommandAcceptedOrRefused : Prop :=
  ∀ (s : State) (w : Word), s.busy = false →
    (s.faulted = false ∨ w = 0x00000001#32 →
      portAccess (.write4 0x00000000#32 w) s =
        ({ s with cmdr := w, busy := true, done := false }, ⟨.ok, .none⟩)) ∧
    (s.faulted = true → w ≠ 0x00000001#32 →
      portAccess (.write4 0x00000000#32 w) s = (s, ⟨.err, .none⟩))

/-- Rules R72, R73, R74, R80, R84: no read changes the state; a size-4 access that is misaligned or outside
the word windows, and a size-1 access outside the buffer windows, answers ERR and changes nothing. -/
def Obligations.UnservedAccessesChangeNothing : Prop :=
  ∀ (s : State) (o : Word),
    (portAccess (.read1 o) s).1 = s ∧ (portAccess (.read4 o) s).1 = s ∧
    (o.toNat % 4 ≠ 0 ∨
      ¬ (o.toNat < 0x40 ∨ (0x1000 ≤ o.toNat ∧ o.toNat < 0x1400) ∨
        (0x2000 ≤ o.toNat ∧ o.toNat < 0x3000) ∨ (0x4000 ≤ o.toNat ∧ o.toNat < 0x8000)) →
      portAccess (.read4 o) s = (s, ⟨.err, .word 0#32⟩) ∧
      ∀ v, portAccess (.write4 o v) s = (s, ⟨.err, .none⟩)) ∧
    (¬ ((0x40000000 ≤ o.toNat ∧ o.toNat < 0x40000000 + s.bufCap) ∨
        (0x80000000 ≤ o.toNat ∧ o.toNat < 0x80000000 + s.bufCap)) →
      portAccess (.read1 o) s = (s, ⟨.err, .byte 0#8⟩) ∧
      ∀ v, portAccess (.write1 o v) s = (s, ⟨.err, .none⟩))

/-- Rules R22 to R39: what a size-4 read at each offset of rule R23 answers while BUSY = 0, with the bit
positions of STATUS, CTRL, NODE_CNT and ROOT, and the nine fault numbers of rule R260. No read changes the
state. -/
def Obligations.RegisterReads : Prop :=
  ∀ s : State, s.busy = false →
    ∃ status ctrl nodeCnt root ncode : Word,
      portAccess (.read4 0x00000000#32) s = (s, ⟨.ok, .word 0#32⟩) ∧
      portAccess (.read4 0x00000004#32) s = (s, ⟨.ok, .word status⟩) ∧
      portAccess (.read4 0x00000008#32) s = (s, ⟨.ok, .word ctrl⟩) ∧
      portAccess (.read4 0x0000000C#32) s = (s, ⟨.ok, .word (match s.faultCode with
        | none                       => 0#32
        | some .invalidTreeState     => 1#32
        | some .unmatchedBitSequence => 2#32
        | some .missingCodeForSymbol => 3#32
        | some .truncatedInput       => 4#32
        | some .invalidBitCount      => 5#32
        | some .invalidCodeTable     => 6#32
        | some .lengthOverflow       => 7#32
        | some .illegalCommand       => 8#32
        | some .capacityExceeded     => 9#32)⟩) ∧
      portAccess (.read4 0x00000010#32) s = (s, ⟨.ok, .word s.faultInfo⟩) ∧
      portAccess (.read4 0x00000014#32) s = (s, ⟨.ok, .word s.inLen⟩) ∧
      portAccess (.read4 0x00000018#32) s = (s, ⟨.ok, .word s.outLen⟩) ∧
      portAccess (.read4 0x0000001C#32) s = (s, ⟨.ok, .word s.bitCnt⟩) ∧
      portAccess (.read4 0x00000020#32) s = (s, ⟨.ok, .word nodeCnt⟩) ∧
      portAccess (.read4 0x00000024#32) s = (s, ⟨.ok, .word root⟩) ∧
      portAccess (.read4 0x00000028#32) s = (s, ⟨.ok, .word ncode⟩) ∧
      portAccess (.read4 0x0000002C#32) s = (s, ⟨.ok, .word s.cmdr⟩) ∧
      portAccess (.read4 0x00000030#32) s = (s, ⟨.ok, .word (BitVec.ofNat 32 s.bufCap)⟩) ∧
      portAccess (.read4 0x00000034#32) s = (s, ⟨.ok, .word 0#32⟩) ∧
      portAccess (.read4 0x00000038#32) s = (s, ⟨.ok, .word 0#32⟩) ∧
      portAccess (.read4 0x0000003C#32) s = (s, ⟨.ok, .word 0#32⟩) ∧
      status.toNat = 2 * s.done.toNat + 4 * s.faulted.toNat ∧
      ctrl.toNat = s.ieDone.toNat + 2 * s.ieFault.toNat ∧
      nodeCnt.toNat = s.nodeCnt.toNat ∧
      root.toNat = s.rootValid.toNat * 2 ^ 31 + s.rootIndex.toNat ∧
      ncode.toNat = (symbols.filter (fun x => codeOf s.code x ≠ [])).length

/-- Rules R25, R29, R32, R34, R39, R40: a size-4 write while BUSY = 0 to STATUS clears DONE where bit 1 is
set, to CTRL stores bits 1:0, to IN_LEN and BITCNT stores the value, and at the offset of any other register but
CMD (FAULT_CODE, FAULT_INFO, OUT_LEN, NODE_CNT, ROOT, NCODE, CMDR, CAP, the reserved words) changes nothing;
each answers OK. -/
def Obligations.RegisterWrites : Prop :=
  ∀ (s : State) (v : Word), s.busy = false →
    portAccess (.write4 0x00000004#32 v) s =
      ({ s with done := if v.getLsbD 1 then false else s.done }, ⟨.ok, .none⟩) ∧
    portAccess (.write4 0x00000008#32 v) s =
      ({ s with ieDone := v.getLsbD 0, ieFault := v.getLsbD 1 }, ⟨.ok, .none⟩) ∧
    portAccess (.write4 0x00000014#32 v) s = ({ s with inLen := v }, ⟨.ok, .none⟩) ∧
    portAccess (.write4 0x0000001C#32 v) s = ({ s with bitCnt := v }, ⟨.ok, .none⟩) ∧
    ∀ o ∈ [0x0000000C#32, 0x00000010#32, 0x00000018#32, 0x00000020#32, 0x00000024#32, 0x00000028#32,
        0x0000002C#32, 0x00000030#32, 0x00000034#32, 0x00000038#32, 0x0000003C#32],
      portAccess (.write4 o v) s = (s, ⟨.ok, .none⟩)

/-- Rules R44, R47, R53: the words of FREQW, NODEW and CODEW while BUSY = 0, and that a write to them is
ignored with OK. -/
def Obligations.TableWindows : Prop :=
  ∀ s : State, s.busy = false →
    (∀ x : Byte, portAccess (.read4 (BitVec.ofNat 32 (0x1000 + 4 * x.toNat))) s =
      (s, ⟨.ok, .word (freqOf s.freq x)⟩)) ∧
    (∀ i < 511, portAccess (.read4 (BitVec.ofNat 32 (0x2000 + 8 * i))) s =
        (s, ⟨.ok, .word (nodeAt s.node i).freq⟩) ∧
      ∃ w : Word, portAccess (.read4 (BitVec.ofNat 32 (0x2004 + 8 * i))) s = (s, ⟨.ok, .word w⟩) ∧
        w.toNat = match (nodeAt s.node i).kind with
          | .leaf => (nodeAt s.node i).sym.toNat
          | .internal =>
            2 ^ 31 + (nodeAt s.node i).left.toNat * 2 ^ 16 + (nodeAt s.node i).right.toNat) ∧
    (portAccess (.read4 0x00002FF8#32) s = (s, ⟨.ok, .word 0#32⟩) ∧
      portAccess (.read4 0x00002FFC#32) s = (s, ⟨.ok, .word 0#32⟩)) ∧
    (∀ (x : Byte) (w : Nat), w < 16 → ∃ v : Word,
      portAccess (.read4 (BitVec.ofNat 32 (0x4000 + 64 * x.toNat + 4 * w))) s = (s, ⟨.ok, .word v⟩) ∧
      (w = 0 → v = BitVec.ofNat 32 (codeOf s.code x).length) ∧
      (1 ≤ w → w ≤ 8 → ∀ k < 32, v.getLsbD (31 - k) = bitAt (codeOf s.code x) (32 * (w - 1) + k)) ∧
      (9 ≤ w → v = 0#32)) ∧
    ∀ (o v : Word), o.toNat % 4 = 0 →
      (0x1000 ≤ o.toNat ∧ o.toNat < 0x1400) ∨ (0x2000 ≤ o.toNat ∧ o.toNat < 0x3000) ∨
        (0x4000 ≤ o.toNat ∧ o.toNat < 0x8000) →
      portAccess (.write4 o v) s = (s, ⟨.ok, .none⟩)

/-- Rule R71: while BUSY = 0 a byte written through IBUFW is stored at its index and at no other, a byte of
either buffer reads through its window, a write through OBUFW is ignored with OK, and the offsets above a
buffer's capacity are unmapped. -/
def Obligations.BufferWindows : Prop :=
  (∀ (s : State) (i : Nat) (b : Byte), CapacityLegal s → Memory.wf s.ibuf → s.busy = false → i < s.bufCap →
    portAccess (.read1 (BitVec.ofNat 32 (0x40000000 + i))) s = (s, ⟨.ok, .byte (Memory.read s.ibuf i)⟩) ∧
    portAccess (.read1 (BitVec.ofNat 32 (0x80000000 + i))) s = (s, ⟨.ok, .byte (Memory.read s.obuf i)⟩) ∧
    portAccess (.write1 (BitVec.ofNat 32 (0x80000000 + i)) b) s = (s, ⟨.ok, .none⟩) ∧
    ∃ m : Memory, portAccess (.write1 (BitVec.ofNat 32 (0x40000000 + i)) b) s =
        ({ s with ibuf := m }, ⟨.ok, .none⟩) ∧
      Memory.read m i = b ∧ ∀ a, a ≠ i → Memory.read m a = Memory.read s.ibuf a) ∧
  ∀ (s : State) (o : Word), CapacityLegal s →
    (0x40000000 + s.bufCap ≤ o.toNat ∧ o.toNat < 0x80000000) ∨ 0x80000000 + s.bufCap ≤ o.toNat →
    placeOf s.bufCap o = .unmapped

/-- Rules R278, R279: the level of `irq`, low after reset and low when both its terms are, its DONE term
falling by a write-1-to-clear, by an accepted command and by the mask. -/
def Obligations.IrqLevel : Prop :=
  (∀ s : State,
    (irq s = true ↔ (s.ieDone = true ∧ s.done = true) ∨ (s.ieFault = true ∧ s.faulted = true)) ∧
    (s.faulted = false →
      (∀ w, irq (acceptCommand w s) = false) ∧ (∀ v, v.getLsbD 1 = true → irq (writeStatus v s) = false) ∧
      (∀ v, v.getLsbD 0 = false → irq (writeCtrl v s) = false)) ∧
    (s.done = false → ∀ v, v.getLsbD 1 = false → irq (writeCtrl v s) = false)) ∧
  ∀ (cap : Nat) (i o : Memory) (q : List Input) (k : Nat), irq (State.resetWith cap i o q k) = false

/-! ## Reset, invariants, whole-machine rules -/

/-- Rules R300, R301, R302: a reset edge, also while BUSY, gives every register and table its reset value.
The buffers' contents are free and kept in canonical form (log entry 3). -/
def Obligations.ResetEdgeGivesTheResetState : Prop :=
  ∀ (s t : State) (rest : List Input), s.inputs = .rst :: rest → step s = .next t →
    t.busy = false ∧ t.done = false ∧ t.faulted = false ∧ t.ieDone = false ∧ t.ieFault = false ∧
    t.faultCode = none ∧ t.faultInfo = 0#32 ∧ t.inLen = 0#32 ∧ t.outLen = 0#32 ∧ t.bitCnt = 0#32 ∧
    t.nodeCnt = 0#9 ∧ t.rootValid = false ∧ t.rootIndex = 0#9 ∧ t.cmdr = 0#32 ∧ t.bufCap = s.bufCap ∧
    (∀ x, freqOf t.freq x = 0#32) ∧ (∀ i, nodeAt t.node i = Node.zero) ∧ (∀ x, codeOf t.code x = []) ∧
    BuffersLegal t ∧ irq t = false

/-- Rule R303: the reset state satisfies every invariant, for every capacity and all buffer contents, and
the state after CLR differs from it in IN_LEN, CTRL, CMDR and DONE alone. So does `State.reset` satisfy
them (its capacity and contents are the model's choice, log entries 1 and 2). -/
def Obligations.ResetStateSatisfiesTheInvariants : Prop :=
  Inv State.reset ∧
  (∀ (cap : Nat) (i o : Memory) (q : List Input) (k : Nat), bufCapWellFormed cap = true →
    Memory.wf i → Memory.wf o → Memory.below cap i → Memory.below cap o →
    Inv (State.resetWith cap i o q k)) ∧
  ∀ s t : State, exec .clr s = .next t →
    { t with inLen := 0#32, ieDone := false, ieFault := false, cmdr := 0#32, done := false } =
      { State.resetWith s.bufCap s.ibuf s.obuf s.inputs s.freeTick with lastResp := s.lastResp }

/-- Rules R25, R30, R33, R43, R46, R52: every step keeps every invariant. -/
def Obligations.StepKeepsTheInvariants : Prop :=
  ∀ s t : State, Inv s → step s = .next t → Inv t

/-- Rules R276, R277: a recorded fault is left only by CLR's engine step or by reset; until then its code
and detail stay as recorded. -/
def Obligations.FaultLeftOnlyByClrOrReset : Prop :=
  ∀ s t : State, StatusLegal s → step s = .next t → s.faulted = true →
    (t.faulted = true ∧ t.faultCode = s.faultCode ∧ t.faultInfo = s.faultInfo) ∨
    (s.busy = true ∧ s.cmdr = 0x00000001#32 ∧ (s.inputs = [] ∨ s.inputs.head? = some .engine)) ∨
    s.inputs.head? = some .rst

/-- Rules R42, R48, R54, R44: only the commands that have a table in their write set, on the engine's turn,
and reset change it; no host access does. That the engine's turn comes next when no turn is listed is the
model's choice of log entry 5. -/
def Obligations.TablesChangeOnlyByTheirCommands : Prop :=
  ∀ s t : State, step s = .next t → s.inputs.head? ≠ some .rst →
    (t.freq ≠ s.freq ∨ t.node ≠ s.node ∨ t.nodeCnt ≠ s.nodeCnt ∨ t.rootValid ≠ s.rootValid ∨
      t.rootIndex ≠ s.rootIndex ∨ t.code ≠ s.code →
      s.busy = true ∧ (s.inputs = [] ∨ s.inputs.head? = some .engine)) ∧
    (t.freq ≠ s.freq → s.cmdr ∈ [encode .freq, encode .compress, encode .clr]) ∧
    (t.node ≠ s.node ∨ t.nodeCnt ≠ s.nodeCnt ∨ t.rootValid ≠ s.rootValid ∨ t.rootIndex ≠ s.rootIndex →
      s.cmdr ∈ [encode .build, encode .compress, encode .clr]) ∧
    (t.code ≠ s.code →
      s.cmdr ∈ [encode .gen, encode .deser, encode .compress, encode .decompress, encode .clr])
end

