-- ==== Sys2Proof/Laws/State.lean ====
section
/-! SUPPORT. What each named update of State does to each field, one lemma per field, so that no proof
unfolds a record update. -/

namespace Sys2Proof.Machine

variable (s : State)

/-! ## Completion -/

@[simp] theorem complete_busy : (complete s).busy = false := rfl
@[simp] theorem complete_done : (complete s).done = true := rfl
@[simp] theorem complete_faulted : (complete s).faulted = s.faulted := rfl
@[simp] theorem complete_ieDone : (complete s).ieDone = s.ieDone := rfl
@[simp] theorem complete_ieFault : (complete s).ieFault = s.ieFault := rfl
@[simp] theorem complete_faultCode : (complete s).faultCode = s.faultCode := rfl
@[simp] theorem complete_faultInfo : (complete s).faultInfo = s.faultInfo := rfl
@[simp] theorem complete_inLen : (complete s).inLen = s.inLen := rfl
@[simp] theorem complete_outLen : (complete s).outLen = s.outLen := rfl
@[simp] theorem complete_bitCnt : (complete s).bitCnt = s.bitCnt := rfl
@[simp] theorem complete_nodeCnt : (complete s).nodeCnt = s.nodeCnt := rfl
@[simp] theorem complete_rootValid : (complete s).rootValid = s.rootValid := rfl
@[simp] theorem complete_rootIndex : (complete s).rootIndex = s.rootIndex := rfl
@[simp] theorem complete_cmdr : (complete s).cmdr = s.cmdr := rfl
@[simp] theorem complete_bufCap : (complete s).bufCap = s.bufCap := rfl
@[simp] theorem complete_freq : (complete s).freq = s.freq := rfl
@[simp] theorem complete_node : (complete s).node = s.node := rfl
@[simp] theorem complete_code : (complete s).code = s.code := rfl
@[simp] theorem complete_ibuf : (complete s).ibuf = s.ibuf := rfl
@[simp] theorem complete_obuf : (complete s).obuf = s.obuf := rfl
@[simp] theorem complete_inputs : (complete s).inputs = s.inputs := rfl
@[simp] theorem complete_lastResp : (complete s).lastResp = s.lastResp := rfl
@[simp] theorem complete_freeTick : (complete s).freeTick = s.freeTick := rfl

/-! ## Clearing a recorded fault -/

@[simp] theorem clearFault_busy : (clearFault s).busy = s.busy := rfl
@[simp] theorem clearFault_done : (clearFault s).done = s.done := rfl
@[simp] theorem clearFault_faulted : (clearFault s).faulted = false := rfl
@[simp] theorem clearFault_ieDone : (clearFault s).ieDone = s.ieDone := rfl
@[simp] theorem clearFault_ieFault : (clearFault s).ieFault = s.ieFault := rfl
@[simp] theorem clearFault_faultCode : (clearFault s).faultCode = none := rfl
@[simp] theorem clearFault_faultInfo : (clearFault s).faultInfo = 0#32 := rfl
@[simp] theorem clearFault_inLen : (clearFault s).inLen = s.inLen := rfl
@[simp] theorem clearFault_outLen : (clearFault s).outLen = s.outLen := rfl
@[simp] theorem clearFault_bitCnt : (clearFault s).bitCnt = s.bitCnt := rfl
@[simp] theorem clearFault_nodeCnt : (clearFault s).nodeCnt = s.nodeCnt := rfl
@[simp] theorem clearFault_rootValid : (clearFault s).rootValid = s.rootValid := rfl
@[simp] theorem clearFault_rootIndex : (clearFault s).rootIndex = s.rootIndex := rfl
@[simp] theorem clearFault_cmdr : (clearFault s).cmdr = s.cmdr := rfl
@[simp] theorem clearFault_bufCap : (clearFault s).bufCap = s.bufCap := rfl
@[simp] theorem clearFault_freq : (clearFault s).freq = s.freq := rfl
@[simp] theorem clearFault_node : (clearFault s).node = s.node := rfl
@[simp] theorem clearFault_code : (clearFault s).code = s.code := rfl
@[simp] theorem clearFault_ibuf : (clearFault s).ibuf = s.ibuf := rfl
@[simp] theorem clearFault_obuf : (clearFault s).obuf = s.obuf := rfl
@[simp] theorem clearFault_inputs : (clearFault s).inputs = s.inputs := rfl
@[simp] theorem clearFault_lastResp : (clearFault s).lastResp = s.lastResp := rfl
@[simp] theorem clearFault_freeTick : (clearFault s).freeTick = s.freeTick := rfl

/-! ## Clearing the tables -/

@[simp] theorem clearTables_busy : (clearTables s).busy = s.busy := rfl
@[simp] theorem clearTables_done : (clearTables s).done = s.done := rfl
@[simp] theorem clearTables_faulted : (clearTables s).faulted = s.faulted := rfl
@[simp] theorem clearTables_ieDone : (clearTables s).ieDone = s.ieDone := rfl
@[simp] theorem clearTables_ieFault : (clearTables s).ieFault = s.ieFault := rfl
@[simp] theorem clearTables_faultCode : (clearTables s).faultCode = s.faultCode := rfl
@[simp] theorem clearTables_faultInfo : (clearTables s).faultInfo = s.faultInfo := rfl
@[simp] theorem clearTables_inLen : (clearTables s).inLen = s.inLen := rfl
@[simp] theorem clearTables_outLen : (clearTables s).outLen = 0#32 := rfl
@[simp] theorem clearTables_bitCnt : (clearTables s).bitCnt = 0#32 := rfl
@[simp] theorem clearTables_nodeCnt : (clearTables s).nodeCnt = 0#9 := rfl
@[simp] theorem clearTables_rootValid : (clearTables s).rootValid = false := rfl
@[simp] theorem clearTables_rootIndex : (clearTables s).rootIndex = 0#9 := rfl
@[simp] theorem clearTables_cmdr : (clearTables s).cmdr = s.cmdr := rfl
@[simp] theorem clearTables_bufCap : (clearTables s).bufCap = s.bufCap := rfl
@[simp] theorem clearTables_freq : (clearTables s).freq = zeroFreq := rfl
@[simp] theorem clearTables_node : (clearTables s).node = zeroNode := rfl
@[simp] theorem clearTables_code : (clearTables s).code = emptyCode := rfl
@[simp] theorem clearTables_ibuf : (clearTables s).ibuf = s.ibuf := rfl
@[simp] theorem clearTables_obuf : (clearTables s).obuf = s.obuf := rfl
@[simp] theorem clearTables_inputs : (clearTables s).inputs = s.inputs := rfl
@[simp] theorem clearTables_lastResp : (clearTables s).lastResp = s.lastResp := rfl
@[simp] theorem clearTables_freeTick : (clearTables s).freeTick = s.freeTick := rfl

/-! ## The exchange of the buffers -/

@[simp] theorem swapBuffers_busy : (swapBuffers s).busy = s.busy := rfl
@[simp] theorem swapBuffers_done : (swapBuffers s).done = s.done := rfl
@[simp] theorem swapBuffers_faulted : (swapBuffers s).faulted = s.faulted := rfl
@[simp] theorem swapBuffers_ieDone : (swapBuffers s).ieDone = s.ieDone := rfl
@[simp] theorem swapBuffers_ieFault : (swapBuffers s).ieFault = s.ieFault := rfl
@[simp] theorem swapBuffers_faultCode : (swapBuffers s).faultCode = s.faultCode := rfl
@[simp] theorem swapBuffers_faultInfo : (swapBuffers s).faultInfo = s.faultInfo := rfl
@[simp] theorem swapBuffers_inLen : (swapBuffers s).inLen = s.outLen := rfl
@[simp] theorem swapBuffers_outLen : (swapBuffers s).outLen = s.inLen := rfl
@[simp] theorem swapBuffers_bitCnt : (swapBuffers s).bitCnt = s.bitCnt := rfl
@[simp] theorem swapBuffers_nodeCnt : (swapBuffers s).nodeCnt = s.nodeCnt := rfl
@[simp] theorem swapBuffers_rootValid : (swapBuffers s).rootValid = s.rootValid := rfl
@[simp] theorem swapBuffers_rootIndex : (swapBuffers s).rootIndex = s.rootIndex := rfl
@[simp] theorem swapBuffers_cmdr : (swapBuffers s).cmdr = s.cmdr := rfl
@[simp] theorem swapBuffers_bufCap : (swapBuffers s).bufCap = s.bufCap := rfl
@[simp] theorem swapBuffers_freq : (swapBuffers s).freq = s.freq := rfl
@[simp] theorem swapBuffers_node : (swapBuffers s).node = s.node := rfl
@[simp] theorem swapBuffers_code : (swapBuffers s).code = s.code := rfl
@[simp] theorem swapBuffers_ibuf : (swapBuffers s).ibuf = s.obuf := rfl
@[simp] theorem swapBuffers_obuf : (swapBuffers s).obuf = s.ibuf := rfl
@[simp] theorem swapBuffers_inputs : (swapBuffers s).inputs = s.inputs := rfl
@[simp] theorem swapBuffers_lastResp : (swapBuffers s).lastResp = s.lastResp := rfl
@[simp] theorem swapBuffers_freeTick : (swapBuffers s).freeTick = s.freeTick := rfl

/-! ## Acceptance of a command -/

@[simp] theorem acceptCommand_busy (w : Word) : (acceptCommand w s).busy = true := rfl
@[simp] theorem acceptCommand_done (w : Word) : (acceptCommand w s).done = false := rfl
@[simp] theorem acceptCommand_faulted (w : Word) : (acceptCommand w s).faulted = s.faulted := rfl
@[simp] theorem acceptCommand_ieDone (w : Word) : (acceptCommand w s).ieDone = s.ieDone := rfl
@[simp] theorem acceptCommand_ieFault (w : Word) : (acceptCommand w s).ieFault = s.ieFault := rfl
@[simp] theorem acceptCommand_faultCode (w : Word) : (acceptCommand w s).faultCode = s.faultCode := rfl
@[simp] theorem acceptCommand_faultInfo (w : Word) : (acceptCommand w s).faultInfo = s.faultInfo := rfl
@[simp] theorem acceptCommand_inLen (w : Word) : (acceptCommand w s).inLen = s.inLen := rfl
@[simp] theorem acceptCommand_outLen (w : Word) : (acceptCommand w s).outLen = s.outLen := rfl
@[simp] theorem acceptCommand_bitCnt (w : Word) : (acceptCommand w s).bitCnt = s.bitCnt := rfl
@[simp] theorem acceptCommand_nodeCnt (w : Word) : (acceptCommand w s).nodeCnt = s.nodeCnt := rfl
@[simp] theorem acceptCommand_rootValid (w : Word) : (acceptCommand w s).rootValid = s.rootValid := rfl
@[simp] theorem acceptCommand_rootIndex (w : Word) : (acceptCommand w s).rootIndex = s.rootIndex := rfl
@[simp] theorem acceptCommand_cmdr (w : Word) : (acceptCommand w s).cmdr = w := rfl
@[simp] theorem acceptCommand_bufCap (w : Word) : (acceptCommand w s).bufCap = s.bufCap := rfl
@[simp] theorem acceptCommand_freq (w : Word) : (acceptCommand w s).freq = s.freq := rfl
@[simp] theorem acceptCommand_node (w : Word) : (acceptCommand w s).node = s.node := rfl
@[simp] theorem acceptCommand_code (w : Word) : (acceptCommand w s).code = s.code := rfl
@[simp] theorem acceptCommand_ibuf (w : Word) : (acceptCommand w s).ibuf = s.ibuf := rfl
@[simp] theorem acceptCommand_obuf (w : Word) : (acceptCommand w s).obuf = s.obuf := rfl
@[simp] theorem acceptCommand_inputs (w : Word) : (acceptCommand w s).inputs = s.inputs := rfl
@[simp] theorem acceptCommand_lastResp (w : Word) : (acceptCommand w s).lastResp = s.lastResp := rfl
@[simp] theorem acceptCommand_freeTick (w : Word) : (acceptCommand w s).freeTick = s.freeTick := rfl

/-! ## A write to STATUS -/

@[simp] theorem writeStatus_busy (v : Word) : (writeStatus v s).busy = s.busy := rfl
@[simp] theorem writeStatus_done (v : Word) : (writeStatus v s).done = (s.done && !v.getLsbD 1) := rfl
@[simp] theorem writeStatus_faulted (v : Word) : (writeStatus v s).faulted = s.faulted := rfl
@[simp] theorem writeStatus_ieDone (v : Word) : (writeStatus v s).ieDone = s.ieDone := rfl
@[simp] theorem writeStatus_ieFault (v : Word) : (writeStatus v s).ieFault = s.ieFault := rfl
@[simp] theorem writeStatus_faultCode (v : Word) : (writeStatus v s).faultCode = s.faultCode := rfl
@[simp] theorem writeStatus_faultInfo (v : Word) : (writeStatus v s).faultInfo = s.faultInfo := rfl
@[simp] theorem writeStatus_inLen (v : Word) : (writeStatus v s).inLen = s.inLen := rfl
@[simp] theorem writeStatus_outLen (v : Word) : (writeStatus v s).outLen = s.outLen := rfl
@[simp] theorem writeStatus_bitCnt (v : Word) : (writeStatus v s).bitCnt = s.bitCnt := rfl
@[simp] theorem writeStatus_nodeCnt (v : Word) : (writeStatus v s).nodeCnt = s.nodeCnt := rfl
@[simp] theorem writeStatus_rootValid (v : Word) : (writeStatus v s).rootValid = s.rootValid := rfl
@[simp] theorem writeStatus_rootIndex (v : Word) : (writeStatus v s).rootIndex = s.rootIndex := rfl
@[simp] theorem writeStatus_cmdr (v : Word) : (writeStatus v s).cmdr = s.cmdr := rfl
@[simp] theorem writeStatus_bufCap (v : Word) : (writeStatus v s).bufCap = s.bufCap := rfl
@[simp] theorem writeStatus_freq (v : Word) : (writeStatus v s).freq = s.freq := rfl
@[simp] theorem writeStatus_node (v : Word) : (writeStatus v s).node = s.node := rfl
@[simp] theorem writeStatus_code (v : Word) : (writeStatus v s).code = s.code := rfl
@[simp] theorem writeStatus_ibuf (v : Word) : (writeStatus v s).ibuf = s.ibuf := rfl
@[simp] theorem writeStatus_obuf (v : Word) : (writeStatus v s).obuf = s.obuf := rfl
@[simp] theorem writeStatus_inputs (v : Word) : (writeStatus v s).inputs = s.inputs := rfl
@[simp] theorem writeStatus_lastResp (v : Word) : (writeStatus v s).lastResp = s.lastResp := rfl
@[simp] theorem writeStatus_freeTick (v : Word) : (writeStatus v s).freeTick = s.freeTick := rfl

/-! ## A write to CTRL -/

@[simp] theorem writeCtrl_busy (v : Word) : (writeCtrl v s).busy = s.busy := rfl
@[simp] theorem writeCtrl_done (v : Word) : (writeCtrl v s).done = s.done := rfl
@[simp] theorem writeCtrl_faulted (v : Word) : (writeCtrl v s).faulted = s.faulted := rfl
@[simp] theorem writeCtrl_ieDone (v : Word) : (writeCtrl v s).ieDone = v.getLsbD 0 := rfl
@[simp] theorem writeCtrl_ieFault (v : Word) : (writeCtrl v s).ieFault = v.getLsbD 1 := rfl
@[simp] theorem writeCtrl_faultCode (v : Word) : (writeCtrl v s).faultCode = s.faultCode := rfl
@[simp] theorem writeCtrl_faultInfo (v : Word) : (writeCtrl v s).faultInfo = s.faultInfo := rfl
@[simp] theorem writeCtrl_inLen (v : Word) : (writeCtrl v s).inLen = s.inLen := rfl
@[simp] theorem writeCtrl_outLen (v : Word) : (writeCtrl v s).outLen = s.outLen := rfl
@[simp] theorem writeCtrl_bitCnt (v : Word) : (writeCtrl v s).bitCnt = s.bitCnt := rfl
@[simp] theorem writeCtrl_nodeCnt (v : Word) : (writeCtrl v s).nodeCnt = s.nodeCnt := rfl
@[simp] theorem writeCtrl_rootValid (v : Word) : (writeCtrl v s).rootValid = s.rootValid := rfl
@[simp] theorem writeCtrl_rootIndex (v : Word) : (writeCtrl v s).rootIndex = s.rootIndex := rfl
@[simp] theorem writeCtrl_cmdr (v : Word) : (writeCtrl v s).cmdr = s.cmdr := rfl
@[simp] theorem writeCtrl_bufCap (v : Word) : (writeCtrl v s).bufCap = s.bufCap := rfl
@[simp] theorem writeCtrl_freq (v : Word) : (writeCtrl v s).freq = s.freq := rfl
@[simp] theorem writeCtrl_node (v : Word) : (writeCtrl v s).node = s.node := rfl
@[simp] theorem writeCtrl_code (v : Word) : (writeCtrl v s).code = s.code := rfl
@[simp] theorem writeCtrl_ibuf (v : Word) : (writeCtrl v s).ibuf = s.ibuf := rfl
@[simp] theorem writeCtrl_obuf (v : Word) : (writeCtrl v s).obuf = s.obuf := rfl
@[simp] theorem writeCtrl_inputs (v : Word) : (writeCtrl v s).inputs = s.inputs := rfl
@[simp] theorem writeCtrl_lastResp (v : Word) : (writeCtrl v s).lastResp = s.lastResp := rfl
@[simp] theorem writeCtrl_freeTick (v : Word) : (writeCtrl v s).freeTick = s.freeTick := rfl

/-! ## The output of a command -/

@[simp] theorem putOutput_busy (bs : List Byte) : (putOutput bs s).busy = s.busy := rfl
@[simp] theorem putOutput_done (bs : List Byte) : (putOutput bs s).done = s.done := rfl
@[simp] theorem putOutput_faulted (bs : List Byte) : (putOutput bs s).faulted = s.faulted := rfl
@[simp] theorem putOutput_ieDone (bs : List Byte) : (putOutput bs s).ieDone = s.ieDone := rfl
@[simp] theorem putOutput_ieFault (bs : List Byte) : (putOutput bs s).ieFault = s.ieFault := rfl
@[simp] theorem putOutput_faultCode (bs : List Byte) : (putOutput bs s).faultCode = s.faultCode := rfl
@[simp] theorem putOutput_faultInfo (bs : List Byte) : (putOutput bs s).faultInfo = s.faultInfo := rfl
@[simp] theorem putOutput_inLen (bs : List Byte) : (putOutput bs s).inLen = s.inLen := rfl
@[simp] theorem putOutput_outLen (bs : List Byte) : (putOutput bs s).outLen = BitVec.ofNat 32 bs.length := rfl
@[simp] theorem putOutput_bitCnt (bs : List Byte) : (putOutput bs s).bitCnt = s.bitCnt := rfl
@[simp] theorem putOutput_nodeCnt (bs : List Byte) : (putOutput bs s).nodeCnt = s.nodeCnt := rfl
@[simp] theorem putOutput_rootValid (bs : List Byte) : (putOutput bs s).rootValid = s.rootValid := rfl
@[simp] theorem putOutput_rootIndex (bs : List Byte) : (putOutput bs s).rootIndex = s.rootIndex := rfl
@[simp] theorem putOutput_cmdr (bs : List Byte) : (putOutput bs s).cmdr = s.cmdr := rfl
@[simp] theorem putOutput_bufCap (bs : List Byte) : (putOutput bs s).bufCap = s.bufCap := rfl
@[simp] theorem putOutput_freq (bs : List Byte) : (putOutput bs s).freq = s.freq := rfl
@[simp] theorem putOutput_node (bs : List Byte) : (putOutput bs s).node = s.node := rfl
@[simp] theorem putOutput_code (bs : List Byte) : (putOutput bs s).code = s.code := rfl
@[simp] theorem putOutput_ibuf (bs : List Byte) : (putOutput bs s).ibuf = s.ibuf := rfl
@[simp] theorem putOutput_obuf (bs : List Byte) : (putOutput bs s).obuf = Memory.writeBytes s.obuf 0 bs := rfl
@[simp] theorem putOutput_inputs (bs : List Byte) : (putOutput bs s).inputs = s.inputs := rfl
@[simp] theorem putOutput_lastResp (bs : List Byte) : (putOutput bs s).lastResp = s.lastResp := rfl
@[simp] theorem putOutput_freeTick (bs : List Byte) : (putOutput bs s).freeTick = s.freeTick := rfl

/-! ## The bit count of a command -/

@[simp] theorem putBitCount_busy (b : Nat) : (putBitCount b s).busy = s.busy := rfl
@[simp] theorem putBitCount_done (b : Nat) : (putBitCount b s).done = s.done := rfl
@[simp] theorem putBitCount_faulted (b : Nat) : (putBitCount b s).faulted = s.faulted := rfl
@[simp] theorem putBitCount_ieDone (b : Nat) : (putBitCount b s).ieDone = s.ieDone := rfl
@[simp] theorem putBitCount_ieFault (b : Nat) : (putBitCount b s).ieFault = s.ieFault := rfl
@[simp] theorem putBitCount_faultCode (b : Nat) : (putBitCount b s).faultCode = s.faultCode := rfl
@[simp] theorem putBitCount_faultInfo (b : Nat) : (putBitCount b s).faultInfo = s.faultInfo := rfl
@[simp] theorem putBitCount_inLen (b : Nat) : (putBitCount b s).inLen = s.inLen := rfl
@[simp] theorem putBitCount_outLen (b : Nat) : (putBitCount b s).outLen = s.outLen := rfl
@[simp] theorem putBitCount_bitCnt (b : Nat) : (putBitCount b s).bitCnt = BitVec.ofNat 32 b := rfl
@[simp] theorem putBitCount_nodeCnt (b : Nat) : (putBitCount b s).nodeCnt = s.nodeCnt := rfl
@[simp] theorem putBitCount_rootValid (b : Nat) : (putBitCount b s).rootValid = s.rootValid := rfl
@[simp] theorem putBitCount_rootIndex (b : Nat) : (putBitCount b s).rootIndex = s.rootIndex := rfl
@[simp] theorem putBitCount_cmdr (b : Nat) : (putBitCount b s).cmdr = s.cmdr := rfl
@[simp] theorem putBitCount_bufCap (b : Nat) : (putBitCount b s).bufCap = s.bufCap := rfl
@[simp] theorem putBitCount_freq (b : Nat) : (putBitCount b s).freq = s.freq := rfl
@[simp] theorem putBitCount_node (b : Nat) : (putBitCount b s).node = s.node := rfl
@[simp] theorem putBitCount_code (b : Nat) : (putBitCount b s).code = s.code := rfl
@[simp] theorem putBitCount_ibuf (b : Nat) : (putBitCount b s).ibuf = s.ibuf := rfl
@[simp] theorem putBitCount_obuf (b : Nat) : (putBitCount b s).obuf = s.obuf := rfl
@[simp] theorem putBitCount_inputs (b : Nat) : (putBitCount b s).inputs = s.inputs := rfl
@[simp] theorem putBitCount_lastResp (b : Nat) : (putBitCount b s).lastResp = s.lastResp := rfl
@[simp] theorem putBitCount_freeTick (b : Nat) : (putBitCount b s).freeTick = s.freeTick := rfl

/-! ## Placing a command -/

@[simp] theorem placeCommand_busy (w : Word) : (placeCommand w s).busy = true := rfl
@[simp] theorem placeCommand_done (w : Word) : (placeCommand w s).done = false := rfl
@[simp] theorem placeCommand_faulted (w : Word) : (placeCommand w s).faulted = s.faulted := rfl
@[simp] theorem placeCommand_ieDone (w : Word) : (placeCommand w s).ieDone = s.ieDone := rfl
@[simp] theorem placeCommand_ieFault (w : Word) : (placeCommand w s).ieFault = s.ieFault := rfl
@[simp] theorem placeCommand_faultCode (w : Word) : (placeCommand w s).faultCode = s.faultCode := rfl
@[simp] theorem placeCommand_faultInfo (w : Word) : (placeCommand w s).faultInfo = s.faultInfo := rfl
@[simp] theorem placeCommand_inLen (w : Word) : (placeCommand w s).inLen = s.inLen := rfl
@[simp] theorem placeCommand_outLen (w : Word) : (placeCommand w s).outLen = s.outLen := rfl
@[simp] theorem placeCommand_bitCnt (w : Word) : (placeCommand w s).bitCnt = s.bitCnt := rfl
@[simp] theorem placeCommand_nodeCnt (w : Word) : (placeCommand w s).nodeCnt = s.nodeCnt := rfl
@[simp] theorem placeCommand_rootValid (w : Word) : (placeCommand w s).rootValid = s.rootValid := rfl
@[simp] theorem placeCommand_rootIndex (w : Word) : (placeCommand w s).rootIndex = s.rootIndex := rfl
@[simp] theorem placeCommand_cmdr (w : Word) : (placeCommand w s).cmdr = w := rfl
@[simp] theorem placeCommand_bufCap (w : Word) : (placeCommand w s).bufCap = s.bufCap := rfl
@[simp] theorem placeCommand_freq (w : Word) : (placeCommand w s).freq = s.freq := rfl
@[simp] theorem placeCommand_node (w : Word) : (placeCommand w s).node = s.node := rfl
@[simp] theorem placeCommand_code (w : Word) : (placeCommand w s).code = s.code := rfl
@[simp] theorem placeCommand_ibuf (w : Word) : (placeCommand w s).ibuf = s.ibuf := rfl
@[simp] theorem placeCommand_obuf (w : Word) : (placeCommand w s).obuf = s.obuf := rfl
@[simp] theorem placeCommand_inputs (w : Word) : (placeCommand w s).inputs = .engine :: s.inputs := rfl
@[simp] theorem placeCommand_lastResp (w : Word) : (placeCommand w s).lastResp = s.lastResp := rfl
@[simp] theorem placeCommand_freeTick (w : Word) : (placeCommand w s).freeTick = s.freeTick := rfl

/-! ## The reset edge -/

@[simp] theorem rstEdge_busy : (rstEdge s).busy = false := rfl
@[simp] theorem rstEdge_done : (rstEdge s).done = false := rfl
@[simp] theorem rstEdge_faulted : (rstEdge s).faulted = false := rfl
@[simp] theorem rstEdge_ieDone : (rstEdge s).ieDone = false := rfl
@[simp] theorem rstEdge_ieFault : (rstEdge s).ieFault = false := rfl
@[simp] theorem rstEdge_faultCode : (rstEdge s).faultCode = none := rfl
@[simp] theorem rstEdge_faultInfo : (rstEdge s).faultInfo = 0#32 := rfl
@[simp] theorem rstEdge_inLen : (rstEdge s).inLen = 0#32 := rfl
@[simp] theorem rstEdge_outLen : (rstEdge s).outLen = 0#32 := rfl
@[simp] theorem rstEdge_bitCnt : (rstEdge s).bitCnt = 0#32 := rfl
@[simp] theorem rstEdge_nodeCnt : (rstEdge s).nodeCnt = 0#9 := rfl
@[simp] theorem rstEdge_rootValid : (rstEdge s).rootValid = false := rfl
@[simp] theorem rstEdge_rootIndex : (rstEdge s).rootIndex = 0#9 := rfl
@[simp] theorem rstEdge_cmdr : (rstEdge s).cmdr = 0#32 := rfl
@[simp] theorem rstEdge_bufCap : (rstEdge s).bufCap = s.bufCap := rfl
@[simp] theorem rstEdge_freq : (rstEdge s).freq = zeroFreq := rfl
@[simp] theorem rstEdge_node : (rstEdge s).node = zeroNode := rfl
@[simp] theorem rstEdge_code : (rstEdge s).code = emptyCode := rfl
@[simp] theorem rstEdge_ibuf : (rstEdge s).ibuf = freeIbuf s.freeTick s.bufCap := rfl
@[simp] theorem rstEdge_obuf : (rstEdge s).obuf = freeObuf s.freeTick s.bufCap := rfl
@[simp] theorem rstEdge_inputs : (rstEdge s).inputs = s.inputs := rfl
@[simp] theorem rstEdge_lastResp : (rstEdge s).lastResp = none := rfl
@[simp] theorem rstEdge_freeTick : (rstEdge s).freeTick = s.freeTick + 1 := rfl

/-! ## The reset state -/

@[simp] theorem resetWith_busy (cap : Nat) (i o : Memory) (q : List Input) (k : Nat) : (State.resetWith cap i o q k).busy = false := rfl
@[simp] theorem resetWith_done (cap : Nat) (i o : Memory) (q : List Input) (k : Nat) : (State.resetWith cap i o q k).done = false := rfl
@[simp] theorem resetWith_faulted (cap : Nat) (i o : Memory) (q : List Input) (k : Nat) : (State.resetWith cap i o q k).faulted = false := rfl
@[simp] theorem resetWith_ieDone (cap : Nat) (i o : Memory) (q : List Input) (k : Nat) : (State.resetWith cap i o q k).ieDone = false := rfl
@[simp] theorem resetWith_ieFault (cap : Nat) (i o : Memory) (q : List Input) (k : Nat) : (State.resetWith cap i o q k).ieFault = false := rfl
@[simp] theorem resetWith_faultCode (cap : Nat) (i o : Memory) (q : List Input) (k : Nat) : (State.resetWith cap i o q k).faultCode = none := rfl
@[simp] theorem resetWith_faultInfo (cap : Nat) (i o : Memory) (q : List Input) (k : Nat) : (State.resetWith cap i o q k).faultInfo = 0#32 := rfl
@[simp] theorem resetWith_inLen (cap : Nat) (i o : Memory) (q : List Input) (k : Nat) : (State.resetWith cap i o q k).inLen = 0#32 := rfl
@[simp] theorem resetWith_outLen (cap : Nat) (i o : Memory) (q : List Input) (k : Nat) : (State.resetWith cap i o q k).outLen = 0#32 := rfl
@[simp] theorem resetWith_bitCnt (cap : Nat) (i o : Memory) (q : List Input) (k : Nat) : (State.resetWith cap i o q k).bitCnt = 0#32 := rfl
@[simp] theorem resetWith_nodeCnt (cap : Nat) (i o : Memory) (q : List Input) (k : Nat) : (State.resetWith cap i o q k).nodeCnt = 0#9 := rfl
@[simp] theorem resetWith_rootValid (cap : Nat) (i o : Memory) (q : List Input) (k : Nat) : (State.resetWith cap i o q k).rootValid = false := rfl
@[simp] theorem resetWith_rootIndex (cap : Nat) (i o : Memory) (q : List Input) (k : Nat) : (State.resetWith cap i o q k).rootIndex = 0#9 := rfl
@[simp] theorem resetWith_cmdr (cap : Nat) (i o : Memory) (q : List Input) (k : Nat) : (State.resetWith cap i o q k).cmdr = 0#32 := rfl
@[simp] theorem resetWith_bufCap (cap : Nat) (i o : Memory) (q : List Input) (k : Nat) : (State.resetWith cap i o q k).bufCap = cap := rfl
@[simp] theorem resetWith_freq (cap : Nat) (i o : Memory) (q : List Input) (k : Nat) : (State.resetWith cap i o q k).freq = zeroFreq := rfl
@[simp] theorem resetWith_node (cap : Nat) (i o : Memory) (q : List Input) (k : Nat) : (State.resetWith cap i o q k).node = zeroNode := rfl
@[simp] theorem resetWith_code (cap : Nat) (i o : Memory) (q : List Input) (k : Nat) : (State.resetWith cap i o q k).code = emptyCode := rfl
@[simp] theorem resetWith_ibuf (cap : Nat) (i o : Memory) (q : List Input) (k : Nat) : (State.resetWith cap i o q k).ibuf = i := rfl
@[simp] theorem resetWith_obuf (cap : Nat) (i o : Memory) (q : List Input) (k : Nat) : (State.resetWith cap i o q k).obuf = o := rfl
@[simp] theorem resetWith_inputs (cap : Nat) (i o : Memory) (q : List Input) (k : Nat) : (State.resetWith cap i o q k).inputs = q := rfl
@[simp] theorem resetWith_lastResp (cap : Nat) (i o : Memory) (q : List Input) (k : Nat) : (State.resetWith cap i o q k).lastResp = none := rfl
@[simp] theorem resetWith_freeTick (cap : Nat) (i o : Memory) (q : List Input) (k : Nat) : (State.resetWith cap i o q k).freeTick = k := rfl

/-! ## The free values of a late fault -/

@[simp] theorem scramble_busy (ws : List Loc) : (scramble ws s).busy = s.busy := rfl
@[simp] theorem scramble_done (ws : List Loc) : (scramble ws s).done = s.done := rfl
@[simp] theorem scramble_faulted (ws : List Loc) : (scramble ws s).faulted = s.faulted := rfl
@[simp] theorem scramble_ieDone (ws : List Loc) : (scramble ws s).ieDone = s.ieDone := rfl
@[simp] theorem scramble_ieFault (ws : List Loc) : (scramble ws s).ieFault = s.ieFault := rfl
@[simp] theorem scramble_faultCode (ws : List Loc) : (scramble ws s).faultCode = s.faultCode := rfl
@[simp] theorem scramble_faultInfo (ws : List Loc) : (scramble ws s).faultInfo = s.faultInfo := rfl
@[simp] theorem scramble_inLen (ws : List Loc) : (scramble ws s).inLen = (if .inLen ∈ ws then Config.freeInLen s.freeTick else s.inLen) := rfl
@[simp] theorem scramble_outLen (ws : List Loc) : (scramble ws s).outLen = s.outLen := rfl
@[simp] theorem scramble_bitCnt (ws : List Loc) : (scramble ws s).bitCnt = (if .bitCnt ∈ ws then 0#32 else s.bitCnt) := rfl
@[simp] theorem scramble_nodeCnt (ws : List Loc) : (scramble ws s).nodeCnt = (if .nodeCnt ∈ ws then Config.freeNodeCnt s.freeTick else s.nodeCnt) := rfl
@[simp] theorem scramble_rootValid (ws : List Loc) : (scramble ws s).rootValid = (if .root ∈ ws then Config.freeRootValid s.freeTick else s.rootValid) := rfl
@[simp] theorem scramble_rootIndex (ws : List Loc) : (scramble ws s).rootIndex = (if .root ∈ ws then Config.freeRootIndex s.freeTick else s.rootIndex) := rfl
@[simp] theorem scramble_cmdr (ws : List Loc) : (scramble ws s).cmdr = s.cmdr := rfl
@[simp] theorem scramble_bufCap (ws : List Loc) : (scramble ws s).bufCap = s.bufCap := rfl
@[simp] theorem scramble_freq (ws : List Loc) : (scramble ws s).freq = (if .freq ∈ ws then freeFreq s.freeTick else s.freq) := rfl
@[simp] theorem scramble_node (ws : List Loc) : (scramble ws s).node = (if .node ∈ ws then freeNode s.freeTick else s.node) := rfl
@[simp] theorem scramble_code (ws : List Loc) : (scramble ws s).code = (if .code ∈ ws then freeCode s.freeTick else s.code) := rfl
@[simp] theorem scramble_ibuf (ws : List Loc) : (scramble ws s).ibuf = (if .ibuf ∈ ws then freeIbuf s.freeTick s.bufCap else s.ibuf) := rfl
@[simp] theorem scramble_obuf (ws : List Loc) : (scramble ws s).obuf = (if .obuf ∈ ws then freeObuf s.freeTick s.bufCap else s.obuf) := rfl
@[simp] theorem scramble_inputs (ws : List Loc) : (scramble ws s).inputs = s.inputs := rfl
@[simp] theorem scramble_lastResp (ws : List Loc) : (scramble ws s).lastResp = s.lastResp := rfl
@[simp] theorem scramble_freeTick (ws : List Loc) : (scramble ws s).freeTick = s.freeTick + 1 := rfl

/-! ## A host turn -/

@[simp] theorem hostTurn_busy (a : Access) : (hostTurn a s).busy = (portAccess a s).1.busy := rfl
@[simp] theorem hostTurn_done (a : Access) : (hostTurn a s).done = (portAccess a s).1.done := rfl
@[simp] theorem hostTurn_faulted (a : Access) : (hostTurn a s).faulted = (portAccess a s).1.faulted := rfl
@[simp] theorem hostTurn_ieDone (a : Access) : (hostTurn a s).ieDone = (portAccess a s).1.ieDone := rfl
@[simp] theorem hostTurn_ieFault (a : Access) : (hostTurn a s).ieFault = (portAccess a s).1.ieFault := rfl
@[simp] theorem hostTurn_faultCode (a : Access) : (hostTurn a s).faultCode = (portAccess a s).1.faultCode := rfl
@[simp] theorem hostTurn_faultInfo (a : Access) : (hostTurn a s).faultInfo = (portAccess a s).1.faultInfo := rfl
@[simp] theorem hostTurn_inLen (a : Access) : (hostTurn a s).inLen = (portAccess a s).1.inLen := rfl
@[simp] theorem hostTurn_outLen (a : Access) : (hostTurn a s).outLen = (portAccess a s).1.outLen := rfl
@[simp] theorem hostTurn_bitCnt (a : Access) : (hostTurn a s).bitCnt = (portAccess a s).1.bitCnt := rfl
@[simp] theorem hostTurn_nodeCnt (a : Access) : (hostTurn a s).nodeCnt = (portAccess a s).1.nodeCnt := rfl
@[simp] theorem hostTurn_rootValid (a : Access) : (hostTurn a s).rootValid = (portAccess a s).1.rootValid := rfl
@[simp] theorem hostTurn_rootIndex (a : Access) : (hostTurn a s).rootIndex = (portAccess a s).1.rootIndex := rfl
@[simp] theorem hostTurn_cmdr (a : Access) : (hostTurn a s).cmdr = (portAccess a s).1.cmdr := rfl
@[simp] theorem hostTurn_bufCap (a : Access) : (hostTurn a s).bufCap = (portAccess a s).1.bufCap := rfl
@[simp] theorem hostTurn_freq (a : Access) : (hostTurn a s).freq = (portAccess a s).1.freq := rfl
@[simp] theorem hostTurn_node (a : Access) : (hostTurn a s).node = (portAccess a s).1.node := rfl
@[simp] theorem hostTurn_code (a : Access) : (hostTurn a s).code = (portAccess a s).1.code := rfl
@[simp] theorem hostTurn_ibuf (a : Access) : (hostTurn a s).ibuf = (portAccess a s).1.ibuf := rfl
@[simp] theorem hostTurn_obuf (a : Access) : (hostTurn a s).obuf = (portAccess a s).1.obuf := rfl
@[simp] theorem hostTurn_inputs (a : Access) : (hostTurn a s).inputs = (portAccess a s).1.inputs := rfl
@[simp] theorem hostTurn_lastResp (a : Access) : (hostTurn a s).lastResp = some (portAccess a s).2 := rfl
@[simp] theorem hostTurn_freeTick (a : Access) : (hostTurn a s).freeTick = (portAccess a s).1.freeTick := rfl

/-! ## Fault entry -/

@[simp] theorem spoil_early (ws : List Loc) : spoil ws .early s = s := rfl
@[simp] theorem spoil_late (ws : List Loc) : spoil ws .late s = scramble ws s := rfl

@[simp] theorem spoil_busy (ws : List Loc) (p : Phase) : (spoil ws p s).busy = s.busy := by cases p <;> rfl
@[simp] theorem spoil_done (ws : List Loc) (p : Phase) : (spoil ws p s).done = s.done := by cases p <;> rfl
@[simp] theorem spoil_faulted (ws : List Loc) (p : Phase) : (spoil ws p s).faulted = s.faulted := by cases p <;> rfl
@[simp] theorem spoil_ieDone (ws : List Loc) (p : Phase) : (spoil ws p s).ieDone = s.ieDone := by cases p <;> rfl
@[simp] theorem spoil_ieFault (ws : List Loc) (p : Phase) : (spoil ws p s).ieFault = s.ieFault := by cases p <;> rfl
@[simp] theorem spoil_faultCode (ws : List Loc) (p : Phase) : (spoil ws p s).faultCode = s.faultCode := by cases p <;> rfl
@[simp] theorem spoil_faultInfo (ws : List Loc) (p : Phase) : (spoil ws p s).faultInfo = s.faultInfo := by cases p <;> rfl
@[simp] theorem spoil_outLen (ws : List Loc) (p : Phase) : (spoil ws p s).outLen = s.outLen := by cases p <;> rfl
@[simp] theorem spoil_cmdr (ws : List Loc) (p : Phase) : (spoil ws p s).cmdr = s.cmdr := by cases p <;> rfl
@[simp] theorem spoil_bufCap (ws : List Loc) (p : Phase) : (spoil ws p s).bufCap = s.bufCap := by cases p <;> rfl
@[simp] theorem spoil_inputs (ws : List Loc) (p : Phase) : (spoil ws p s).inputs = s.inputs := by cases p <;> rfl
@[simp] theorem spoil_lastResp (ws : List Loc) (p : Phase) : (spoil ws p s).lastResp = s.lastResp := by cases p <;> rfl

@[simp] theorem faultEntry_busy (ws : List Loc) (r : Raise) : (faultEntry ws r s).busy = false := rfl
@[simp] theorem faultEntry_done (ws : List Loc) (r : Raise) : (faultEntry ws r s).done = false := rfl
@[simp] theorem faultEntry_faulted (ws : List Loc) (r : Raise) : (faultEntry ws r s).faulted = true := rfl
@[simp] theorem faultEntry_ieDone (ws : List Loc) (r : Raise) : (faultEntry ws r s).ieDone = s.ieDone := by simp [faultEntry]
@[simp] theorem faultEntry_ieFault (ws : List Loc) (r : Raise) : (faultEntry ws r s).ieFault = s.ieFault := by simp [faultEntry]
@[simp] theorem faultEntry_faultCode (ws : List Loc) (r : Raise) : (faultEntry ws r s).faultCode = some r.cause := rfl
@[simp] theorem faultEntry_faultInfo (ws : List Loc) (r : Raise) : (faultEntry ws r s).faultInfo = r.info := rfl
@[simp] theorem faultEntry_inLen (ws : List Loc) (r : Raise) : (faultEntry ws r s).inLen = (spoil ws r.phase s).inLen := rfl
@[simp] theorem faultEntry_outLen (ws : List Loc) (r : Raise) : (faultEntry ws r s).outLen = (if .outLen ∈ ws then 0#32 else s.outLen) := by simp [faultEntry]
@[simp] theorem faultEntry_bitCnt (ws : List Loc) (r : Raise) : (faultEntry ws r s).bitCnt = (spoil ws r.phase s).bitCnt := rfl
@[simp] theorem faultEntry_nodeCnt (ws : List Loc) (r : Raise) : (faultEntry ws r s).nodeCnt = (spoil ws r.phase s).nodeCnt := rfl
@[simp] theorem faultEntry_rootValid (ws : List Loc) (r : Raise) : (faultEntry ws r s).rootValid = (spoil ws r.phase s).rootValid := rfl
@[simp] theorem faultEntry_rootIndex (ws : List Loc) (r : Raise) : (faultEntry ws r s).rootIndex = (spoil ws r.phase s).rootIndex := rfl
@[simp] theorem faultEntry_cmdr (ws : List Loc) (r : Raise) : (faultEntry ws r s).cmdr = s.cmdr := by simp [faultEntry]
@[simp] theorem faultEntry_bufCap (ws : List Loc) (r : Raise) : (faultEntry ws r s).bufCap = s.bufCap := by simp [faultEntry]
@[simp] theorem faultEntry_freq (ws : List Loc) (r : Raise) : (faultEntry ws r s).freq = (spoil ws r.phase s).freq := rfl
@[simp] theorem faultEntry_node (ws : List Loc) (r : Raise) : (faultEntry ws r s).node = (spoil ws r.phase s).node := rfl
@[simp] theorem faultEntry_code (ws : List Loc) (r : Raise) : (faultEntry ws r s).code = (spoil ws r.phase s).code := rfl
@[simp] theorem faultEntry_ibuf (ws : List Loc) (r : Raise) : (faultEntry ws r s).ibuf = (spoil ws r.phase s).ibuf := rfl
@[simp] theorem faultEntry_obuf (ws : List Loc) (r : Raise) : (faultEntry ws r s).obuf = (spoil ws r.phase s).obuf := rfl
@[simp] theorem faultEntry_inputs (ws : List Loc) (r : Raise) : (faultEntry ws r s).inputs = s.inputs := by simp [faultEntry]
@[simp] theorem faultEntry_lastResp (ws : List Loc) (r : Raise) : (faultEntry ws r s).lastResp = s.lastResp := by simp [faultEntry]
@[simp] theorem faultEntry_freeTick (ws : List Loc) (r : Raise) : (faultEntry ws r s).freeTick = (spoil ws r.phase s).freeTick := rfl

end Sys2Proof.Machine
end

