-- ==== Sys2Proof/Laws/Memory.lean ====
section
/-! SUPPORT. The laws of the byte buffers: a read after a write, what a write leaves alone, the canonical
form, and that equal reads make equal buffers. -/

namespace Sys2Proof.Machine

@[simp] theorem Memory.read_nil (a : Nat) : Memory.read [] a = Memory.unlisted := rfl

theorem Memory.wf_nil : Memory.wf [] := ⟨List.Pairwise.nil, by simp⟩

theorem Memory.wf_tail {x : Host.Cell} {m : Memory} (h : Memory.wf (x :: m)) : Memory.wf m :=
  ⟨(List.pairwise_cons.mp h.1).2, fun y hy => h.2 y (List.mem_cons_of_mem _ hy)⟩

theorem Memory.lt_of_mem {x y : Host.Cell} {m : Memory} (h : Memory.wf (x :: m)) (hy : y ∈ m) : x.1 < y.1 :=
  (List.pairwise_cons.mp h.1).1 y hy

/-- An index that is not listed reads as unlisted. -/
theorem Memory.read_of_not_listed {m : Memory} {a : Nat} (h : ∀ x ∈ m, x.1 ≠ a) :
    Memory.read m a = Memory.unlisted := by
  induction m with
  | nil => rfl
  | cons x m ih =>
    obtain ⟨k, b⟩ := x
    have hk : a ≠ k := fun e => h (k, b) (by simp) e.symm
    simp only [Memory.read, hk, if_false]
    exact ih (fun y hy => h y (List.mem_cons_of_mem _ hy))

theorem Memory.read_before {m : Memory} {a : Nat} (h : ∀ x ∈ m, a < x.1) :
    Memory.read m a = Memory.unlisted :=
  Memory.read_of_not_listed (fun x hx => (Nat.ne_of_lt (h x hx)).symm)

/-- A read after a write: the byte written at its index, the byte before at every other. -/
theorem Memory.read_write {m : Memory} (h : Memory.wf m) (a : Nat) (b : Byte) (c : Nat) :
    Memory.read (Memory.write m a b) c = if c = a then b else Memory.read m c := by
  induction m with
  | nil =>
    by_cases hb : b = Memory.unlisted <;> by_cases hc : c = a <;> simp [Memory.write, Memory.read, hb, hc]
  | cons x m ih =>
    obtain ⟨k, d⟩ := x
    have hlt : ∀ y ∈ m, k < y.1 := fun y hy => Memory.lt_of_mem h hy
    simp only [Memory.write]
    split
    · rename_i hak
      have hbefore : Memory.read ((k, d) :: m) a = Memory.unlisted := by
        apply Memory.read_before
        intro y hy
        rcases List.mem_cons.mp hy with rfl | hy
        · exact hak
        · exact Nat.lt_trans hak (hlt y hy)
      split
      · rename_i hb
        split
        · rename_i hc; rw [hc, hbefore, hb]
        · rfl
      · simp only [Memory.read]
    · rename_i hak
      split
      · rename_i hk
        subst hk
        split
        · rename_i hb
          by_cases hc : c = a
          · subst hc
            simp [hb, Memory.read_before hlt]
          · simp [Memory.read, hc]
        · by_cases hc : c = a <;> simp [Memory.read, hc]
      · rename_i hk
        simp only [Memory.read]
        by_cases hc : c = k
        · have : c ≠ a := fun e => hk (by omega)
          simp [hc] at this ⊢
          simp [this]
        · simp [hc, ih (Memory.wf_tail h)]

theorem Memory.read_write_same {m : Memory} (h : Memory.wf m) (a : Nat) (b : Byte) :
    Memory.read (Memory.write m a b) a = b := by simp [Memory.read_write h]

theorem Memory.read_write_ne {m : Memory} (h : Memory.wf m) {a c : Nat} (b : Byte) (hc : c ≠ a) :
    Memory.read (Memory.write m a b) c = Memory.read m c := by simp [Memory.read_write h, hc]

/-- Every cell of a written buffer is the written one or one of before. -/
theorem Memory.mem_write {m : Memory} {a : Nat} {b : Byte} {x : Host.Cell} (h : x ∈ Memory.write m a b) :
    (x = (a, b) ∧ b ≠ Memory.unlisted) ∨ x ∈ m := by
  induction m with
  | nil =>
    by_cases hb : b = Memory.unlisted
    · simp [Memory.write, hb] at h
    · simp [Memory.write, hb] at h; exact .inl ⟨h, hb⟩
  | cons y m ih =>
    obtain ⟨k, d⟩ := y
    simp only [Memory.write] at h
    split at h
    · split at h
      · exact .inr h
      · rename_i hb
        rcases List.mem_cons.mp h with h | h
        · exact .inl ⟨h, hb⟩
        · exact .inr h
    · split at h
      · split at h
        · exact .inr (List.mem_cons_of_mem _ h)
        · rename_i hb
          rcases List.mem_cons.mp h with h | h
          · exact .inl ⟨h, hb⟩
          · exact .inr (List.mem_cons_of_mem _ h)
      · rcases List.mem_cons.mp h with h | h
        · exact .inr (by simp [h])
        · rcases ih h with h | h
          · exact .inl h
          · exact .inr (List.mem_cons_of_mem _ h)

/-- A write keeps the canonical form. -/
theorem Memory.wf_write {m : Memory} (h : Memory.wf m) (a : Nat) (b : Byte) : Memory.wf (Memory.write m a b) := by
  refine ⟨?_, ?_⟩
  · induction m with
    | nil => by_cases hb : b = Memory.unlisted <;> simp [Memory.write, hb]
    | cons x m ih =>
      obtain ⟨k, d⟩ := x
      have hlt : ∀ y ∈ m, k < y.1 := fun y hy => Memory.lt_of_mem h hy
      simp only [Memory.write]
      split
      · rename_i hak
        split
        · exact h.1
        · refine List.pairwise_cons.mpr ⟨?_, h.1⟩
          intro y hy
          rcases List.mem_cons.mp hy with rfl | hy
          · exact hak
          · exact Nat.lt_trans hak (hlt y hy)
      · split
        · rename_i hk
          subst hk
          split
          · exact (Memory.wf_tail h).1
          · exact List.pairwise_cons.mpr ⟨hlt, (Memory.wf_tail h).1⟩
        · refine List.pairwise_cons.mpr ⟨?_, ih (Memory.wf_tail h)⟩
          intro y hy
          rcases Memory.mem_write hy with ⟨rfl, -⟩ | hy
          · show k < a; omega
          · exact hlt y hy
  · intro x hx
    rcases Memory.mem_write hx with ⟨rfl, hb⟩ | hx
    · exact hb
    · exact h.2 x hx

theorem Memory.below_write {m : Memory} {cap a : Nat} (h : Memory.below cap m) (ha : a < cap) (b : Byte) :
    Memory.below cap (Memory.write m a b) := by
  intro x hx
  rcases Memory.mem_write hx with ⟨rfl, -⟩ | hx
  · exact ha
  · exact h x hx

theorem Memory.read_above {m : Memory} {cap a : Nat} (h : Memory.below cap m) (ha : cap ≤ a) :
    Memory.read m a = Memory.unlisted :=
  Memory.read_of_not_listed (fun x hx => by have := h x hx; omega)

/-- Two buffers in canonical form whose bytes all agree are equal. -/
theorem Memory.ext {m m' : Memory} (h : Memory.wf m) (h' : Memory.wf m')
    (e : ∀ a, Memory.read m a = Memory.read m' a) : m = m' := by
  induction m generalizing m' with
  | nil =>
    cases m' with
    | nil => rfl
    | cons y m' => exact absurd (by simpa [Memory.read] using (e y.1).symm) (h'.2 y (by simp))
  | cons x m ih =>
    obtain ⟨k, b⟩ := x
    have hb : b ≠ Memory.unlisted := h.2 (k, b) (by simp)
    have hlt : ∀ y ∈ m, k < y.1 := fun y hy => Memory.lt_of_mem h hy
    cases m' with
    | nil => exact absurd (by simpa [Memory.read] using e k) hb
    | cons y m' =>
      obtain ⟨k', b'⟩ := y
      have hb' : b' ≠ Memory.unlisted := h'.2 (k', b') (by simp)
      have hlt' : ∀ y ∈ m', k' < y.1 := fun y hy => Memory.lt_of_mem h' hy
      have hk : k = k' := by
        rcases Nat.lt_trichotomy k k' with hkk | hkk | hkk
        · have hr : Memory.read ((k', b') :: m') k = Memory.unlisted := by
            apply Memory.read_before
            intro z hz
            rcases List.mem_cons.mp hz with rfl | hz
            · exact hkk
            · exact Nat.lt_trans hkk (hlt' z hz)
          exact absurd (by have := e k; rw [hr] at this; simpa [Memory.read] using this) hb
        · exact hkk
        · have hr : Memory.read ((k, b) :: m) k' = Memory.unlisted := by
            apply Memory.read_before
            intro z hz
            rcases List.mem_cons.mp hz with rfl | hz
            · exact hkk
            · exact Nat.lt_trans hkk (hlt z hz)
          exact absurd (by have := e k'; rw [hr] at this; simpa [Memory.read] using this.symm) hb'
      subst hk
      have hbb : b = b' := by simpa [Memory.read] using e k
      have hm : m = m' := by
        apply ih (Memory.wf_tail h) (Memory.wf_tail h')
        intro a
        by_cases ha : a = k
        · rw [ha, Memory.read_before hlt, Memory.read_before hlt']
        · simpa [Memory.read, ha] using e a
      rw [hbb, hm]

/-! ## Strings of bytes -/

@[simp] theorem Memory.writeBytes_nil (m : Memory) (a : Nat) : Memory.writeBytes m a [] = m := rfl

@[simp] theorem Memory.writeBytes_cons (m : Memory) (a : Nat) (b : Byte) (bs : List Byte) :
    Memory.writeBytes m a (b :: bs) = Memory.writeBytes (Memory.write m a b) (a + 1) bs := rfl

theorem Memory.wf_writeBytes {m : Memory} (h : Memory.wf m) (a : Nat) (bs : List Byte) :
    Memory.wf (Memory.writeBytes m a bs) := by
  induction bs generalizing m a with
  | nil => exact h
  | cons b bs ih => exact ih (Memory.wf_write h a b) (a + 1)

theorem Memory.below_writeBytes {m : Memory} {cap a : Nat} {bs : List Byte} (h : Memory.below cap m)
    (ha : a + bs.length ≤ cap) : Memory.below cap (Memory.writeBytes m a bs) := by
  induction bs generalizing m a with
  | nil => exact h
  | cons b bs ih =>
    simp only [List.length_cons] at ha
    exact ih (Memory.below_write h (by omega) b) (by omega)

/-- A read after storing bytes: the stored byte inside their extent, the byte before outside. -/
theorem Memory.read_writeBytes {m : Memory} (h : Memory.wf m) (a : Nat) (bs : List Byte) (c : Nat) :
    Memory.read (Memory.writeBytes m a bs) c =
      if a ≤ c ∧ c < a + bs.length then bs.getD (c - a) 0#8 else Memory.read m c := by
  induction bs generalizing m a with
  | nil =>
    have : ¬ (a ≤ c ∧ c < a + ([] : List Byte).length) := by simp
    rw [if_neg this, Memory.writeBytes_nil]
  | cons b bs ih =>
    rw [Memory.writeBytes_cons, ih (Memory.wf_write h a b), Memory.read_write h, List.length_cons]
    by_cases h1 : c = a
    · subst h1; simp
    · by_cases h2 : a + 1 ≤ c ∧ c < a + 1 + bs.length
      · have h3 : a ≤ c ∧ c < a + (bs.length + 1) := by omega
        have h4 : c - a = (c - (a + 1)) + 1 := by omega
        simp [h2, h3, h4]
      · have h3 : ¬ (a ≤ c ∧ c < a + (bs.length + 1)) := by omega
        rw [if_neg h2, if_neg h3, if_neg h1]

theorem Memory.read_writeBytes_outside {m : Memory} (h : Memory.wf m) {a c : Nat} {bs : List Byte}
    (hc : c < a ∨ a + bs.length ≤ c) : Memory.read (Memory.writeBytes m a bs) c = Memory.read m c := by
  rw [Memory.read_writeBytes h, if_neg (by omega)]

@[simp] theorem Memory.length_readBytes (m : Memory) (a n : Nat) : (Memory.readBytes m a n).length = n := by
  simp [Memory.readBytes]

theorem Memory.getD_readBytes (m : Memory) (a n i : Nat) (h : i < n) :
    (Memory.readBytes m a n).getD i 0#8 = Memory.read m (a + i) := by
  simp [Memory.readBytes, List.getD, h]

/-- Storing bytes and reading the extent back gives the bytes. -/
theorem Memory.readBytes_writeBytes {m : Memory} (h : Memory.wf m) (a : Nat) (bs : List Byte) :
    Memory.readBytes (Memory.writeBytes m a bs) a bs.length = bs := by
  apply List.ext_getElem (by simp)
  intro i h1 h2
  simp only [Memory.readBytes, List.getElem_map, List.getElem_range]
  rw [Memory.read_writeBytes h, if_pos (by omega)]
  simp [List.getD, h2]

theorem Memory.wf_ofFn (n : Nat) (f : Nat → Byte) : Memory.wf (Memory.ofFn n f) :=
  Memory.wf_writeBytes Memory.wf_nil _ _

theorem Memory.below_ofFn (n : Nat) (f : Nat → Byte) : Memory.below n (Memory.ofFn n f) :=
  Memory.below_writeBytes (by intro x hx; simp at hx) (by simp)

theorem Memory.read_ofFn (n : Nat) (f : Nat → Byte) {i : Nat} (h : i < n) :
    Memory.read (Memory.ofFn n f) i = f i := by
  rw [Memory.ofFn, Memory.read_writeBytes Memory.wf_nil]
  simp [h, List.getD]

/-! ## Free buffers -/

theorem wf_freeIbuf (tick cap : Nat) : Memory.wf (freeIbuf tick cap) := Memory.wf_ofFn _ _
theorem wf_freeObuf (tick cap : Nat) : Memory.wf (freeObuf tick cap) := Memory.wf_ofFn _ _
theorem below_freeIbuf (tick cap : Nat) : Memory.below cap (freeIbuf tick cap) := Memory.below_ofFn _ _
theorem below_freeObuf (tick cap : Nat) : Memory.below cap (freeObuf tick cap) := Memory.below_ofFn _ _

end Sys2Proof.Machine
end

