-- ==== Sys2Proof/Laws/Tables.lean ====
section
/-! SUPPORT. The laws of the tables FREQ, NODE and CODE: an entry after a write, the empty tables, tables
with equal entries, and the counts FREQ makes. -/

namespace Sys2Proof.Machine

/-! ## Symbols -/

theorem mem_symbols (s : Byte) : s ∈ symbols := by
  simp only [symbols, List.mem_map, List.mem_range]
  exact ⟨s.toNat, s.isLt, by simp⟩

theorem length_symbols : symbols.length = 256 := by simp [symbols]

/-- The symbols come in ascending order. -/
theorem symbols_ascending : symbols.Pairwise (fun a b => a.toNat < b.toNat) := by
  rw [symbols, List.pairwise_map]
  refine List.Pairwise.imp_of_mem ?_ (List.pairwise_lt_range (n := 256))
  intro a b ha hb hab
  simp only [List.mem_range] at ha hb
  simpa [Nat.mod_eq_of_lt ha, Nat.mod_eq_of_lt hb] using hab

theorem nodup_symbols : symbols.Nodup :=
  symbols_ascending.imp (fun h e => by rw [e] at h; exact Nat.lt_irrefl _ h)

/-! ## FREQ -/

@[simp] theorem freqOf_zeroFreq (s : Byte) : freqOf zeroFreq s = 0#32 := by
  simp [freqOf, zeroFreq]

theorem freqOf_setFreq (t : FreqTable) (a : Byte) (v : Word) (b : Byte) :
    freqOf (setFreq t a v) b = if b = a then v else freqOf t b := by
  by_cases h : b = a
  · subst h; simp [freqOf, setFreq]
  · have : a.toNat ≠ b.toNat := fun e => h (BitVec.eq_of_toNat_eq e.symm)
    simp [freqOf, setFreq, h, Vector.getElem_set_ne _ _ this]

theorem freqTable_ext {t t' : FreqTable} (h : ∀ s, freqOf t s = freqOf t' s) : t = t' := by
  apply Vector.ext
  intro i hi
  have := h (BitVec.ofNat 8 i)
  simpa [freqOf, Nat.mod_eq_of_lt hi] using this

theorem freqOf_bump (t : FreqTable) (a b : Byte) :
    freqOf (bump t a) b = if b = a then freqOf t a + 1#32 else freqOf t b := freqOf_setFreq _ _ _ _

/-- The count of a symbol, as the counter holds it. -/
theorem freqOf_countBytes (bytes : List Byte) (s : Byte) :
    freqOf (countBytes bytes) s = BitVec.ofNat 32 (bytes.count s) := by
  have gen : ∀ (t : FreqTable), freqOf (bytes.foldl bump t) s = freqOf t s + BitVec.ofNat 32 (bytes.count s) := by
    induction bytes with
    | nil => intro t; simp
    | cons b bs ih =>
      intro t
      rw [List.foldl_cons, ih, freqOf_bump, List.count_cons]
      by_cases h : s = b
      · subst h
        simp [BitVec.ofNat_add]; ac_rfl
      · have : ¬ b = s := fun e => h e.symm
        simp [h, this]
  simpa [countBytes] using gen zeroFreq

/-! ## CODE -/

@[simp] theorem codeOf_emptyCode (s : Byte) : codeOf emptyCode s = [] := by
  simp [codeOf, emptyCode]

theorem codeOf_setCode (t : CodeTable) (a : Byte) (c : Code) (b : Byte) :
    codeOf (setCode t a c) b = if b = a then c else codeOf t b := by
  by_cases h : b = a
  · subst h; simp [codeOf, setCode]
  · have : a.toNat ≠ b.toNat := fun e => h (BitVec.eq_of_toNat_eq e.symm)
    simp [codeOf, setCode, h, Vector.getElem_set_ne _ _ this]

theorem codeTable_ext {t t' : CodeTable} (h : ∀ s, codeOf t s = codeOf t' s) : t = t' := by
  apply Vector.ext
  intro i hi
  have := h (BitVec.ofNat 8 i)
  simpa [codeOf, Nat.mod_eq_of_lt hi] using this

/-- A free CODE entry is at most 255 bits long (U2). -/
theorem freeCode_lengths (tick : Nat) (s : Byte) : (codeOf (freeCode tick) s).length ≤ Config.maxLen := by
  simp [codeOf, freeCode, List.length_take]

/-- Some symbol has the code `a`, and it is not the empty one, exactly when `a` has a reverse lookup. -/
theorem rev_isSome_iff (t : CodeTable) (a : Bits) :
    (rev t a).isSome = true ↔ a ≠ [] ∧ ∃ s, codeOf t s = a := by
  by_cases h : a = []
  · simp [rev, h]
  · simp only [rev, h, if_false, List.find?_isSome, beq_iff_eq]
    exact ⟨fun ⟨s, _, hs⟩ => ⟨h, s, hs⟩, fun ⟨_, s, hs⟩ => ⟨s, mem_symbols s, hs⟩⟩

/-- The symbol a reverse lookup answers has that code. -/
theorem codeOf_of_rev {t : CodeTable} {a : Bits} {s : Byte} (h : rev t a = some s) :
    a ≠ [] ∧ codeOf t s = a := by
  by_cases h0 : a = []
  · simp [rev, h0] at h
  · simp only [rev, h0, if_false] at h
    exact ⟨h0, by simpa using List.find?_some h⟩

/-- With distinct codes the reverse lookup is the exact inverse of the table (rules R52, R201). -/
theorem rev_codeOf {t : CodeTable} (d : CodesDistinct t) {s : Byte} (h : codeOf t s ≠ []) :
    rev t (codeOf t s) = some s := by
  have hs : (rev t (codeOf t s)).isSome = true := (rev_isSome_iff t _).mpr ⟨h, s, rfl⟩
  obtain ⟨u, hu⟩ := Option.isSome_iff_exists.mp hs
  have := (codeOf_of_rev hu).2
  rw [hu, d s u h this.symm]

theorem hasCode_iff (t : CodeTable) (a : Bits) : hasCode t a = true ↔ ∃ s, codeOf t s = a := by
  simp only [hasCode, List.any_eq_true, beq_iff_eq]
  exact ⟨fun ⟨s, _, h⟩ => ⟨s, h⟩, fun ⟨s, h⟩ => ⟨s, mem_symbols s, h⟩⟩

/-! ## NODE -/

@[simp] theorem nodeAt_zeroNode (i : Nat) : nodeAt zeroNode i = Node.zero := by
  by_cases h : i < 511 <;> simp [nodeAt, zeroNode, h]

theorem nodeAt_setNode (m : NodeMemory) {i : Nat} (hi : i < 511) (n : Node) (j : Nat) :
    nodeAt (setNode m i n) j = if j = i then n else nodeAt m j := by
  by_cases h : j = i
  · subst h; simp [nodeAt, setNode, hi]
  · have hij : i ≠ j := fun e => h e.symm
    by_cases hj : j < 511 <;> simp [nodeAt, setNode, h, hj, hij]

theorem nodeMemory_ext {m m' : NodeMemory} (h : ∀ i, nodeAt m i = nodeAt m' i) : m = m' := by
  apply Vector.ext
  intro i hi
  simpa [nodeAt, hi] using h i

end Sys2Proof.Machine
end

