-- ==== Sys2Proof/Laws/Bits.lean ====
section
/-! SUPPORT. The laws of bits and bytes: `ceil8`, most-significant-first words, packing and unpacking,
and the sizes of the container's parts. -/

namespace Sys2Proof.Machine

/-! ## ceil8 (rule R12) -/

@[simp] theorem ceil8_zero : ceil8 0 = 0 := rfl

theorem le_eight_ceil8 (b : Nat) : b ≤ 8 * ceil8 b := by unfold ceil8; omega

theorem ceil8_le_iff (b n : Nat) : ceil8 b ≤ n ↔ b ≤ 8 * n := by unfold ceil8; omega

theorem ceil8_mono {a b : Nat} (h : a ≤ b) : ceil8 a ≤ ceil8 b := by unfold ceil8; omega

theorem ceil8_le_self (b : Nat) : ceil8 b ≤ b := by unfold ceil8; omega

theorem ceil8_pos {b : Nat} (h : b ≠ 0) : 0 < ceil8 b := by unfold ceil8; omega

/-! ## Most significant bit first (rule R76) -/

/-- Bit `k` from the top of a word written most significant bit first is `f k`. -/
theorem getMsbD_msbFirst (w : Nat) (f : Nat → Bool) (k : Nat) (h : k < w) :
    (msbFirst w f).getMsbD k = f k := by
  induction w with
  | zero => omega
  | succ w ih =>
    rw [BitVec.getMsbD_eq_getLsbD]
    simp only [h, decide_true, Bool.true_and, msbFirst]
    by_cases hk : k = w
    · subst hk; simp
    · have hlt : k < w := by omega
      have e : w + 1 - 1 - k = (w - 1 - k) + 1 := by omega
      rw [e, BitVec.getLsbD_concat_succ, ← ih hlt, BitVec.getMsbD_eq_getLsbD]
      simp [hlt]

theorem getLsbD_msbFirst (w : Nat) (f : Nat → Bool) (k : Nat) (h : k < w) :
    (msbFirst w f).getLsbD (w - 1 - k) = f k := by
  rw [← getMsbD_msbFirst w f k h, BitVec.getMsbD_eq_getLsbD]; simp [h]

/-! ## Bit sequences -/

@[simp] theorem bitAt_lt {q : Bits} {i : Nat} (h : i < q.length) : bitAt q i = q[i] := by
  simp [bitAt, List.getD, h]

@[simp] theorem bitAt_ge {q : Bits} {i : Nat} (h : q.length ≤ i) : bitAt q i = false := by
  simp [bitAt, List.getD, h]

/-! ## Packing and unpacking (rules R131, R133) -/

@[simp] theorem length_packBits (q : Bits) : (packBits q).length = ceil8 q.length := by simp [packBits]

@[simp] theorem packBits_nil : packBits [] = [] := rfl

theorem packBits_getD (q : Bits) {j : Nat} (h : j < ceil8 q.length) :
    (packBits q).getD j 0#8 = packByte q j := by
  simp [packBits, List.getD, h]

/-- Element `8j + k` of a sequence is bit `7 - k` of byte `j` of its packed form. -/
theorem getLsbD_packByte (q : Bits) (j k : Nat) (h : k < 8) :
    (packByte q j).getLsbD (7 - k) = bitAt q (8 * j + k) :=
  getLsbD_msbFirst 8 (fun k => bitAt q (8 * j + k)) k h

@[simp] theorem length_unpackBits (y : List Byte) (b : Nat) : (unpackBits y b).length = b := by
  simp [unpackBits]

theorem unpackBits_getElem (y : List Byte) (b i : Nat) (h : i < (unpackBits y b).length) :
    (unpackBits y b)[i] = unpackBit y i := by simp [unpackBits]

/-- An element of a packed sequence is read back at its place. -/
theorem unpackBit_packBits (q : Bits) {i : Nat} (h : i < q.length) : unpackBit (packBits q) i = q[i] := by
  have hj : i / 8 < ceil8 q.length := by unfold ceil8; omega
  rw [unpackBit, packBits_getD q hj, getLsbD_packByte q (i / 8) (i % 8) (by omega)]
  have e : 8 * (i / 8) + i % 8 = i := by omega
  rw [e, bitAt_lt h]

/-- Unpacking reads only the first `ceil8(b)` bytes. -/
theorem unpackBits_congr {y z : List Byte} {b : Nat} (h : ∀ j < ceil8 b, y.getD j 0#8 = z.getD j 0#8) :
    unpackBits y b = unpackBits z b := by
  apply List.map_congr_left
  intro i hi
  have : i / 8 < ceil8 b := by have := List.mem_range.mp hi; unfold ceil8; omega
  rw [unpackBit, unpackBit, h _ this]

/-! ## The streaming packer (rule R141) -/

/-- Every bit is counted, modulo 8. -/
@[simp] theorem Packer.push_count (p : Packer) (b : Bool) : (p.push b).count = p.count + 1#3 := by
  unfold Packer.push
  split
  · rename_i h; rw [h]; rfl
  · rfl

/-- An arriving bit completes a byte, or it joins the partial byte. -/
theorem Packer.push_cases (p : Packer) (b : Bool) :
    (p.count = 7#3 ∧ (p.push b).emitted = p.emitted ++ [p.held.concat b] ∧ (p.push b).held = 0#7) ∨
    (p.count ≠ 7#3 ∧ (p.push b).emitted = p.emitted ∧ (p.push b).held = (p.held.concat b).setWidth 7) := by
  by_cases h : p.count = 7#3 <;> simp [Packer.push, h]

/-- At the end the partial byte is 0 bits long. -/
@[simp] theorem Packer.finish_count (p : Packer) : p.finish.count = 0#3 := by
  unfold Packer.finish
  split
  · assumption
  · rfl

@[simp] theorem byteBit_bitByte (b : Bool) : byteBit (bitByte b) = b := by cases b <;> rfl

/-! ## The container's sizes (rules R216, R222) -/

@[simp] theorem length_headerBytes (b : Nat) : (headerBytes b).length = 4 := rfl

@[simp] theorem length_entryBytes (s : Byte) (c : Code) : (entryBytes s c).length = 2 + ceil8 c.length := by
  simp [entryBytes]; omega

/-- The table of a container has the size SER computes. -/
theorem length_tableBytes (c : CodeTable) : (tableBytes c).length = tableSize c := by
  rw [tableBytes, tableSize, List.length_flatMap]
  congr 1
  apply List.map_congr_left
  intro s _
  split <;> simp

theorem length_containerBytes (b : Nat) (y : List Byte) (c : CodeTable) :
    (containerBytes b y c).length = 4 + y.length + tableSize c := by
  simp [containerBytes, length_tableBytes]; omega

/-- The largest table has 256 entries of 34 bytes (rule R222). -/
theorem tableSize_le {c : CodeTable} (h : CodeLengthsLegal c) : tableSize c ≤ 8704 := by
  have key : ∀ l : List Byte,
      (l.map (fun s => if codeOf c s = [] then 0 else 2 + ceil8 (codeOf c s).length)).sum ≤ 34 * l.length := by
    intro l
    induction l with
    | nil => simp
    | cons s l ih =>
      have hs : (if codeOf c s = [] then 0 else 2 + ceil8 (codeOf c s).length) ≤ 34 := by
        split
        · omega
        · have := h s
          have : ceil8 (codeOf c s).length ≤ 32 := by
            rw [ceil8_le_iff]; simp only [Config.maxLen] at this; omega
          omega
      simp only [List.map_cons, List.sum_cons, List.length_cons]
      omega
  have := key symbols
  rw [length_symbols] at this
  exact this

end Sys2Proof.Machine
end

