-- ==== Sys2Proof/Laws/Ops.lean ====
section
/-! SUPPORT. What each shared operation and each command's rule can do, said once: if it completes, then
this; if it raises, then one of these. -/

namespace Sys2Proof.Machine

/-! ## The engine step of a command -/

theorem runCommand_ok {ws : List Loc} {body : State → Body} {s t : State} (h : body s = .ok t) :
    runCommand ws body s = .next (complete t) := by simp [runCommand, h]

theorem runCommand_error {ws : List Loc} {body : State → Body} {s : State} {r : Raise} (h : body s = .error r) :
    runCommand ws body s = .next (faultEntry ws r s) := by simp [runCommand, h]

/-- A command completes with what its rule gives, or enters the fault its rule raises. -/
theorem runCommand_cases {ws : List Loc} {body : State → Body} {s t : State}
    (h : runCommand ws body s = .next t) :
    (∃ u, body s = .ok u ∧ t = complete u) ∨ (∃ r, body s = .error r ∧ t = faultEntry ws r s) := by
  cases hb : body s with
  | ok u => rw [runCommand_ok hb] at h; exact .inl ⟨u, rfl, by injection h with h; exact h.symm⟩
  | error r => rw [runCommand_error hb] at h; exact .inr ⟨r, rfl, by injection h with h; exact h.symm⟩

theorem runCommand_total (ws : List Loc) (body : State → Body) (s : State) :
    ∃ t, runCommand ws body s = .next t := by
  cases hb : body s with
  | ok u => exact ⟨_, runCommand_ok hb⟩
  | error r => exact ⟨_, runCommand_error hb⟩

/-- The rule of each command. -/
def bodyOf : Instr → State → Body
  | .nop => nopBody
  | .clr => clrBody
  | .freq => freqBody
  | .build => buildBody
  | .gen => genBody
  | .enc => encBody
  | .dec => decBody
  | .ser => serBody
  | .deser => deserBody
  | .swap => swapBody
  | .pack => packBody
  | .unpack => unpackBody
  | .compress => compressBody
  | .decompress => decompressBody

/-- Every arm of `exec` runs its command's rule with its command's write set. -/
theorem exec_eq (i : Instr) (s : State) : exec i s = runCommand (writeSet i) (bodyOf i) s := by
  cases i <;> rfl

theorem exec_cases {i : Instr} {s t : State} (h : exec i s = .next t) :
    (∃ u, bodyOf i s = .ok u ∧ t = complete u) ∨
      (∃ r, bodyOf i s = .error r ∧ t = faultEntry (writeSet i) r s) :=
  runCommand_cases (exec_eq i s ▸ h)

theorem exec_of_ok {i : Instr} {s t : State} (h : bodyOf i s = .ok t) : exec i s = .next (complete t) := by
  rw [exec_eq, runCommand_ok h]

theorem exec_of_error {i : Instr} {s : State} {r : Raise} (h : bodyOf i s = .error r) :
    exec i s = .next (faultEntry (writeSet i) r s) := by rw [exec_eq, runCommand_error h]

/-- `FaultsWith` says exactly which raise the command's rule ends in: fault entry hides neither the cause,
nor the detail, nor the phase. -/
theorem faultsWith_iff {i : Instr} {s : State} {c : Cause} {info : Nat} {p : Phase} :
    FaultsWith i s c info p ↔ bodyOf i s = .error ⟨c, BitVec.ofNat 32 info, p⟩ := by
  refine ⟨fun h => ?_, fun h => exec_of_error h⟩
  rcases exec_cases h with ⟨u, _, e⟩ | ⟨⟨c', info', p'⟩, hr, e⟩
  · exact Bool.noConfusion (congrArg State.done e)
  · have h1 := congrArg State.faultCode e
    have h2 := congrArg State.faultInfo e
    have h3 := congrArg State.freeTick e
    simp only [faultEntry, Option.some.injEq] at h1 h2
    rw [hr, h1, h2]
    cases p <;> cases p' <;> simp [faultEntry, spoil, scramble] at h3 ⊢

/-! ## The operand checks -/

theorem checkIn_pass {s : State} (h : inputLength s ≤ s.bufCap) (rest : Body) : checkIn s rest = rest := by
  simp [checkIn, Nat.not_lt.mpr h]

theorem checkIn_raise {s : State} (h : s.bufCap < inputLength s) (rest : Body) :
    checkIn s rest = .error ⟨.capacityExceeded, s.inLen, .early⟩ := by
  rw [checkIn, if_pos h]; simp [raiseEarly, inputLength]

theorem checkIn_ok {s t : State} {rest : Body} (h : checkIn s rest = .ok t) :
    inputLength s ≤ s.bufCap ∧ rest = .ok t := by
  by_cases hc : s.bufCap < inputLength s
  · rw [checkIn_raise hc] at h; cases h
  · rw [checkIn_pass (Nat.not_lt.mp hc)] at h; exact ⟨Nat.not_lt.mp hc, h⟩

theorem checkIn_error {s : State} {rest : Body} {r : Raise} (h : checkIn s rest = .error r) :
    (s.bufCap < inputLength s ∧ r = ⟨.capacityExceeded, s.inLen, .early⟩) ∨
      (inputLength s ≤ s.bufCap ∧ rest = .error r) := by
  by_cases hc : s.bufCap < inputLength s
  · rw [checkIn_raise hc] at h; exact .inl ⟨hc, by injection h with h; exact h.symm⟩
  · rw [checkIn_pass (Nat.not_lt.mp hc)] at h; exact .inr ⟨Nat.not_lt.mp hc, h⟩

/-- The three checks of a packed payload pass. -/
theorem withPayload_pass {s : State} (h1 : inputLength s ≤ s.bufCap) (h2 : s.bitCnt.msb = false)
    (h3 : ceil8 s.bitCnt.toNat ≤ inputLength s) (rest : Nat → List Byte → Body) :
    withPayload s rest = rest s.bitCnt.toNat (inputPart s (ceil8 s.bitCnt.toNat)) := by
  simp [withPayload, checkIn_pass h1, withBitCount, h2, Nat.not_lt.mpr h3]

/-- If the rule after a packed payload completes, the three checks passed. -/
theorem withPayload_ok {s t : State} {rest : Nat → List Byte → Body} (h : withPayload s rest = .ok t) :
    inputLength s ≤ s.bufCap ∧ s.bitCnt.msb = false ∧ ceil8 s.bitCnt.toNat ≤ inputLength s ∧
      rest s.bitCnt.toNat (inputPart s (ceil8 s.bitCnt.toNat)) = .ok t := by
  obtain ⟨h1, h⟩ := checkIn_ok h
  simp only [withBitCount] at h
  split at h
  · cases h
  · rename_i h2
    split at h
    · cases h
    · rename_i h3
      exact ⟨h1, by simpa using h2, Nat.not_lt.mp h3, h⟩

/-- If a rule with a packed payload raises, one of the three checks failed, in order, or the rest raised. -/
theorem withPayload_error {s : State} {rest : Nat → List Byte → Body} {r : Raise}
    (h : withPayload s rest = .error r) :
    (s.bufCap < inputLength s ∧ r = ⟨.capacityExceeded, s.inLen, .early⟩) ∨
    (inputLength s ≤ s.bufCap ∧ s.bitCnt.msb = true ∧ r = ⟨.invalidBitCount, s.bitCnt, .early⟩) ∨
    (inputLength s ≤ s.bufCap ∧ s.bitCnt.msb = false ∧ inputLength s < ceil8 s.bitCnt.toNat ∧
      r = ⟨.truncatedInput, 0#32, .early⟩) ∨
    (inputLength s ≤ s.bufCap ∧ s.bitCnt.msb = false ∧ ceil8 s.bitCnt.toNat ≤ inputLength s ∧
      rest s.bitCnt.toNat (inputPart s (ceil8 s.bitCnt.toNat)) = .error r) := by
  rcases checkIn_error h with h | ⟨h1, h⟩
  · exact .inl h
  · simp only [withBitCount, raiseEarly] at h
    split at h
    · rename_i h2
      injection h with h
      exact .inr (.inl ⟨h1, h2, by simp [← h]⟩)
    · rename_i h2
      split at h
      · rename_i h3
        injection h with h
        exact .inr (.inr (.inl ⟨h1, by simpa using h2, h3, by simp [← h]⟩))
      · rename_i h3
        exact .inr (.inr (.inr ⟨h1, by simpa using h2, Nat.not_lt.mp h3, h⟩))

/-- The bits of the packed payload are those of the whole input. -/
theorem unpackBits_inputPart {s : State} (h : ceil8 s.bitCnt.toNat ≤ inputLength s) :
    unpackBits (inputPart s (ceil8 s.bitCnt.toNat)) s.bitCnt.toNat = unpackBits (inputBytes s) s.bitCnt.toNat := by
  apply unpackBits_congr
  intro j hj
  rw [inputPart, inputBytes, Memory.getD_readBytes _ _ _ _ hj, Memory.getD_readBytes _ _ _ _ (by omega)]

/-! ## The loops -/

/-- If the encoder's loop completes, every byte has a code and the stream is the codes in order. -/
theorem encodeFrom_ok {c : CodeTable} {cap i b : Nat} {xs : List Byte} {e e' : Bits}
    (h : encodeFrom c cap i xs e b = .ok e') (hb : b = e.length) :
    e' = e ++ encodedStream c xs ∧ (∀ x ∈ xs, codeOf c x ≠ []) ∧
      (xs ≠ [] → e'.length ≤ Config.bitCntMax ∧ ceil8 e'.length ≤ cap) := by
  induction xs generalizing i b e with
  | nil =>
    simp only [encodeFrom] at h
    injection h with h
    simp [← h, encodedStream]
  | cons x xs ih =>
    simp only [encodeFrom] at h
    split at h
    · cases h
    · rename_i h1
      split at h
      · cases h
      · rename_i h2
        split at h
        · cases h
        · rename_i h3
          obtain ⟨he, hp, hl⟩ := ih h (by simp [hb])
          refine ⟨by simp [he, encodedStream, List.append_assoc], ?_, ?_⟩
          · intro y hy
            rcases List.mem_cons.mp hy with rfl | hy
            · exact h1
            · exact hp y hy
          · intro _
            by_cases hx : xs = []
            · subst hx
              have : e' = e ++ codeOf c x := by simpa [encodedStream] using he
              rw [this, List.length_append, ← hb]
              exact ⟨Nat.not_lt.mp h2, Nat.not_lt.mp h3⟩
            · exact hl hx

/-- The decoder's loop never emits more than the capacity. -/
theorem decodeFrom_length {c : CodeTable} {cap i : Nat} {q acc : Bits} {out out' : List Byte}
    (h : decodeFrom c cap i q acc out = .ok out') (ho : out.length ≤ cap) : out'.length ≤ cap := by
  induction q generalizing i acc out with
  | nil =>
    simp only [decodeFrom] at h
    split at h
    · injection h with h; rw [← h]; exact ho
    · cases h
  | cons b q ih =>
    simp only [decodeFrom] at h
    split at h
    · exact ih h ho
    · split at h
      · cases h
      · rename_i hne
        exact ih h (by simp; omega)

/-! ## The rules of the commands -/

theorem freqBody_ok {s t : State} (h : freqBody s = .ok t) :
    inputLength s ≤ s.bufCap ∧ t = { s with freq := countBytes (inputBytes s) } := by
  obtain ⟨h1, h⟩ := checkIn_ok h
  exact ⟨h1, by injection h with h; exact h.symm⟩

theorem genBody_ok {s t : State} (h : genBody s = .ok t) :
    ∃ c, generateCodes s.node s.nodeCnt s.rootValid s.rootIndex = .ok c ∧ t = { s with code := c } := by
  simp only [genBody] at h
  split at h
  · cases h
  · rename_i c hc; exact ⟨c, hc, by injection h with h; exact h.symm⟩

theorem encBody_ok {s t : State} (h : encBody s = .ok t) :
    inputLength s ≤ s.bufCap ∧ ∃ e, encodeFrom s.code s.bufCap 0 (inputBytes s) [] 0 = .ok e ∧
      t = putBitCount e.length (putOutput (packBits e) s) := by
  obtain ⟨h1, h⟩ := checkIn_ok h
  split at h
  · cases h
  · rename_i e he; exact ⟨h1, e, he, by injection h with h; exact h.symm⟩

theorem decBody_ok {s t : State} (h : decBody s = .ok t) :
    inputLength s ≤ s.bufCap ∧ s.bitCnt.msb = false ∧ ceil8 s.bitCnt.toNat ≤ inputLength s ∧
      ∃ out, decodeFrom s.code s.bufCap 0
          (unpackBits (inputPart s (ceil8 s.bitCnt.toNat)) s.bitCnt.toNat) [] [] = .ok out ∧
        t = putOutput out s := by
  obtain ⟨h1, h2, h3, h⟩ := withPayload_ok h
  split at h
  · cases h
  · rename_i out ho; exact ⟨h1, h2, h3, out, ho, by injection h with h; exact h.symm⟩

theorem serBody_ok {s t : State} (h : serBody s = .ok t) :
    inputLength s ≤ s.bufCap ∧ s.bitCnt.msb = false ∧ ceil8 s.bitCnt.toNat ≤ inputLength s ∧
      4 + ceil8 s.bitCnt.toNat + tableSize s.code ≤ s.bufCap ∧
      t = putOutput (containerBytes s.bitCnt.toNat (inputPart s (ceil8 s.bitCnt.toNat)) s.code) s := by
  obtain ⟨h1, h2, h3, h⟩ := withPayload_ok h
  split at h
  · cases h
  · rename_i h4; exact ⟨h1, h2, h3, Nat.not_lt.mp h4, by injection h with h; exact h.symm⟩

theorem deserBody_ok {s t : State} (h : deserBody s = .ok t) :
    inputLength s ≤ s.bufCap ∧ 4 ≤ inputLength s ∧ (headerWord (inputBytes s)).msb = false ∧
      4 + ceil8 (headerWord (inputBytes s)).toNat ≤ inputLength s ∧
      ∃ c, loadEntries (inputBytes s) (inputLength s) (4 + ceil8 (headerWord (inputBytes s)).toNat)
          emptyCode = .ok c ∧
        t = putBitCount (headerWord (inputBytes s)).toNat
          (putOutput (((inputBytes s).drop 4).take (ceil8 (headerWord (inputBytes s)).toNat))
            { s with code := c }) := by
  obtain ⟨h1, h⟩ := checkIn_ok h
  split at h
  · cases h
  · rename_i h2
    split at h
    · cases h
    · rename_i h3
      split at h
      · cases h
      · rename_i h4
        split at h
        · cases h
        · rename_i c hc
          exact ⟨h1, Nat.not_lt.mp h2, by simpa using h3, Nat.not_lt.mp h4, c, hc,
            by injection h with h; exact h.symm⟩

theorem swapBody_ok {s t : State} (h : swapBody s = .ok t) :
    inputLength s ≤ s.bufCap ∧ t = swapBuffers s := by
  obtain ⟨h1, h⟩ := checkIn_ok h
  exact ⟨h1, by injection h with h; exact h.symm⟩

theorem packBody_ok {s t : State} (h : packBody s = .ok t) :
    inputLength s ≤ s.bufCap ∧
      t = putBitCount (inputLength s) (putOutput (packBits ((inputBytes s).map byteBit)) s) := by
  obtain ⟨h1, h⟩ := checkIn_ok h
  exact ⟨h1, by injection h with h; exact h.symm⟩

theorem unpackBody_ok {s t : State} (h : unpackBody s = .ok t) :
    inputLength s ≤ s.bufCap ∧ s.bitCnt.msb = false ∧ ceil8 s.bitCnt.toNat ≤ inputLength s ∧
      s.bitCnt.toNat ≤ s.bufCap ∧
      t = putOutput ((unpackBits (inputPart s (ceil8 s.bitCnt.toNat)) s.bitCnt.toNat).map bitByte) s := by
  obtain ⟨h1, h2, h3, h⟩ := withPayload_ok h
  split at h
  · cases h
  · rename_i h4; exact ⟨h1, h2, h3, Nat.not_lt.mp h4, by injection h with h; exact h.symm⟩

/-- A composite completes only when both parts do. -/
theorem thenStage_ok {before : Body} {stage : State → Body} {u : State} (h : thenStage before stage = .ok u) :
    ∃ t, before = .ok t ∧ stage t = .ok u := by
  cases hb : before with
  | error r => simp [thenStage, hb] at h
  | ok t =>
    simp only [thenStage, hb] at h
    split at h
    · rename_i v hv; exact ⟨t, rfl, by rw [hv]; exact h⟩
    · cases h

/-- A composite raises what its first failing part raises, late if it is not the first part. -/
theorem thenStage_error {before : Body} {stage : State → Body} {r : Raise}
    (h : thenStage before stage = .error r) :
    before = .error r ∨ ∃ t r', before = .ok t ∧ stage t = .error r' ∧ r = { r' with phase := .late } := by
  cases hb : before with
  | error r' => left; simpa [thenStage, hb] using h
  | ok t =>
    right
    simp only [thenStage, hb] at h
    split at h
    · cases h
    · rename_i r' hr; exact ⟨t, r', rfl, hr, by injection h with h; exact h.symm⟩

theorem thenStage_of_ok {before : Body} {stage : State → Body} {t : State} {u : State} (hb : before = .ok t)
    (hs : stage t = .ok u) : thenStage before stage = .ok u := by simp [thenStage, hb, hs]

/-- What the first part raises, the composite raises. -/
theorem thenStage_of_raise {before : Body} {r : Raise} (hb : before = .error r) (stage : State → Body) :
    thenStage before stage = .error r := by simp [thenStage, hb]

/-- What a later part raises, the composite raises late (rules R246, R274). -/
theorem thenStage_of_late {before : Body} {stage : State → Body} {t : State} {r : Raise} (hb : before = .ok t)
    (hs : stage t = .error r) : thenStage before stage = .error { r with phase := .late } := by
  simp [thenStage, hb, hs]

/-! A stage of COMPRESS gives alike before and after completion: it reads neither BUSY nor DONE. -/

theorem checkIn_complete (s : State) (rest : Body) :
    checkIn (complete s) (rest.map complete) = (checkIn s rest).map complete := by
  unfold checkIn
  by_cases h : inputLength s > s.bufCap
  · rw [if_pos h, if_pos (show inputLength (complete s) > (complete s).bufCap from h)]; rfl
  · rw [if_neg h, if_neg (show ¬ inputLength (complete s) > (complete s).bufCap from h)]

theorem buildBody_complete (s : State) : buildBody (complete s) = (buildBody s).map complete := rfl

theorem genBody_complete (s : State) : genBody (complete s) = (genBody s).map complete := by
  simp only [genBody, complete_node, complete_nodeCnt, complete_rootValid, complete_rootIndex]
  cases generateCodes s.node s.nodeCnt s.rootValid s.rootIndex <;> rfl

theorem encBody_complete (s : State) : encBody (complete s) = (encBody s).map complete := by
  simp only [encBody, ← checkIn_complete]
  congr 1
  show (match encodeFrom s.code s.bufCap 0 (inputBytes s) [] 0 with | .error r => _ | .ok e => _) = _
  cases encodeFrom s.code s.bufCap 0 (inputBytes s) [] 0 <;> rfl

/-- `codesFor` is what FREQ, BUILD and GEN leave in CODE; the three stages change only the tables. -/
theorem codesFor_stages {s : State} {c : CodeTable} (h : codesFor (inputBytes s) = some c)
    (hl : inputLength s ≤ s.bufCap) :
    ∃ a b : State, freqBody s = .ok a ∧ buildBody a = .ok b ∧ genBody b = .ok { b with code := c } ∧
      b = { s with
        freq := b.freq, node := b.node, nodeCnt := b.nodeCnt, rootValid := b.rootValid,
        rootIndex := b.rootIndex } := by
  refine ⟨_, _, checkIn_pass hl _, rfl, ?_, rfl⟩
  simp only [codesFor] at h
  simp only [genBody]
  split
  · rename_i r hr; rw [hr] at h; cases h
  · rename_i c' hc; rw [hc] at h; injection h with h; rw [h]

/-- COMPRESS completes exactly through its six stages. -/
theorem compressBody_ok {s u : State} (h : compressBody s = .ok u) :
    ∃ a b c d e, freqBody s = .ok a ∧ buildBody a = .ok b ∧ genBody b = .ok c ∧ encBody c = .ok d ∧
      swapBody d = .ok e ∧ serBody e = .ok u := by
  obtain ⟨e, h, h6⟩ := thenStage_ok h
  obtain ⟨d, h, h5⟩ := thenStage_ok h
  obtain ⟨c, h, h4⟩ := thenStage_ok h
  obtain ⟨b, h, h3⟩ := thenStage_ok h
  obtain ⟨a, h1, h2⟩ := thenStage_ok h
  exact ⟨a, b, c, d, e, h1, h2, h3, h4, h5, h6⟩

/-- DECOMPRESS completes exactly through its three stages. -/
theorem decompressBody_ok {s u : State} (h : decompressBody s = .ok u) :
    ∃ a b, deserBody s = .ok a ∧ swapBody a = .ok b ∧ decBody b = .ok u := by
  obtain ⟨b, h, h3⟩ := thenStage_ok h
  obtain ⟨a, h1, h2⟩ := thenStage_ok h
  exact ⟨a, b, h1, h2, h3⟩

end Sys2Proof.Machine
end

