-- ==== Sys2Proof/Laws/Forest.lean ====
section
/-! SUPPORT. What the leaf loop and the merge loop of BUILD do: the order of the queue, one merge, and the
invariant both loops keep (rules R160 to R169). -/

namespace Sys2Proof.Machine

/-! ## The order of the queue -/

theorem keyLt_iff (m : NodeMemory) (i j : Nat) : keyLt m i j = true ↔ KeyLess m i j := by
  simp [keyLt, KeyLess, BitVec.lt_def, BitVec.toNat_inj]

theorem KeyLess.trans {m : NodeMemory} {i j k : Nat} (h : KeyLess m i j) (h' : KeyLess m j k) : KeyLess m i k := by
  unfold KeyLess at *; omega

theorem KeyLess.total {m : NodeMemory} {i j : Nat} (h : i ≠ j) : KeyLess m i j ∨ KeyLess m j i := by
  unfold KeyLess; omega

theorem KeyLess.ne {m : NodeMemory} {i j : Nat} (h : KeyLess m i j) : i ≠ j := by
  rintro rfl; unfold KeyLess at h; omega

/-- Keys depend on the two entries alone. -/
theorem KeyLess.congr {m m' : NodeMemory} {i j : Nat} (hi : nodeAt m' i = nodeAt m i) (hj : nodeAt m' j = nodeAt m j) :
    KeyLess m' i j ↔ KeyLess m i j := by unfold KeyLess; rw [hi, hj]

theorem minKey_spec (m : NodeMemory) (b : Nat) (js : List Nat) :
    minKey m b js ∈ b :: js ∧ ∀ j ∈ b :: js, j ≠ minKey m b js → KeyLess m (minKey m b js) j := by
  induction js generalizing b with
  | nil => simp [minKey]
  | cons j js ih =>
    rw [minKey]
    by_cases h : keyLt m j b = true
    · rw [if_pos h]
      obtain ⟨h1, h2⟩ := ih j
      refine ⟨List.mem_cons_of_mem _ h1, ?_⟩
      intro k hk hne
      rcases List.mem_cons.mp hk with rfl | hk
      · by_cases hj : j = minKey m j js
        · rw [← hj]; exact (keyLt_iff m j k).mp h
        · exact (h2 j (by simp) hj).trans ((keyLt_iff m j k).mp h)
      · exact h2 k hk hne
    · rw [if_neg h]
      obtain ⟨h1, h2⟩ := ih b
      refine ⟨?_, ?_⟩
      · rcases List.mem_cons.mp h1 with h1 | h1
        · exact List.mem_cons.mpr (.inl h1)
        · exact List.mem_cons.mpr (.inr (List.mem_cons_of_mem _ h1))
      · intro k hk hne
        rcases List.mem_cons.mp hk with rfl | hk
        · exact h2 k (by simp) hne
        · rcases List.mem_cons.mp hk with rfl | hk
          · by_cases hb : k = b
            · exact h2 k (by simp [hb]) hne
            · have hkb : KeyLess m b k := by
                rcases KeyLess.total (m := m) hb with h' | h'
                · exact absurd ((keyLt_iff m k b).mpr h') h
                · exact h'
              by_cases hm : b = minKey m b js
              · rw [← hm]; exact hkb
              · exact (h2 b (by simp) hm).trans hkb
          · exact h2 k (by simp [hk]) hne

/-- `remove_min(Q)` takes the member with the least key and leaves the others. -/
theorem removeMin_some {m : NodeMemory} {q q' : List Nat} {a : Nat} (h : removeMin m q = some (a, q')) :
    a ∈ q ∧ q' = q.erase a ∧ ∀ j ∈ q, j ≠ a → KeyLess m a j := by
  cases q with
  | nil => cases h
  | cons i is =>
    simp only [removeMin, Option.some.injEq, Prod.mk.injEq] at h
    obtain ⟨rfl, rfl⟩ := h
    exact ⟨(minKey_spec m i is).1, rfl, (minKey_spec m i is).2⟩

theorem removeMin_none {m : NodeMemory} {q : List Nat} (h : removeMin m q = none) : q = [] := by
  cases q with
  | nil => rfl
  | cons i is => cases h

/-! ## The leaf loop -/

/-- The symbols with a count above 0, in ascending order. -/
def presentSymbols (t : FreqTable) : List Byte := symbols.filter (fun x => freqOf t x ≠ 0#32)

theorem length_presentSymbols (t : FreqTable) : (presentSymbols t).length = freqCount t := rfl

theorem freqCount_le (t : FreqTable) : freqCount t ≤ 256 := by
  rw [← length_symbols]; exact List.length_filter_le _ _

theorem mem_presentSymbols (t : FreqTable) (x : Byte) : x ∈ presentSymbols t ↔ freqOf t x ≠ 0#32 := by
  simp [presentSymbols, mem_symbols]

/-- The entry `i` after leaves for the symbols `ps`. -/
def leafEntry (t : FreqTable) (ps : List Byte) (i : Nat) : Node :=
  match ps[i]? with
  | some x => leafNode x (freqOf t x)
  | none => Node.zero

/-- The leaf loop makes one leaf per present symbol, in ascending order, and queues them all. -/
theorem leafForest_spec (t : FreqTable) :
    (leafForest t).n = freqCount t ∧ (leafForest t).queue = List.range (freqCount t) ∧
      ∀ i, nodeAt (leafForest t).node i = leafEntry t (presentSymbols t) i := by
  have key : ∀ (ps qs : List Byte) (w : Forest), qs.length + ps.length ≤ 256 →
      w.n = qs.length → w.queue = List.range qs.length → (∀ i, nodeAt w.node i = leafEntry t qs i) →
      ∃ rs, rs = qs ++ ps.filter (fun x => freqOf t x ≠ 0#32) ∧ (ps.foldl (addLeaf t) w).n = rs.length ∧
        (ps.foldl (addLeaf t) w).queue = List.range rs.length ∧
        ∀ i, nodeAt (ps.foldl (addLeaf t) w).node i = leafEntry t rs i := by
    intro ps
    induction ps with
    | nil => intro qs w _ h1 h2 h3; exact ⟨qs, by simp, h1, h2, h3⟩
    | cons p ps ih =>
      intro qs w hlen h1 h2 h3
      rw [List.length_cons] at hlen
      rw [List.foldl_cons, addLeaf]
      by_cases hp : freqOf t p = 0#32
      · rw [if_pos hp]
        obtain ⟨rs, e, h⟩ := ih qs w (by omega) h1 h2 h3
        exact ⟨rs, by simp [e, hp], h⟩
      · rw [if_neg hp]
        obtain ⟨rs, e, h⟩ := ih (qs ++ [p]) (addNode w (leafNode p (freqOf t p))) (by simp; omega)
          (by simp [addNode, h1]) (by simp [addNode, h1, h2, List.range_succ]) (by
            intro i
            rw [addNode]
            simp only
            rw [nodeAt_setNode _ (by omega), h1]
            by_cases hi : i = qs.length
            · simp [hi, leafEntry]
            · rw [if_neg hi, h3]
              by_cases hlt : i < qs.length
              · simp [leafEntry, List.getElem?_append_left hlt]
              · simp [leafEntry, List.getElem?_eq_none (Nat.not_lt.mp hlt),
                  List.getElem?_eq_none (show (qs ++ [p]).length ≤ i by simp; omega)])
        exact ⟨rs, by simp [e, hp], h⟩
  obtain ⟨rs, e, h1, h2, h3⟩ := key symbols [] ⟨zeroNode, 0, []⟩ (by simp [length_symbols]) rfl rfl
    (by simp [leafEntry])
  rw [List.nil_append] at e
  change rs = presentSymbols t at e
  subst e
  exact ⟨h1, h2, h3⟩

/-! ## The merge loop -/

/-- What holds of the forest between two merges, with `S` leaves. -/
structure ForestInv (S : Nat) (w : Forest) : Prop where
  small : S ≤ 256
  le : S ≤ w.n
  size : w.n + w.queue.length = 2 * S
  /-- the entry made last is queued -/
  last : 0 < S → w.n - 1 ∈ w.queue
  nodup : w.queue.Nodup
  /-- the queue is what exists and is no child -/
  queued : ∀ j, j ∈ w.queue ↔ QueuedBefore w.node S w.n j
  internals : ∀ k, S ≤ k → k < w.n →
    (nodeAt w.node k).kind = .internal ∧ (nodeAt w.node k).sym = 0#8 ∧
    (nodeAt w.node k).freq = (nodeAt w.node (nodeAt w.node k).left.toNat).freq +
      (nodeAt w.node (nodeAt w.node k).right.toNat).freq
  /-- LEFT and RIGHT had the two least keys -/
  merged : ∀ k l r, S ≤ k → k < w.n → l = (nodeAt w.node k).left.toNat → r = (nodeAt w.node k).right.toNat →
    QueuedBefore w.node S k l ∧ QueuedBefore w.node S k r ∧ KeyLess w.node l r ∧
    ∀ j, QueuedBefore w.node S k j → j ≠ l → j ≠ r → KeyLess w.node r j
  rest : ∀ i, w.n ≤ i → nodeAt w.node i = Node.zero

/-- One merge: the two members with the least keys become the children of a new entry. -/
theorem mergeOnce_some {w w' : Forest} (h : mergeOnce w = some w') :
    ∃ a b, a ∈ w.queue ∧ b ∈ w.queue.erase a ∧ (∀ j ∈ w.queue, j ≠ a → KeyLess w.node a j) ∧
      (∀ j ∈ w.queue.erase a, j ≠ b → KeyLess w.node b j) ∧
      w' = addNode ⟨w.node, w.n, (w.queue.erase a).erase b⟩ (internalNode w.node a b) := by
  simp only [mergeOnce] at h
  split at h
  · cases h
  · rename_i a q ha
    split at h
    · cases h
    · rename_i b q' hb
      injection h with h
      obtain ⟨h1, rfl, h3⟩ := removeMin_some ha
      obtain ⟨h4, rfl, h6⟩ := removeMin_some hb
      exact ⟨a, b, h1, h4, h3, h6, h.symm⟩

/-- A merge is not possible exactly when fewer than two members are queued. -/
theorem mergeOnce_none {w : Forest} (h : mergeOnce w = none) : w.queue.length ≤ 1 := by
  simp only [mergeOnce] at h
  split at h
  · rename_i ha
    simp [removeMin_none ha]
  · rename_i a q ha
    split at h
    · rename_i hb
      obtain ⟨h1, rfl, -⟩ := removeMin_some ha
      have := removeMin_none hb
      have h2 := congrArg List.length this
      rw [List.length_erase_of_mem h1] at h2
      simp at h2
      omega
    · cases h

/-- Being queued before `k` depends on the internal entries below `k` alone. -/
theorem QueuedBefore.congr {m m' : NodeMemory} {S k j : Nat}
    (h : ∀ i, S ≤ i → i < k → nodeAt m' i = nodeAt m i) : QueuedBefore m' S k j ↔ QueuedBefore m S k j := by
  unfold QueuedBefore
  constructor
  · rintro ⟨h1, h2⟩
    exact ⟨h1, fun i hi hk => by rw [← h i hi hk]; exact h2 i hi hk⟩
  · rintro ⟨h1, h2⟩
    exact ⟨h1, fun i hi hk => by rw [h i hi hk]; exact h2 i hi hk⟩

/-- A merge keeps the invariant and shortens the queue by one. -/
theorem mergeOnce_inv {S : Nat} {w w' : Forest} (inv : ForestInv S w) (h : mergeOnce w = some w') :
    ForestInv S w' ∧ w'.queue.length + 1 = w.queue.length ∧ w'.queue ≠ [] ∧
      (∀ i < w.n, nodeAt w'.node i = nodeAt w.node i) := by
  obtain ⟨a, b, ha, hb, hla, hlb, rfl⟩ := mergeOnce_some h
  have hbq : b ∈ w.queue := List.mem_of_mem_erase hb
  have hab : a ≠ b := by
    rintro rfl
    exact (List.Nodup.not_mem_erase inv.nodup) hb
  have hlen2 : 2 ≤ w.queue.length := by
    have h1 := List.length_erase_of_mem ha
    have h2 := List.length_pos_of_mem hb
    omega
  have hn : w.n < 511 := by have := inv.small; have := inv.size; omega
  have han : a < w.n := ((inv.queued a).mp ha).1
  have hbn : b < w.n := ((inv.queued b).mp hbq).1
  have hSpos : 0 < S := by have := inv.size; omega
  set x := internalNode w.node a b with hx
  have hnode (i : Nat) : nodeAt (addNode ⟨w.node, w.n, (w.queue.erase a).erase b⟩ x).node i =
      if i = w.n then x else nodeAt w.node i := nodeAt_setNode w.node hn x i
  have hold (i : Nat) (hi : i < w.n) : nodeAt (addNode ⟨w.node, w.n, (w.queue.erase a).erase b⟩ x).node i =
      nodeAt w.node i := by rw [hnode, if_neg (by omega)]
  have hxl : x.left.toNat = a := by simp [hx, internalNode]; omega
  have hxr : x.right.toNat = b := by simp [hx, internalNode]; omega
  have hq (j : Nat) : j ∈ (w.queue.erase a).erase b ↔ j ∈ w.queue ∧ j ≠ a ∧ j ≠ b := by
    rw [List.Nodup.mem_erase_iff (inv.nodup.erase a), List.Nodup.mem_erase_iff inv.nodup]
    tauto
  have hqn : w.n ∉ w.queue := fun hm => Nat.lt_irrefl _ ((inv.queued _).mp hm).1
  have hsz : ((w.queue.erase a).erase b).length = w.queue.length - 2 := by
    rw [List.length_erase_of_mem hb, List.length_erase_of_mem ha]; omega
  refine ⟨?_, ?_, ?_, hold⟩
  · refine ⟨inv.small, ?_, ?_, ?_, ?_, ?_, ?_, ?_, ?_⟩
    · simp only [addNode]; have := inv.le; omega
    · simp only [addNode, List.length_append, List.length_singleton, hsz]; have := inv.size; omega
    · intro _; simp [addNode]
    · simp only [addNode]
      refine List.Nodup.append ((inv.nodup.erase a).erase b) (by simp) ?_
      intro j hj hj'
      rw [List.mem_singleton] at hj'
      subst hj'
      exact hqn ((hq _).mp hj).1
    · intro j
      simp only [addNode, List.mem_append, List.mem_singleton, hq]
      constructor
      · rintro (⟨h1, h2, h3⟩ | rfl)
        · obtain ⟨h4, h5⟩ := (inv.queued j).mp h1
          refine ⟨by omega, fun i hi hin => ?_⟩
          change (nodeAt (addNode ⟨w.node, w.n, (w.queue.erase a).erase b⟩ x).node i).left.toNat ≠ j ∧
            (nodeAt (addNode ⟨w.node, w.n, (w.queue.erase a).erase b⟩ x).node i).right.toNat ≠ j
          rw [hnode]
          split_ifs with he
          · rw [hxl, hxr]; exact ⟨fun h => h2 h.symm, fun h => h3 h.symm⟩
          · exact h5 i hi (by omega)
        · refine ⟨by omega, fun i hi hin => ?_⟩
          change (nodeAt (addNode ⟨w.node, w.n, (w.queue.erase a).erase b⟩ x).node i).left.toNat ≠ w.n ∧
            (nodeAt (addNode ⟨w.node, w.n, (w.queue.erase a).erase b⟩ x).node i).right.toNat ≠ w.n
          rw [hnode]
          split_ifs with he
          · rw [hxl, hxr]; omega
          · obtain ⟨hl, hr, -⟩ := inv.merged i _ _ hi (by omega) rfl rfl
            have := hl.1
            have := hr.1
            omega
      · rintro ⟨h1, h2⟩
        by_cases hj : j = w.n
        · exact .inr hj
        · left
          have h3 : (nodeAt (addNode ⟨w.node, w.n, (w.queue.erase a).erase b⟩ x).node w.n).left.toNat ≠ j ∧
              (nodeAt (addNode ⟨w.node, w.n, (w.queue.erase a).erase b⟩ x).node w.n).right.toNat ≠ j :=
            h2 w.n inv.le (by omega)
          rw [hnode, if_pos rfl, hxl, hxr] at h3
          refine ⟨(inv.queued j).mpr ⟨by omega, fun i hi hin => ?_⟩, fun h => h3.1 h.symm, fun h => h3.2 h.symm⟩
          have h4 : (nodeAt (addNode ⟨w.node, w.n, (w.queue.erase a).erase b⟩ x).node i).left.toNat ≠ j ∧
              (nodeAt (addNode ⟨w.node, w.n, (w.queue.erase a).erase b⟩ x).node i).right.toNat ≠ j :=
            h2 i hi (by omega)
          rwa [hold i hin] at h4
    · intro k hk hkn
      have hkn' : k < w.n + 1 := hkn
      rw [hnode k]
      split_ifs with he
      · rw [hxl, hxr, hold a han, hold b hbn]
        exact ⟨rfl, rfl, rfl⟩
      · obtain ⟨h1, h2, h3⟩ := inv.internals k hk (by omega)
        obtain ⟨hl, hr, -⟩ := inv.merged k _ _ hk (by omega) rfl rfl
        rw [hold _ (by have := hl.1; omega), hold _ (by have := hr.1; omega)]
        exact ⟨h1, h2, h3⟩
    · intro k l r hk hkn hl hr
      have hkn' : k < w.n + 1 := hkn
      rw [hnode k] at hl hr
      have hQ (j : Nat) : QueuedBefore (addNode ⟨w.node, w.n, (w.queue.erase a).erase b⟩ x).node S k j ↔
          QueuedBefore w.node S k j := QueuedBefore.congr (fun i _ hi => hold i (by omega))
      simp only [hQ]
      by_cases he : k = w.n
      · subst he
        rw [if_pos rfl, hxl] at hl
        rw [if_pos rfl, hxr] at hr
        subst hl hr
        refine ⟨(inv.queued l).mp ha, (inv.queued r).mp hbq, ?_, ?_⟩
        · rw [KeyLess.congr (hold l han) (hold r hbn)]
          exact hla r hbq (fun h => hab h.symm)
        · intro j hj h1 h2
          rw [KeyLess.congr (hold r hbn) (hold j hj.1)]
          exact hlb j ((List.Nodup.mem_erase_iff inv.nodup).mpr ⟨h1, (inv.queued j).mpr hj⟩) h2
      · rw [if_neg he] at hl hr
        obtain ⟨h1, h2, h3, h4⟩ := inv.merged k l r hk (by omega) hl hr
        refine ⟨h1, h2, ?_, ?_⟩
        · rw [KeyLess.congr (hold l (by have := h1.1; omega)) (hold r (by have := h2.1; omega))]
          exact h3
        · intro j hj h5 h6
          rw [KeyLess.congr (hold r (by have := h2.1; omega)) (hold j (by have := hj.1; omega))]
          exact h4 j hj h5 h6
    · intro i hi
      have hi' : w.n + 1 ≤ i := hi
      rw [hnode, if_neg (by omega)]
      exact inv.rest i (by omega)
  · simp only [addNode, List.length_append, List.length_singleton, hsz]; omega
  · simp [addNode]

/-- The forest of leaves satisfies the invariant. -/
theorem leafForest_inv (t : FreqTable) : ForestInv (freqCount t) (leafForest t) := by
  obtain ⟨hn, hq, hnode⟩ := leafForest_spec t
  have hle := freqCount_le t
  refine ⟨hle, hn.ge, ?_, ?_, ?_, ?_, ?_, ?_, ?_⟩
  · rw [hn, hq, List.length_range]; omega
  · intro h; rw [hn, hq, List.mem_range]; omega
  · rw [hq]; exact List.nodup_range
  · intro j
    rw [hq, hn, List.mem_range]
    exact ⟨fun h => ⟨h, fun i hi hin => absurd hin (by omega)⟩, fun h => h.1⟩
  · intro k hk hkn; rw [hn] at hkn; omega
  · intro k l r hk hkn; rw [hn] at hkn; omega
  · intro i hi
    rw [hnode, leafEntry, List.getElem?_eq_none (by rw [length_presentSymbols]; omega)]

/-- With enough passes the merge loop ends with at most one member, keeping the invariant and the leaves. -/
theorem mergeAll_inv {S : Nat} (fuel : Nat) {w : Forest} (inv : ForestInv S w) (h : w.queue.length ≤ fuel + 1) :
    ForestInv S (mergeAll fuel w) ∧ (mergeAll fuel w).queue.length ≤ 1 ∧
      ∀ i < S, nodeAt (mergeAll fuel w).node i = nodeAt w.node i := by
  induction fuel generalizing w with
  | zero => exact ⟨inv, by simpa [mergeAll] using h, fun _ _ => rfl⟩
  | succ n ih =>
    rw [mergeAll]
    cases hm : mergeOnce w with
    | none => exact ⟨inv, mergeOnce_none hm, fun _ _ => rfl⟩
    | some w' =>
      obtain ⟨h1, h2, -, h4⟩ := mergeOnce_inv inv hm
      obtain ⟨h5, h6, h7⟩ := ih h1 (by omega)
      exact ⟨h5, h6, fun i hi => by rw [h7 i hi, h4 i (by have := inv.le; omega)]⟩

/-- The forest BUILD ends with: no entry without a symbol, else `2S - 1` entries and the last one queued. -/
theorem huffmanForest_spec (t : FreqTable) :
    ForestInv (freqCount t) (huffmanForest t) ∧
      ((freqCount t = 0 ∧ (huffmanForest t).n = 0 ∧ (huffmanForest t).queue = []) ∨
       (1 ≤ freqCount t ∧ (huffmanForest t).n = 2 * freqCount t - 1 ∧
        (huffmanForest t).queue = [(huffmanForest t).n - 1])) ∧
      ∀ i < freqCount t, nodeAt (huffmanForest t).node i = leafEntry t (presentSymbols t) i := by
  obtain ⟨inv, h1, h2⟩ := mergeAll_inv (leafForest t).queue.length (leafForest_inv t) (Nat.le_succ _)
  change ForestInv _ (huffmanForest t) at inv
  change (huffmanForest t).queue.length ≤ 1 at h1
  refine ⟨inv, ?_, fun i hi => (h2 i hi).trans ((leafForest_spec t).2.2 i)⟩
  have hs := inv.size
  have hl := inv.le
  rcases Nat.eq_zero_or_pos (freqCount t) with h0 | h0
  · exact .inl ⟨h0, by omega, List.length_eq_zero_iff.mp (by omega)⟩
  · right
    have hlast := inv.last h0
    have hlen : (huffmanForest t).queue.length = 1 := by
      have := List.length_pos_of_mem hlast
      omega
    obtain ⟨x, hx⟩ := List.length_eq_one_iff.mp hlen
    rw [hx] at hlast ⊢
    rw [List.mem_singleton] at hlast
    exact ⟨h0, by omega, by rw [hlast]⟩

/-! ## Sums of frequencies (rule R167) -/

/-- The sum of the frequencies of the queue's members. -/
def queueSum (w : Forest) : Nat := (w.queue.map (fun i => (nodeAt w.node i).freq.toNat)).sum

/-- Every internal entry's FREQ is the sum of its children's, as a number. -/
def SumsExact (S : Nat) (w : Forest) : Prop :=
  ∀ k, S ≤ k → k < w.n → (nodeAt w.node k).freq.toNat =
    (nodeAt w.node (nodeAt w.node k).left.toNat).freq.toNat +
      (nodeAt w.node (nodeAt w.node k).right.toNat).freq.toNat

theorem sum_map_erase {f : Nat → Nat} {q : List Nat} {a : Nat} (h : a ∈ q) :
    f a + ((q.erase a).map f).sum = (q.map f).sum := by
  simpa using ((List.perm_cons_erase h).map f).sum_eq.symm

/-- A merge keeps the queue's sum, and no sum wraps while that is below 2^32. -/
theorem mergeOnce_sum {S : Nat} {w w' : Forest} (inv : ForestInv S w) (h : mergeOnce w = some w')
    (hs : queueSum w < 2 ^ 32) (he : SumsExact S w) : queueSum w' = queueSum w ∧ SumsExact S w' := by
  have hinv' := mergeOnce_inv inv h
  obtain ⟨a, b, ha, hb, -, -, hw'⟩ := mergeOnce_some h
  have hbq : b ∈ w.queue := List.mem_of_mem_erase hb
  have han : a < w.n := ((inv.queued a).mp ha).1
  have hbn : b < w.n := ((inv.queued b).mp hbq).1
  have hlen : 2 ≤ w.queue.length := by
    have h1 := List.length_erase_of_mem ha
    have h2 := List.length_pos_of_mem hb
    omega
  have hn : w.n < 511 := by have := inv.small; have := inv.size; omega
  have hold := hinv'.2.2.2
  have hnew : nodeAt w'.node w.n = internalNode w.node a b := by
    rw [hw']
    exact (nodeAt_setNode w.node hn _ w.n).trans (if_pos rfl)
  set f : Nat → Nat := fun i => (nodeAt w.node i).freq.toNat with hf
  have hsum : f a + (f b + (((w.queue.erase a).erase b).map f).sum) = queueSum w := by
    rw [sum_map_erase hb, sum_map_erase ha]; rfl
  have hfx : (internalNode w.node a b).freq.toNat = f a + f b := by
    simp only [internalNode, BitVec.toNat_add]
    exact Nat.mod_eq_of_lt (by simp only [hf] at hsum; omega)
  have hq' : w'.queue = (w.queue.erase a).erase b ++ [w.n] := by rw [hw']; rfl
  constructor
  · rw [queueSum, hq', List.map_append, List.sum_append, List.map_singleton, List.sum_singleton, hnew, hfx]
    have : ((w.queue.erase a).erase b).map (fun i => (nodeAt w'.node i).freq.toNat) =
        ((w.queue.erase a).erase b).map f := by
      apply List.map_congr_left
      intro i hi
      rw [hold i ((inv.queued i).mp (List.mem_of_mem_erase (List.mem_of_mem_erase hi))).1]
    rw [this]
    omega
  · intro k hk hkn
    have hn' : w'.n = w.n + 1 := by rw [hw']; rfl
    by_cases hkw : k = w.n
    · subst hkw
      have hl : (internalNode w.node a b).left.toNat = a := by simp [internalNode]; omega
      have hr : (internalNode w.node a b).right.toNat = b := by simp [internalNode]; omega
      rw [hnew, hl, hr, hold a han, hold b hbn, hfx]
    · have hk' : k < w.n := by omega
      obtain ⟨h1, h2, -⟩ := inv.merged k _ _ hk hk' rfl rfl
      rw [hold k hk', hold _ (by have := h1.1; omega), hold _ (by have := h2.1; omega)]
      exact he k hk hk'

theorem mergeAll_sum {S : Nat} (fuel : Nat) {w : Forest} (inv : ForestInv S w) (hs : queueSum w < 2 ^ 32)
    (he : SumsExact S w) : queueSum (mergeAll fuel w) = queueSum w ∧ SumsExact S (mergeAll fuel w) := by
  induction fuel generalizing w with
  | zero => exact ⟨rfl, he⟩
  | succ n ih =>
    rw [mergeAll]
    cases hm : mergeOnce w with
    | none => exact ⟨rfl, he⟩
    | some w' =>
      obtain ⟨h1, h2⟩ := mergeOnce_sum inv hm hs he
      obtain ⟨h3, h4⟩ := ih (mergeOnce_inv inv hm).1 (by omega) h2
      exact ⟨h3.trans h1, h4⟩

/-- The queue of leaves sums to the sum of the counters. -/
theorem leafForest_sum (t : FreqTable) : queueSum (leafForest t) = freqSum t := by
  obtain ⟨-, hq, hnode⟩ := leafForest_spec t
  have h1 : queueSum (leafForest t) = ((presentSymbols t).map (fun x => (freqOf t x).toNat)).sum := by
    rw [queueSum, hq, ← length_presentSymbols]
    congr 1
    apply List.ext_getElem (by simp)
    intro i h1 h2
    simp only [List.length_map, List.length_range] at h1
    simp [hnode, leafEntry, leafNode, h1]
  rw [h1, freqSum, presentSymbols]
  generalize symbols = l
  induction l with
  | nil => rfl
  | cons x l ih =>
    by_cases hx : freqOf t x = 0#32
    · simpa [hx] using ih
    · simpa [hx] using ih

/-- With counters that sum below 2^32 no sum of BUILD wraps, and the root's FREQ is the sum. -/
theorem huffmanForest_sum {t : FreqTable} (h : freqSum t < 2 ^ 32) :
    SumsExact (freqCount t) (huffmanForest t) ∧ queueSum (huffmanForest t) = freqSum t := by
  have h0 : SumsExact (freqCount t) (leafForest t) := by
    intro k hk hkn; rw [(leafForest_spec t).1] at hkn; omega
  obtain ⟨h1, h2⟩ := mergeAll_sum (leafForest t).queue.length (leafForest_inv t)
    (by rw [leafForest_sum]; exact h) h0
  exact ⟨h2, h1.trans (leafForest_sum t)⟩

/-! ## The tree BUILD leaves -/

/-- NODE_CNT, ROOT.VALID and ROOT.INDEX as BUILD sets them. -/
theorem huffmanForest_root (t : FreqTable) :
    (BitVec.ofNat 9 (huffmanForest t).n).toNat = 2 * freqCount t - 1 ∧
      leafCount (BitVec.ofNat 9 (huffmanForest t).n) = freqCount t ∧
      (decide ((huffmanForest t).queue.length = 1) = decide (1 ≤ freqCount t)) ∧
      (BitVec.ofNat 9 (if (huffmanForest t).queue.length = 1 then (huffmanForest t).queue.headD 0 else 0)).toNat =
        2 * freqCount t - 1 - 1 := by
  have hle := freqCount_le t
  obtain ⟨-, h | h, -⟩ := huffmanForest_spec t
  · obtain ⟨h0, hn, hq⟩ := h
    rw [hn, hq, h0]
    decide
  · obtain ⟨h0, hn, hq⟩ := h
    have h1 : (BitVec.ofNat 9 (huffmanForest t).n).toNat = 2 * freqCount t - 1 := by
      rw [hn, BitVec.toNat_ofNat, Nat.mod_eq_of_lt (by omega)]
    refine ⟨h1, by rw [leafCount, h1]; omega, by simp [hq, h0], ?_⟩
    rw [hq, hn]
    simp
    omega

/-- With counters that sum below 2^32 the tree satisfies rule R46. -/
theorem huffmanForest_tree {t : FreqTable} (h : freqSum t < 2 ^ 32) :
    TreeLegal (huffmanForest t).node (BitVec.ofNat 9 (huffmanForest t).n) ((huffmanForest t).queue.length = 1)
      (BitVec.ofNat 9 (if (huffmanForest t).queue.length = 1 then (huffmanForest t).queue.headD 0 else 0)) := by
  obtain ⟨inv, hcase, hleaf⟩ := huffmanForest_spec t
  obtain ⟨r1, r2, r3, r4⟩ := huffmanForest_root t
  have hexact := (huffmanForest_sum h).1
  have hle := freqCount_le t
  have hn : (huffmanForest t).n = 2 * freqCount t - 1 := by
    rcases hcase with h | h
    · rw [h.1, h.2.1]
    · exact h.2.1
  have hentry (i : Nat) (hi : i < freqCount t) : ∃ x, (presentSymbols t)[i]? = some x ∧
      nodeAt (huffmanForest t).node i = leafNode x (freqOf t x) ∧ freqOf t x ≠ 0#32 := by
    have hi' : i < (presentSymbols t).length := by rw [length_presentSymbols]; exact hi
    refine ⟨(presentSymbols t)[i], List.getElem?_eq_getElem hi', ?_, ?_⟩
    · rw [hleaf i hi, leafEntry, List.getElem?_eq_getElem hi']
    · exact (mem_presentSymbols t _).mp (List.getElem_mem hi')
  refine ⟨?_, ?_, ?_, ?_, ?_, ?_⟩
  · rw [r2, r1, r3]
    rcases Nat.eq_zero_or_pos (freqCount t) with h0 | h0
    · left
      exact ⟨BitVec.eq_of_toNat_eq (by rw [r1, h0]; rfl), by simp [h0], BitVec.eq_of_toNat_eq (by rw [r4, h0]; rfl)⟩
    · right
      exact ⟨rfl, h0, hle, decide_eq_true h0, by rw [r4]; omega⟩
  · intro i hi
    rw [r2] at hi
    obtain ⟨x, -, hx, hx0⟩ := hentry i hi
    rw [hx]
    refine ⟨rfl, ?_, rfl, rfl⟩
    rcases Nat.eq_zero_or_pos (freqOf t x).toNat with h0 | h0
    · exact absurd (BitVec.eq_of_toNat_eq h0) hx0
    · exact h0
  · intro i j hij hj
    rw [r2] at hj
    obtain ⟨x, hx, hxn, -⟩ := hentry i (by omega)
    obtain ⟨y, hy, hyn, -⟩ := hentry j hj
    rw [hxn, hyn]
    have hp : (presentSymbols t).Pairwise (fun a b => a.toNat < b.toNat) :=
      symbols_ascending.sublist List.filter_sublist
    obtain ⟨hi', rfl⟩ := List.getElem?_eq_some_iff.mp hx
    obtain ⟨hj', rfl⟩ := List.getElem?_eq_some_iff.mp hy
    exact (List.pairwise_iff_getElem.mp hp) i j hi' hj' hij
  · intro i hi hin
    rw [r2] at hi
    rw [r1, ← hn] at hin
    obtain ⟨h1, h2, -⟩ := inv.internals i hi hin
    obtain ⟨hl, hr, hk, -⟩ := inv.merged i _ _ hi hin rfl rfl
    exact ⟨h1, h2, hl.1, hr.1, fun he => hk.ne (by rw [he]), hexact i hi hin⟩
  · intro i hi
    rw [r1, ← hn] at hi ⊢
    rw [r2]
    have hnq : ¬ QueuedBefore (huffmanForest t).node (freqCount t) (huffmanForest t).n i := by
      rw [← inv.queued]
      rcases hcase with h | h
      · simp [h.2.2]
      · rw [h.2.2, List.mem_singleton]; omega
    unfold QueuedBefore at hnq
    push Not at hnq
    obtain ⟨j, hj1, hj2, hj3⟩ := hnq (by omega)
    have hj : (nodeAt (huffmanForest t).node j).left.toNat = i ∨ (nodeAt (huffmanForest t).node j).right.toNat = i := by
      by_contra hc
      rw [not_or] at hc
      exact hc.2 (hj3 hc.1)
    refine ⟨j, ⟨hj1, hj2, hj⟩, ?_⟩
    have key : ∀ p q, freqCount t ≤ p → p < q → q < (huffmanForest t).n →
        ((nodeAt (huffmanForest t).node p).left.toNat = i ∨ (nodeAt (huffmanForest t).node p).right.toNat = i) →
        ((nodeAt (huffmanForest t).node q).left.toNat = i ∨ (nodeAt (huffmanForest t).node q).right.toNat = i) →
        False := by
      intro p q hp hpq hq h1 h2
      obtain ⟨hl, hr, -⟩ := inv.merged q _ _ (by omega) hq rfl rfl
      have hl' := hl.2 p hp hpq
      have hr' := hr.2 p hp hpq
      rcases h2 with h2 | h2
      · rw [h2] at hl'; rcases h1 with h1 | h1
        · exact hl'.1 h1
        · exact hl'.2 h1
      · rw [h2] at hr'; rcases h1 with h1 | h1
        · exact hr'.1 h1
        · exact hr'.2 h1
    intro k hk1 hk2 hk3
    rcases Nat.lt_trichotomy k j with h | h | h
    · exact absurd (key k j hk1 h hj2 hk3 hj) id
    · exact h
    · exact absurd (key j k hj1 h hk2 hj hk3) id
  · intro i hi
    rw [r1, ← hn] at hi
    exact inv.rest i hi

end Sys2Proof.Machine
end

