-- ==== Sys2Proof/Laws/Loops.lean ====
section
/-! SUPPORT. What the loops of ENC, DEC and DESER do, each said once and completely: the result and where
each fault arises. -/

namespace Sys2Proof.Machine

/-! ## The encoded stream -/

@[simp] theorem encodedStream_nil (c : CodeTable) : encodedStream c [] = [] := rfl

@[simp] theorem encodedStream_cons (c : CodeTable) (x : Byte) (xs : List Byte) :
    encodedStream c (x :: xs) = codeOf c x ++ encodedStream c xs := rfl

@[simp] theorem encodedStream_append (c : CodeTable) (xs ys : List Byte) :
    encodedStream c (xs ++ ys) = encodedStream c xs ++ encodedStream c ys := by
  simp [encodedStream]

/-- A beginning whose bytes have codes and whose stream fits is passed over by the encoder's loop. -/
theorem encodeFrom_append {c : CodeTable} {cap i b : Nat} {p xs : List Byte} {e : Bits} (hb : b = e.length)
    (hp : ∀ x ∈ p, codeOf c x ≠ [])
    (h1 : (e ++ encodedStream c p).length ≤ Config.bitCntMax) (h2 : ceil8 (e ++ encodedStream c p).length ≤ cap) :
    encodeFrom c cap i (p ++ xs) e b =
      encodeFrom c cap (i + p.length) xs (e ++ encodedStream c p) (b + (encodedStream c p).length) := by
  induction p generalizing i e b with
  | nil => simp
  | cons x p ih =>
    have hx : codeOf c x ≠ [] := hp x (by simp)
    have hle : e.length + (codeOf c x).length ≤ (e ++ encodedStream c (x :: p)).length := by
      simp
    rw [List.cons_append, encodeFrom, if_neg hx, if_neg (by omega),
      if_neg (Nat.not_lt.mpr ((ceil8_mono (by omega)).trans h2)),
      ih (by simp [hb]) (fun y hy => hp y (by simp [hy])) (by simpa [List.append_assoc] using h1)
        (by simpa [List.append_assoc] using h2)]
    simp only [encodedStream_cons, List.append_assoc, List.length_append, List.length_cons]
    congr 1 <;> omega

/-- The encoder's loop completes when every byte has a code and the stream fits. -/
theorem encodeFrom_fits {c : CodeTable} {cap : Nat} {xs : List Byte} (hp : ∀ x ∈ xs, codeOf c x ≠ [])
    (h1 : (encodedStream c xs).length ≤ Config.bitCntMax) (h2 : ceil8 (encodedStream c xs).length ≤ cap) :
    encodeFrom c cap 0 xs [] 0 = .ok (encodedStream c xs) := by
  have := encodeFrom_append (i := 0) (b := 0) (e := []) (xs := []) rfl hp h1 h2
  rw [List.append_nil] at this
  rw [this, encodeFrom, List.nil_append]

/-! ## Shortest matches -/

/-- No non-empty beginning of `a` is a code. -/
def NoMatch (c : CodeTable) (a : Bits) : Prop := ∀ (p : Bits) (s : Byte), p <+: a → p ≠ [] → codeOf c s ≠ p

theorem noMatch_nil (c : CodeTable) : NoMatch c [] := fun _ _ hp hne _ => hne (List.prefix_nil.mp hp)

theorem noMatch_snoc {c : CodeTable} {a : Bits} {b : Bool} (h : NoMatch c a) (hr : rev c (a ++ [b]) = none) :
    NoMatch c (a ++ [b]) := by
  intro p s hp hne e
  rcases List.prefix_concat_iff.mp hp with rfl | hp
  · have := (rev_isSome_iff c (a ++ [b])).mpr ⟨by simp, s, e⟩
    rw [hr] at this
    cases this
  · exact h p s hp hne e

theorem shortestMatches_of_noMatch {c : CodeTable} {a r : Bits} {x : List Byte} (h : NoMatch c a)
    (m : ShortestMatches c a x r) : x = [] ∧ r = a := by
  cases m with
  | stop _ => exact ⟨rfl, rfl⟩
  | emit present _ _ => exact absurd rfl (h _ _ (List.prefix_append _ _) present)

/-- Where a lookup hits after bits none of whose beginnings is a code, the shortest match is that symbol. -/
theorem shortestMatches_of_rev {c : CodeTable} (d : CodesDistinct c) {a q r : Bits} {b : Bool} {s : Byte}
    {x : List Byte} (h : NoMatch c a) (hr : rev c (a ++ [b]) = some s)
    (m : ShortestMatches c (a ++ b :: q) x r) : ∃ x', x = s :: x' ∧ ShortestMatches c q x' r := by
  have hs := (codeOf_of_rev hr).2
  generalize hz : a ++ b :: q = z at m
  have hz' : a ++ [b] ++ q = z := by simpa using hz
  cases m with
  | stop hstop => exact absurd hs (hstop (a ++ [b]) s ⟨q, hz'⟩ (by simp))
  | @emit u q' _ x' present shortest rest =>
    have e : codeOf c u = a ++ [b] := by
      rcases List.prefix_or_prefix_of_prefix (⟨q, hz'⟩ : a ++ [b] <+: codeOf c u ++ q')
          (List.prefix_append (codeOf c u) q') with hp | hp
      · exact (shortest _ s hp (by simp) hs).symm
      · rcases List.prefix_concat_iff.mp hp with hp | hp
        · exact hp
        · exact absurd rfl (h _ u hp present)
    obtain rfl : u = s := d u s present (by rw [e, hs])
    rw [e] at hz'
    exact ⟨x', rfl, by rw [List.append_cancel_left hz']; exact rest⟩

/-- The decoder's loop from an accumulator no beginning of which is a code: what it emits, and its two
faults, all from the shortest-match reading. -/
theorem decodeFrom_eq {c : CodeTable} (d : CodesDistinct c) {cap i : Nat} {q acc r : Bits} {out x : List Byte}
    (ha : NoMatch c acc) (hi : acc.length ≤ i) (ho : out.length ≤ cap)
    (m : ShortestMatches c (acc ++ q) x r) :
    decodeFrom c cap i q acc out =
      if out.length + x.length ≤ cap then
        (if r = [] then .ok (out ++ x) else raiseLate .unmatchedBitSequence (i + q.length - r.length))
      else raiseLate .capacityExceeded
        (i - acc.length + (encodedStream c (x.take (cap - out.length + 1))).length - 1) := by
  induction q generalizing i acc out x with
  | nil =>
    rw [List.append_nil] at m
    obtain ⟨rfl, rfl⟩ := shortestMatches_of_noMatch ha m
    simp [decodeFrom, ho]
  | cons b q ih =>
    rw [decodeFrom]
    cases hr : rev c (acc ++ [b]) with
    | none =>
      have e := ih (i := i + 1) (acc := acc ++ [b]) (noMatch_snoc ha hr) (by simp; omega) ho (by simpa using m)
      simp only [e, List.length_append, List.length_cons, List.length_nil]
      rw [show i + 1 + q.length = i + (q.length + 1) by omega, show i + 1 - (acc.length + (0 + 1)) = i - acc.length by omega]
    | some s =>
      obtain ⟨x', rfl, m'⟩ := shortestMatches_of_rev d ha hr m
      have hs := (codeOf_of_rev hr).2
      simp only
      by_cases hc : out.length = cap
      · rw [if_pos hc, if_neg (by simp; omega), hc]
        simp only [Nat.sub_self, Nat.zero_add, List.take_succ_cons, List.take_zero, encodedStream_cons,
          encodedStream_nil, hs, List.append_nil, List.length_append, List.length_singleton]
        congr 1
        omega
      · rw [if_neg hc, ih (i := i + 1) (acc := []) (out := out ++ [s]) (noMatch_nil c) (by simp) (by simp; omega)
          (by simpa using m')]
        simp only [List.length_append, List.length_cons, List.length_nil, List.append_assoc, List.cons_append,
          List.nil_append]
        rw [show out.length + (0 + 1) + x'.length = out.length + (x'.length + 1) by omega,
          show i + 1 + q.length = i + (q.length + 1) by omega,
          show cap - out.length + 1 = (cap - (out.length + (0 + 1)) + 1) + 1 by omega]
        simp only [List.take_succ_cons, encodedStream_cons, hs, List.length_append, List.length_singleton]
        congr 2
        omega

/-! ## The trie walk -/

theorem isTrieNode_iff (c : CodeTable) (a : Bits) :
    isTrieNode c a = true ↔ ∃ s, codeOf c s ≠ [] ∧ a <+: codeOf c s := by
  simp only [isTrieNode, List.any_eq_true, Bool.and_eq_true, decide_eq_true_eq, List.isPrefixOf_iff_prefix]
  exact ⟨fun ⟨s, _, h⟩ => ⟨s, h⟩, fun ⟨s, h⟩ => ⟨s, mem_symbols s, h⟩⟩

theorem isTrieNode_of_rev {c : CodeTable} {a : Bits} {s : Byte} (h : rev c a = some s) : isTrieNode c a = true := by
  obtain ⟨h0, hs⟩ := codeOf_of_rev h
  exact (isTrieNode_iff c a).mpr ⟨s, by rw [hs]; exact h0, by rw [hs]⟩

/-! ## DESER's table loop -/

/-- What the table holds after some entries. -/
def putEntries (c : CodeTable) (es : List RawEntry) : CodeTable :=
  es.foldl (fun c e => setCode c e.sym e.code) c

@[simp] theorem putEntries_nil (c : CodeTable) : putEntries c [] = c := rfl

@[simp] theorem putEntries_cons (c : CodeTable) (e : RawEntry) (es : List RawEntry) :
    putEntries c (e :: es) = putEntries (setCode c e.sym e.code) es := rfl

theorem RawEntry.code_ne_nil {e : RawEntry} (h : e.legal) : e.code ≠ [] := by
  intro h0
  have := congrArg List.length h0
  simp [RawEntry.code] at this
  have := h.1
  omega

theorem RawEntry.length_raw {e : RawEntry} (h : e.legal) : e.raw.length = 2 + ceil8 e.len := by
  simp [RawEntry.raw, h.2.2]
  omega

theorem getD_of_drop {x y : List Byte} {pos k : Nat} (h : x.drop pos = y) : x.getD (pos + k) 0#8 = y.getD k 0#8 := by
  rw [← h]
  simp [List.getD, List.getElem?_drop]

/-- One pass over a legal entry: the two duplicate checks, then the entry is stored. -/
theorem loadEntries_entry {x rest : List Byte} {fuel pos : Nat} {c : CodeTable} {e : RawEntry} (he : e.legal)
    (hx : x.drop pos = e.raw ++ rest) :
    loadEntries x (fuel + 1) pos c =
      if codeOf c e.sym ≠ [] then raiseLate .invalidCodeTable pos
      else if hasCode c e.code then raiseLate .invalidCodeTable pos
      else loadEntries x fuel (pos + e.raw.length) (setCode c e.sym e.code) := by
  have hl : x.length - pos = e.raw.length + rest.length := by
    rw [← List.length_drop, hx, List.length_append]
  have hr := RawEntry.length_raw he
  have h0 : x.getD pos 0#8 = e.sym := by
    simpa [RawEntry.raw] using getD_of_drop (k := 0) hx
  have h1 : (x.getD (pos + 1) 0#8).toNat = e.len := by
    rw [getD_of_drop (k := 1) hx]
    have := he.2.1
    simp [RawEntry.raw, Config.maxLen] at this ⊢
    omega
  have h2 : (x.drop (pos + 2)).take (ceil8 e.len) = e.bytes := by
    rw [← List.drop_drop, hx, ← he.2.2]
    simp [RawEntry.raw]
  have hlen := he.1
  rw [loadEntries, if_neg (by omega), if_neg (by omega)]
  simp only [h0, h1, h2]
  rw [if_neg (by omega), if_neg (by omega), hr, Nat.add_assoc]
  rfl

/-- The table loop passes over entries that are legal, of new symbols and of new codes. -/
theorem loadEntries_append {x tail : List Byte} {fuel pos : Nat} {c : CodeTable} {es : List RawEntry}
    (hes : EntriesLegal es) (hs : ∀ e ∈ es, codeOf c e.sym = []) (hc : ∀ e ∈ es, ∀ s, codeOf c s ≠ e.code)
    (hx : x.drop pos = rawTable es ++ tail) :
    loadEntries x (fuel + es.length) pos c =
      loadEntries x fuel (pos + (rawTable es).length) (putEntries c es) := by
  induction es generalizing pos c with
  | nil => simp [rawTable]
  | cons e es ih =>
    have he : e.legal := hes.1 e (by simp)
    have hns := List.nodup_cons.mp hes.2.1
    have hnc := List.nodup_cons.mp hes.2.2
    have hx' : x.drop pos = e.raw ++ (rawTable es ++ tail) := by simpa [rawTable, List.append_assoc] using hx
    have hn : hasCode c e.code = false := by
      rw [← Bool.not_eq_true, hasCode_iff]
      exact fun ⟨s, h⟩ => hc e (by simp) s h
    rw [show fuel + (e :: es).length = (fuel + es.length) + 1 by simp; omega, loadEntries_entry he hx',
      if_neg (by simp [hs e (by simp)]), if_neg (by simp [hn]),
      ih ⟨fun f hf => hes.1 f (by simp [hf]), hns.2, hnc.2⟩ ?_ ?_ ?_]
    · simp [rawTable, Nat.add_assoc]
    · intro f hf
      rw [codeOf_setCode, if_neg]
      · exact hs f (by simp [hf])
      · intro h
        exact hns.1 (by rw [← h]; exact List.mem_map_of_mem hf)
    · intro f hf s h
      rw [codeOf_setCode] at h
      split_ifs at h
      · exact hnc.1 (by rw [h]; exact List.mem_map_of_mem hf)
      · exact hc f (by simp [hf]) s h
    · rw [← List.drop_drop, hx', List.drop_left']
      rfl

/-- The loop ends at the container's end. -/
theorem loadEntries_end {x : List Byte} {fuel pos : Nat} {c : CodeTable} (h : x.length ≤ pos) :
    loadEntries x fuel pos c = .ok c := by
  cases fuel with
  | zero => rfl
  | succ n => rw [loadEntries, if_pos h]

theorem codeOf_putEntries_of_not_mem {c : CodeTable} {es : List RawEntry} {s : Byte}
    (h : s ∉ es.map RawEntry.sym) : codeOf (putEntries c es) s = codeOf c s := by
  induction es generalizing c with
  | nil => rfl
  | cons e es ih =>
    simp only [List.map_cons, List.mem_cons, not_or] at h
    rw [putEntries_cons, ih h.2, codeOf_setCode, if_neg h.1]

/-- After entries with distinct symbols the table holds exactly them. -/
theorem putEntries_holds {es : List RawEntry} (h : (es.map RawEntry.sym).Nodup) :
    HoldsEntries (putEntries emptyCode es) es := by
  refine ⟨?_, fun x hx => by rw [codeOf_putEntries_of_not_mem hx]; simp⟩
  suffices ∀ c : CodeTable, ∀ e ∈ es, codeOf (putEntries c es) e.sym = e.code from this emptyCode
  induction es with
  | nil => intro c e he; simp at he
  | cons f es ih =>
    intro c e he
    rw [List.map_cons, List.nodup_cons] at h
    rcases List.mem_cons.mp he with rfl | he
    · rw [putEntries_cons, codeOf_putEntries_of_not_mem h.1, codeOf_setCode, if_pos rfl]
    · exact ih h.2 _ e he

/-! ## The rules of the commands, from their loops -/

theorem encBody_of_ok {s : State} {e : Bits} (h1 : inputLength s ≤ s.bufCap)
    (h : encodeFrom s.code s.bufCap 0 (inputBytes s) [] 0 = .ok e) :
    encBody s = .ok (putBitCount e.length (putOutput (packBits e) s)) := by
  rw [encBody, checkIn_pass h1, h]

theorem encBody_of_error {s : State} {r : Raise} (h1 : inputLength s ≤ s.bufCap)
    (h : encodeFrom s.code s.bufCap 0 (inputBytes s) [] 0 = .error r) : encBody s = .error r := by
  rw [encBody, checkIn_pass h1, h]

theorem decBody_of_ok {s : State} {out : List Byte} (h1 : inputLength s ≤ s.bufCap) (h2 : s.bitCnt.msb = false)
    (h3 : ceil8 s.bitCnt.toNat ≤ inputLength s)
    (h : decodeFrom s.code s.bufCap 0 (unpackBits (inputBytes s) s.bitCnt.toNat) [] [] = .ok out) :
    decBody s = .ok (putOutput out s) := by
  rw [decBody, withPayload_pass h1 h2 h3, unpackBits_inputPart h3, h]

theorem decBody_of_error {s : State} {r : Raise} (h1 : inputLength s ≤ s.bufCap) (h2 : s.bitCnt.msb = false)
    (h3 : ceil8 s.bitCnt.toNat ≤ inputLength s)
    (h : decodeFrom s.code s.bufCap 0 (unpackBits (inputBytes s) s.bitCnt.toNat) [] [] = .error r) :
    decBody s = .error r := by
  rw [decBody, withPayload_pass h1 h2 h3, unpackBits_inputPart h3, h]

theorem serBody_of_fits {s : State} (h1 : inputLength s ≤ s.bufCap) (h2 : s.bitCnt.msb = false)
    (h3 : ceil8 s.bitCnt.toNat ≤ inputLength s)
    (h4 : 4 + ceil8 s.bitCnt.toNat + tableSize s.code ≤ s.bufCap) :
    serBody s =
      .ok (putOutput (containerBytes s.bitCnt.toNat (inputPart s (ceil8 s.bitCnt.toNat)) s.code) s) := by
  rw [serBody, withPayload_pass h1 h2 h3, if_neg (Nat.not_lt.mpr h4)]

/-- The header of a bit count reads back as that bit count. -/
theorem headerWord_headerBytes {b : Nat} (hb : b < 2 ^ 32) (rest : List Byte) :
    (headerWord (headerBytes b ++ rest)).toNat = b := by
  have h (a : BitVec 32) :
      a.extractLsb' 24 8 ++ a.extractLsb' 16 8 ++ a.extractLsb' 8 8 ++ a.extractLsb' 0 8 = a := by
    apply BitVec.eq_of_getLsbD_eq
    intro i hi
    simp only [BitVec.getLsbD_append, BitVec.getLsbD_extractLsb']
    have : i < 8 ∨ (8 ≤ i ∧ i < 16) ∨ (16 ≤ i ∧ i < 24) ∨ 24 ≤ i := by omega
    rcases this with h | ⟨h, h'⟩ | ⟨h, h'⟩ | h
    · simp [h]
    · simp [show ¬ i < 8 by omega, show i - 8 < 8 by omega, show 8 + (i - 8) = i by omega]
    · simp [show ¬ i < 8 by omega, show ¬ i - 8 < 8 by omega, show i - 8 - 8 < 8 by omega,
        show 16 + (i - 8 - 8) = i by omega]
    · simp [show ¬ i < 8 by omega, show ¬ i - 8 < 8 by omega, show ¬ i - 8 - 8 < 8 by omega,
        show i - 8 - 8 - 8 < 8 by omega, show 24 + (i - 8 - 8 - 8) = i by omega]
  show ((BitVec.ofNat 32 b).extractLsb' 24 8 ++ (BitVec.ofNat 32 b).extractLsb' 16 8 ++
    (BitVec.ofNat 32 b).extractLsb' 8 8 ++ (BitVec.ofNat 32 b).extractLsb' 0 8).toNat = b
  rw [h, BitVec.toNat_ofNat, Nat.mod_eq_of_lt hb]

/-- What DESER reads from a header, a payload and the rest. -/
theorem deser_reads {s : State} {b : Nat} {y rest : List Byte} (hb : b < 2 ^ 31) (hy : y.length = ceil8 b)
    (hx : inputBytes s = headerBytes b ++ y ++ rest) :
    (headerWord (inputBytes s)).toNat = b ∧ inputLength s = 4 + ceil8 b + rest.length ∧
      (headerWord (inputBytes s)).msb = false ∧ ((inputBytes s).drop 4).take (ceil8 b) = y := by
  have hw : (headerWord (inputBytes s)).toNat = b := by
    rw [hx, List.append_assoc]
    exact headerWord_headerBytes (by omega) _
  refine ⟨hw, ?_, ?_, ?_⟩
  · have := congrArg List.length hx
    simpa [inputBytes, hy, Nat.add_assoc] using this
  · rw [BitVec.msb_eq_decide, hw]
    simpa using hb
  · rw [hx, List.append_assoc, List.drop_left' (length_headerBytes b), List.take_left' hy]

/-- DESER past its early checks completes with what its table loop answers. -/
theorem deserBody_of_ok {s : State} {b : Nat} {y rest : List Byte} {c : CodeTable} (h1 : inputLength s ≤ s.bufCap)
    (hb : b < 2 ^ 31) (hy : y.length = ceil8 b) (hx : inputBytes s = headerBytes b ++ y ++ rest)
    (h : loadEntries (inputBytes s) (inputLength s) (4 + ceil8 b) emptyCode = .ok c) :
    deserBody s = .ok (putBitCount b (putOutput y { s with code := c })) := by
  obtain ⟨hw, hl, hm, hd⟩ := deser_reads hb hy hx
  rw [deserBody, checkIn_pass h1, if_neg (by omega), if_neg (by simp [hm]), hw, if_neg (by omega), hd, h]

/-- DESER past its early checks raises what its table loop raises. -/
theorem deserBody_of_error {s : State} {b : Nat} {y rest : List Byte} {r : Raise} (h1 : inputLength s ≤ s.bufCap)
    (hb : b < 2 ^ 31) (hy : y.length = ceil8 b) (hx : inputBytes s = headerBytes b ++ y ++ rest)
    (h : loadEntries (inputBytes s) (inputLength s) (4 + ceil8 b) emptyCode = .error r) :
    deserBody s = .error r := by
  obtain ⟨hw, hl, hm, hd⟩ := deser_reads hb hy hx
  rw [deserBody, checkIn_pass h1, if_neg (by omega), if_neg (by simp [hm]), hw, if_neg (by omega), hd, h]

end Sys2Proof.Machine
end

