-- ==== Sys2Proof/Laws/PerInstr.lean ====
section
/-! SUPPORT. Statements made once per command of the opcode map. Family `CommandWord`: a command is well
formed and its word is a command word, with ZERO = 0 and a defined OPC (rules R100, R103, R105). -/

namespace Sys2Proof.Laws.CommandWord

/-- The command is well formed and its word has a clear ZERO field and a defined OPC. -/
def Statement (i : Instr) : Prop := i.wellFormed = true ∧ commandWellFormed (encode i) = true

theorem nop : Statement .nop := by constructor <;> decide
theorem clr : Statement .clr := by constructor <;> decide
theorem freq : Statement .freq := by constructor <;> decide
theorem build : Statement .build := by constructor <;> decide
theorem gen : Statement .gen := by constructor <;> decide
theorem enc : Statement .enc := by constructor <;> decide
theorem dec : Statement .dec := by constructor <;> decide
theorem ser : Statement .ser := by constructor <;> decide
theorem deser : Statement .deser := by constructor <;> decide
theorem swap : Statement .swap := by constructor <;> decide
theorem pack : Statement .pack := by constructor <;> decide
theorem unpack : Statement .unpack := by constructor <;> decide
theorem compress : Statement .compress := by constructor <;> decide
theorem decompress : Statement .decompress := by constructor <;> decide

end Sys2Proof.Laws.CommandWord
end

