-- ==== Sys2Proof/Laws/Step.lean ====
section
/-! SUPPORT. Everything one access and one step can do, each said once. -/

namespace Sys2Proof.Machine

/-! ## The host port -/

/-- An offset in IBUFW is its base plus the index, which is below the capacity. -/
theorem placeOf_ibufw {cap : Nat} {o : Word} {i : Nat} (h : placeOf cap o = .ibufw i) :
    i < cap ∧ o.toNat = 0x40000000 + i := by
  simp only [placeOf] at h
  split_ifs at h with h1 h2 h3 h4 h5
  injection h with h
  rw [← h]
  refine ⟨?_, ?_⟩
  · exact Nat.sub_lt_left_of_lt_add h5.1 h5.2
  · exact (Nat.add_sub_cancel' h5.1).symm

/-- An offset in OBUFW is its base plus the index, which is below the capacity. -/
theorem placeOf_obufw {cap : Nat} {o : Word} {i : Nat} (h : placeOf cap o = .obufw i) :
    i < cap ∧ o.toNat = 0x80000000 + i := by
  simp only [placeOf] at h
  split_ifs at h with h1 h2 h3 h4 h5 h6
  injection h with h
  rw [← h]
  refine ⟨?_, ?_⟩
  · exact Nat.sub_lt_left_of_lt_add h6.1 h6.2
  · exact (Nat.add_sub_cancel' h6.1).symm

/-- What an access can do to the state: nothing, an accepted command, or one of the five stores. -/
theorem portAccess_cases (a : Access) (s : State) :
    (portAccess a s).1 = s ∨
    s.busy = false ∧
      ((∃ w, (s.faulted = false ∨ w = 0x00000001#32) ∧ (portAccess a s).1 = acceptCommand w s) ∨
       (∃ v, (portAccess a s).1 = writeStatus v s) ∨ (∃ v, (portAccess a s).1 = writeCtrl v s) ∨
       (∃ v, (portAccess a s).1 = { s with inLen := v }) ∨ (∃ v, (portAccess a s).1 = { s with bitCnt := v }) ∨
       (∃ i b, i < s.bufCap ∧ (portAccess a s).1 = { s with ibuf := Memory.write s.ibuf i b })) := by
  rcases Bool.eq_false_or_eq_true s.busy with hb | hb
  · left
    cases a with
    | read4 o => by_cases h : o = regOffset .status <;> simp [portAccess, hb, busyAccess, h]
    | _ => simp [portAccess, hb, busyAccess]
  · cases a with
    | read1 o => left; cases h : readByte s o <;> simp [portAccess, hb, idleAccess, h]
    | read4 o => left; cases h : readWord s o <;> simp [portAccess, hb, idleAccess, h]
    | write1 o b =>
      have e : (portAccess (.write1 o b) s).1 = (writeByte o b s).1 := by simp [portAccess, hb, idleAccess]
      rw [e]
      cases h : placeOf s.bufCap o with
      | ibufw i =>
        right
        exact ⟨hb, .inr (.inr (.inr (.inr (.inr ⟨i, b, (placeOf_ibufw h).1, by simp [writeByte, h]⟩))))⟩
      | _ => left; simp [writeByte, h]
    | write4 o v =>
      have e : (portAccess (.write4 o v) s).1 = (writeWord o v s).1 := by simp [portAccess, hb, idleAccess]
      rw [e]
      cases ha : aligned4 o with
      | false => left; simp [writeWord, ha]
      | true =>
        cases h : placeOf s.bufCap o with
        | reg r =>
          have e : (writeWord o v s).1 = (writeReg r v s).1 := by simp [writeWord, ha, h]
          rw [e]
          cases r with
          | cmd =>
            cases hc : accepts s v with
            | false => left; simp [writeReg, issueCommand, hc]
            | true =>
              right
              refine ⟨hb, .inl ⟨v, ?_, by simp [writeReg, issueCommand, hc]⟩⟩
              simpa [accepts] using hc
          | status => exact .inr ⟨hb, .inr (.inl ⟨v, rfl⟩)⟩
          | ctrl => exact .inr ⟨hb, .inr (.inr (.inl ⟨v, rfl⟩))⟩
          | inLen => exact .inr ⟨hb, .inr (.inr (.inr (.inl ⟨v, rfl⟩)))⟩
          | bitCnt => exact .inr ⟨hb, .inr (.inr (.inr (.inr (.inl ⟨v, rfl⟩))))⟩
          | _ => exact .inl rfl
        | _ => left; simp [writeWord, ha, h]

/-- A host turn is its access, with the answer recorded. -/
theorem hostTurn_eq (a : Access) (s : State) :
    hostTurn a s = { (portAccess a s).1 with lastResp := some (portAccess a s).2 } := rfl

/-! ## Command words -/

theorem decode_encode (i : Instr) : decode (encode i) = .ok i := by cases i <;> decide

/-! ## The step -/

/-- The state the first listed turn acts on: the turn is taken off the list. -/
def popTurn (s : State) : State := { s with inputs := s.inputs.tail }

/-- The engine's turn, on an idle HCE, on a command word and on an illegal one. -/
theorem engineTurn_cases {s t : State} (h : engineTurn s = .next t) :
    (s.busy = false ∧ t = s) ∨
    (s.busy = true ∧ ∃ i, decode s.cmdr = .ok i ∧ exec i s = .next t) ∨
    (s.busy = true ∧ ∃ e, decode s.cmdr = .error e ∧
      t = faultEntry [] ⟨.illegalCommand, s.cmdr, .early⟩ s) := by
  cases hb : s.busy with
  | false =>
    simp only [engineTurn, hb] at h
    injection h with h
    exact .inl ⟨rfl, h.symm⟩
  | true =>
    simp only [engineTurn, hb, if_true, engineStep] at h
    split at h
    · rename_i i hi
      exact .inr (.inl ⟨rfl, i, hi, h⟩)
    · rename_i e he
      injection h with h
      exact .inr (.inr ⟨rfl, e, he, h.symm⟩)

/-- What a step can be: a host turn, a reset edge, or the engine's turn. -/
theorem step_cases {s t : State} (h : step s = .next t) :
    (∃ a, s.inputs.head? = some (.access a) ∧ t = hostTurn a (popTurn s)) ∨
    (s.inputs.head? = some .rst ∧ t = rstEdge (popTurn s)) ∨
    ((s.inputs = [] ∨ s.inputs.head? = some .engine) ∧ engineTurn (popTurn s) = .next t) := by
  have e : step s = advance s := rfl
  rw [e] at h
  cases hi : s.inputs with
  | nil =>
    have hp : popTurn s = s := by cases s; simp_all [popTurn]
    simp only [advance, hi] at h
    exact .inr (.inr ⟨.inl rfl, by rw [hp]; exact h⟩)
  | cons x rest =>
    have hp : popTurn s = { s with inputs := rest } := by simp [popTurn, hi]
    rw [hp]
    cases x with
    | access a => simp only [advance, hi] at h; injection h with h; exact .inl ⟨a, rfl, h.symm⟩
    | engine => simp only [advance, hi] at h; exact .inr (.inr ⟨.inr rfl, h⟩)
    | rst => simp only [advance, hi] at h; injection h with h; exact .inr (.inl ⟨rfl, h.symm⟩)

end Sys2Proof.Machine
end

