-- ==== Sys2Proof/Laws/Walk.lean ====
section
/-! SUPPORT. Paths in a legal tree, and what GEN's walk does on one (rules R180 to R184). -/

namespace Sys2Proof.Machine

/-! ## Paths -/

theorem TreePath.append {m : NodeMemory} {i j k : Nat} {p q : Bits} (h : TreePath m i p j) (h' : TreePath m j q k) :
    TreePath m i (p ++ q) k := by
  induction h with
  | here => exact h'
  | left hk _ ih => exact .left hk (ih h')
  | right hk _ ih => exact .right hk (ih h')

/-- A path is cut at any of its bits. -/
theorem TreePath.split {m : NodeMemory} {i k : Nat} {p q : Bits} (h : TreePath m i (p ++ q) k) :
    ∃ j, TreePath m i p j ∧ TreePath m j q k := by
  induction p generalizing i with
  | nil => exact ⟨i, .here i, h⟩
  | cons b p ih =>
    rw [List.cons_append] at h
    cases h with
    | left hk rest => obtain ⟨j, h1, h2⟩ := ih rest; exact ⟨j, .left hk h1, h2⟩
    | right hk rest => obtain ⟨j, h1, h2⟩ := ih rest; exact ⟨j, .right hk h1, h2⟩

/-- The bits of a path say where it ends. -/
theorem TreePath.unique {m : NodeMemory} {i j k : Nat} {p : Bits} (h : TreePath m i p j) (h' : TreePath m i p k) :
    j = k := by
  induction h with
  | here => cases h'; rfl
  | left hk _ ih => cases h' with | left _ r => exact ih r
  | right hk _ ih => cases h' with | right _ r => exact ih r

/-- No path leaves a leaf. -/
theorem TreePath.of_leaf {m : NodeMemory} {i j : Nat} {p : Bits} (hl : (nodeAt m i).kind = .leaf)
    (h : TreePath m i p j) : p = [] ∧ j = i := by
  cases h with
  | here => exact ⟨rfl, rfl⟩
  | left hk _ => rw [hl] at hk; cases hk
  | right hk _ => rw [hl] at hk; cases hk

/-- What the walk needs of a tree with `S` leaves and `n` entries. -/
structure TreeShape (m : NodeMemory) (S n : Nat) : Prop where
  leaves : ∀ i < S, (nodeAt m i).kind = .leaf
  internals : ∀ i, S ≤ i → i < n → (nodeAt m i).kind = .internal ∧ (nodeAt m i).left.toNat < i ∧
    (nodeAt m i).right.toNat < i ∧ (nodeAt m i).left ≠ (nodeAt m i).right
  symbols : ∀ i j, i < S → j < S → (nodeAt m i).sym = (nodeAt m j).sym → i = j
  owned : ∀ i j k, S ≤ j → j < n → S ≤ k → k < n →
    (nodeAt m j).left.toNat = i ∨ (nodeAt m j).right.toNat = i →
    (nodeAt m k).left.toNat = i ∨ (nodeAt m k).right.toNat = i → j = k

theorem TreeLegal.shape {m : NodeMemory} {cnt root : NodeIndex} {valid : Bool} (h : TreeLegal m cnt valid root) :
    TreeShape m (leafCount cnt) cnt.toNat := by
  refine ⟨fun i hi => (h.leaves i hi).1, fun i h1 h2 => ?_, fun i j hi hj e => ?_, fun i j k h1 h2 h3 h4 h5 h6 => ?_⟩
  · obtain ⟨a, -, b, c, d, -⟩ := h.internals i h1 h2
    exact ⟨a, b, c, d⟩
  · rcases Nat.lt_trichotomy i j with hl | hl | hl
    · have := h.ascending i j hl hj; rw [e] at this; omega
    · exact hl
    · have := h.ascending j i hl hi; rw [e] at this; omega
  · have hij : i < j := by
      obtain ⟨-, -, b, c, -, -⟩ := h.internals j h1 h2
      omega
    obtain ⟨o, -, ho⟩ := h.owned i (by omega)
    rw [ho j h1 h2 h5, ho k h3 h4 h6]

section
variable {m : NodeMemory} {S n : Nat} (t : TreeShape m S n)
include t

/-- A path goes down, one index or more for each bit, and stays among the entries. -/
theorem TreeShape.path_le {i j : Nat} {p : Bits} (hi : i < n) (h : TreePath m i p j) : j + p.length ≤ i := by
  induction h with
  | here => simp
  | @left i j p hk _ ih =>
    by_cases hS : S ≤ i
    · have h1 := (t.internals i hS hi).2.1
      have := ih (by omega)
      simp only [List.length_cons]
      omega
    · rw [t.leaves i (by omega)] at hk; cases hk
  | @right i j p hk _ ih =>
    by_cases hS : S ≤ i
    · have h1 := (t.internals i hS hi).2.2.1
      have := ih (by omega)
      simp only [List.length_cons]
      omega
    · rw [t.leaves i (by omega)] at hk; cases hk

/-- The last step of a path comes from an internal entry. -/
theorem TreeShape.path_last {i j : Nat} {p : Bits} (hi : i < n) (h : TreePath m i p j) (hp : p ≠ []) :
    ∃ k q, TreePath m i q k ∧ S ≤ k ∧ k < n ∧ ((nodeAt m k).left.toNat = j ∨ (nodeAt m k).right.toNat = j) := by
  obtain ⟨q, b, rfl⟩ := List.eq_nil_or_concat p |>.resolve_left hp
  rw [List.concat_eq_append] at h
  obtain ⟨k, h1, h2⟩ := h.split
  have hle := t.path_le hi h1
  have hS : S ≤ k := by
    by_contra hc
    have hl := t.leaves k (by omega)
    exact absurd (TreePath.of_leaf hl h2).1 (by simp)
  refine ⟨k, q, h1, hS, by omega, ?_⟩
  cases h2 with
  | left _ r => cases r; exact .inl rfl
  | right _ r => cases r; exact .inr rfl

/-- Two entries above a third lie one above the other. -/
theorem TreeShape.path_linear {x y j : Nat} {p q : Bits} (hx : x < n) (hy : y < n) (h : TreePath m x p j)
    (h' : TreePath m y q j) : (∃ r, TreePath m x r y) ∨ ∃ r, TreePath m y r x := by
  induction p using List.reverseRecOn generalizing j q with
  | nil => cases h; exact .inr ⟨q, h'⟩
  | append_singleton p b ih =>
    by_cases hq : q = []
    · subst hq; cases h'; exact .inl ⟨_, h⟩
    · obtain ⟨q', c, rfl⟩ := List.eq_nil_or_concat q |>.resolve_left hq
      rw [List.concat_eq_append] at h'
      obtain ⟨k, h1, h2⟩ := h.split
      obtain ⟨k', h1', h2'⟩ := h'.split
      have hk := t.path_le hx h1
      have hk' := t.path_le hy h1'
      have child {k : Nat} {b : Bool} (h2 : TreePath m k [b] j) (hk : k < n) :
          S ≤ k ∧ ((nodeAt m k).left.toNat = j ∨ (nodeAt m k).right.toNat = j) := by
        refine ⟨?_, ?_⟩
        · by_contra hc
          exact absurd (TreePath.of_leaf (t.leaves k (by omega)) h2).1 (by simp)
        · cases h2 with
          | left _ r => cases r; exact .inl rfl
          | right _ r => cases r; exact .inr rfl
      obtain ⟨a1, a2⟩ := child h2 (by omega)
      obtain ⟨b1, b2⟩ := child h2' (by omega)
      obtain rfl := t.owned j k k' a1 (by omega) b1 (by omega) a2 b2
      exact ih h1 h1'

/-- The two subtrees of an internal entry share no entry. -/
theorem TreeShape.disjoint {i j : Nat} {p q : Bits} (hS : S ≤ i) (hi : i < n)
    (h : TreePath m (nodeAt m i).left.toNat p j) (h' : TreePath m (nodeAt m i).right.toNat q j) : False := by
  obtain ⟨-, hl, hr, hne⟩ := t.internals i hS hi
  have key : ∀ x y, x < i → y < i → x ≠ y →
      ((nodeAt m i).left.toNat = y ∨ (nodeAt m i).right.toNat = y) → ∀ r, ¬ TreePath m x r y := by
    intro x y hx hy hxy hc r hr
    obtain ⟨k, q, hk, hkS, hkn, hkc⟩ := t.path_last (by omega) hr (by
      rintro rfl; cases hr; exact hxy rfl)
    have := t.path_le (by omega) hk
    have := t.owned y k i hkS hkn hS hi hkc hc
    omega
  have hne' : (nodeAt m i).left.toNat ≠ (nodeAt m i).right.toNat := fun e => hne (BitVec.eq_of_toNat_eq e)
  rcases t.path_linear (by omega) (by omega) h h' with ⟨r, hr'⟩ | ⟨r, hr'⟩
  · exact key _ _ hl hr hne' (.inr rfl) r hr'
  · exact key _ _ hr hl hne'.symm (.inl rfl) r hr'

/-- GEN's walk of a subtree: it completes, gives each leaf under the entry its path after `p`, and touches
no other symbol. The depth check passes because each level goes to a smaller index. -/
theorem TreeShape.walk_spec (hn : n = 2 * S - 1) (hS : S ≤ 256) (fuel : Nat) {i : Nat} {p : Bits} {c : CodeTable}
    (hi : i < n) (hf : i < fuel) (hd : p.length + i < n)
    (hc : ∀ j q, TreePath m i q j → j < S → codeOf c (nodeAt m j).sym = []) :
    ∃ c', walk m fuel i p c = .ok c' ∧
      (∀ j q, TreePath m i q j → j < S → codeOf c' (nodeAt m j).sym = p ++ q) ∧
      ∀ x, (∀ j q, TreePath m i q j → j < S → (nodeAt m j).sym ≠ x) → codeOf c' x = codeOf c x := by
  induction fuel generalizing i p c with
  | zero => omega
  | succ fuel ih =>
    rw [walk]
    by_cases hiS : i < S
    · have hk := t.leaves i hiS
      rw [hk]
      simp only
      rw [if_neg (by simpa using hc i [] (.here i) hiS)]
      refine ⟨_, rfl, ?_, ?_⟩
      · intro j q hq _
        obtain ⟨rfl, rfl⟩ := TreePath.of_leaf hk hq
        rw [codeOf_setCode, if_pos rfl, List.append_nil]
      · intro x hx
        rw [codeOf_setCode, if_neg]
        rintro rfl
        exact hx i [] (.here i) hiS rfl
    · have hSi : S ≤ i := by omega
      obtain ⟨hk, hl, hr, hne⟩ := t.internals i hSi hi
      rw [hk]
      simp only
      rw [if_neg (by rw [not_or, not_or]; exact ⟨by omega, by omega, hne⟩),
        if_neg (by simp only [Config.maxLen]; omega)]
      obtain ⟨c1, e1, a1, b1⟩ := ih (i := (nodeAt m i).left.toNat) (p := p ++ [false]) (c := c) (by omega) (by omega)
        (by simp; omega) (fun j q hq hj => hc j (false :: q) (.left hk hq) hj)
      have hother : ∀ j q, TreePath m (nodeAt m i).right.toNat q j → j < S →
          codeOf c1 (nodeAt m j).sym = codeOf c (nodeAt m j).sym := by
        intro j q hq hj
        apply b1
        intro j' q' hq' hj' e
        obtain rfl := t.symbols j' j hj' hj e
        exact t.disjoint hSi hi hq' hq
      obtain ⟨c2, e2, a2, b2⟩ := ih (i := (nodeAt m i).right.toNat) (p := p ++ [true]) (c := c1) (by omega) (by omega)
        (by simp; omega) (fun j q hq hj => by rw [hother j q hq hj]; exact hc j (true :: q) (.right hk hq) hj)
      rw [e1]
      refine ⟨c2, e2, ?_, ?_⟩
      · intro j q hq hj
        cases hq with
        | here => omega
        | left _ hq =>
          rw [b2, a1 _ _ hq hj]
          · simp
          · intro j' q' hq' hj' e
            obtain rfl := t.symbols j' j hj' hj e
            exact t.disjoint hSi hi hq hq'
        | right _ hq => rw [a2 _ _ hq hj]; simp
      · intro x hx
        rw [b2 x (fun j q hq hj => hx j (true :: q) (.right hk hq) hj),
          b1 x (fun j q hq hj => hx j (false :: q) (.left hk hq) hj)]

end

/-- Every entry of a legal tree is under the root. -/
theorem TreeLegal.under_root {m : NodeMemory} {cnt root : NodeIndex} {valid : Bool}
    (h : TreeLegal m cnt valid root) (hv : valid = true) {i : Nat} (hi : i < cnt.toNat) :
    ∃ p, TreePath m root.toNat p i := by
  have hroot : root.toNat + 1 = cnt.toNat := by
    rcases h.count with h | h
    · rw [h.2.1] at hv; cases hv
    · exact h.2.2.2.2
  obtain ⟨d, hd⟩ : ∃ d, cnt.toNat - i ≤ d := ⟨_, Nat.le_refl _⟩
  induction d generalizing i with
  | zero => omega
  | succ d ih =>
    by_cases hr : i + 1 < cnt.toNat
    · obtain ⟨j, ⟨hj1, hj2, hj3⟩, -⟩ := h.owned i hr
      obtain ⟨hk, -, hl, hr', -, -⟩ := h.internals j hj1 hj2
      obtain ⟨p, hp⟩ := ih hj2 (by omega)
      rcases hj3 with rfl | rfl
      · exact ⟨p ++ [false], hp.append (.left hk (.here _))⟩
      · exact ⟨p ++ [true], hp.append (.right hk (.here _))⟩
    · obtain rfl : i = root.toNat := by omega
      exact ⟨[], .here _⟩

/-- GEN's codes of a legal tree: none without a tree, 0 for a lone leaf, else the paths of the leaves and
nothing for any other symbol. -/
theorem generateCodes_legal {m : NodeMemory} {cnt root : NodeIndex} {valid : Bool}
    (h : TreeLegal m cnt valid root) :
    ∃ c, generateCodes m cnt valid root = .ok c ∧
      (valid = false → c = emptyCode) ∧
      (leafCount cnt = 1 → c = setCode emptyCode (nodeAt m 0).sym [false]) ∧
      (2 ≤ leafCount cnt →
        (∀ j q, TreePath m root.toNat q j → j < leafCount cnt → codeOf c (nodeAt m j).sym = q) ∧
        ∀ x, (∀ j < leafCount cnt, (nodeAt m j).sym ≠ x) → codeOf c x = []) := by
  rcases h.count with ⟨h1, h2, h3⟩ | ⟨h1, h2, h3, h4, h5⟩
  · refine ⟨emptyCode, by rw [generateCodes, if_pos h2], fun _ => rfl, fun e => ?_, fun e => ?_⟩
    · rw [h1] at e; exact absurd e (by decide)
    · rw [h1] at e; exact absurd e (by decide)
  · rw [generateCodes, if_neg (by simp [h4]), if_neg (by omega)]
    by_cases hS : leafCount cnt = 1
    · have hr : root.toNat = 0 := by omega
      rw [hr, (h.leaves 0 (by omega)).1]
      exact ⟨_, rfl, fun e => (by rw [h4] at e; cases e), fun _ => rfl, fun e => by omega⟩
    · obtain ⟨hk, -⟩ := h.internals root.toNat (by omega) (by omega)
      rw [hk]
      obtain ⟨c, e, a, b⟩ := h.shape.walk_spec h1 h3 (root.toNat + 1) (i := root.toNat) (p := []) (c := emptyCode)
        (by omega) (by omega) (by simp; omega) (by simp)
      refine ⟨c, e, fun e => (by rw [h4] at e; cases e), fun e => absurd e hS, fun _ => ⟨fun j q hq hj => ?_, fun x hx => ?_⟩⟩
      · rw [a j q hq hj, List.nil_append]
      · rw [b x (fun j q _ hj => hx j hj), codeOf_emptyCode]

end Sys2Proof.Machine
end

