-- ==== Sys2Proof/Tests/Slice0.lean ====
section
/-! SUPPORT. Tests of the model against the spec's vectors (spec/95_test_vectors.md, cited by their ids) and
encodings, and a witness for the hypotheses of every statement that has any. -/

namespace Sys2Proof.Tests

open Sys2Proof.Machine

-- One theorem at a time: many kernel evaluations at once ask for more threads than the memory limit allows.
set_option Elab.async false

/-! ## Small states -/

/-- The state an outcome carries; `State.reset` for a refusal, which no arm gives. -/
def nextOf : Host.Outcome State Fault Refusal → State
  | .next t => t
  | .fault e => nomatch e
  | .refused _ => State.reset

/-- The state after one command. -/
def after (i : Instr) (s : State) : State := nextOf (exec i s)

theorem exec_after (i : Instr) (s : State) : exec i s = .next (after i s) := by
  obtain ⟨t, h⟩ := runCommand_total (writeSet i) (bodyOf i) s
  simp [after, exec_eq, h, nextOf]

/-- A check of the state after one command. -/
def check (i : Instr) (s : State) (p : State → Bool) : Bool := p (after i s)

/-- The reset state with a capacity, input bytes, a bit count and a code table. -/
def machine (cap : Nat) (x : List Byte) (b : Word) (c : CodeTable) : State :=
  { State.resetWith cap (Memory.writeBytes [] 0 x) [] [] 0 with
    inLen := BitVec.ofNat 32 x.length
    bitCnt := b
    code := c }

/-- OBUF[0..OUT_LEN). -/
def output (s : State) : List Byte := Memory.readBytes s.obuf 0 s.outLen.toNat

/-- The recorded fault. -/
def recorded (s : State) : Bool × Option Cause × Word := (s.faulted, s.faultCode, s.faultInfo)

/-- The code table T_S1 of the vectors. -/
def tS1 : CodeTable :=
  setCode (setCode (setCode emptyCode 0x41#8 [false]) 0x42#8 [true, true]) 0x43#8 [true, false]

/-- The input of vector S1. -/
def inputS1 : List Byte := [0x41#8, 0x41#8, 0x41#8, 0x42#8, 0x42#8, 0x43#8]

/-! ## The well-formedness checks refuse (rules R8, R106, R107) -/

theorem test_zero_field_refused : zeroFieldClear 0x00000100#32 = false := by decide
theorem test_opcode_refused : opcodeDefined 0x0000000E#32 = false := by decide
theorem test_word_refused_for_zero_field : commandWellFormed 0x80000002#32 = false := by decide
theorem test_word_refused_for_opcode : commandWellFormed 0x000000FF#32 = false := by decide
theorem test_capacity_zero_refused : bufCapWellFormed 0 = false := by decide
theorem test_capacity_too_large_refused : bufCapWellFormed (2 ^ 30 + 1) = false := by decide
theorem test_capacity_bounds_admitted : bufCapWellFormed 1 = true ∧ bufCapWellFormed (2 ^ 30) = true := by decide

/-! ## Every command's word, bit by bit: ZERO is 24 zeros, then the eight bits of OPC (rules R100, R105) -/

theorem test_decode_nop : decode (0#24 ++ 0b00000000#8) = .ok .nop := by decide
theorem test_decode_clr : decode (0#24 ++ 0b00000001#8) = .ok .clr := by decide
theorem test_decode_freq : decode (0#24 ++ 0b00000010#8) = .ok .freq := by decide
theorem test_decode_build : decode (0#24 ++ 0b00000011#8) = .ok .build := by decide
theorem test_decode_gen : decode (0#24 ++ 0b00000100#8) = .ok .gen := by decide
theorem test_decode_enc : decode (0#24 ++ 0b00000101#8) = .ok .enc := by decide
theorem test_decode_dec : decode (0#24 ++ 0b00000110#8) = .ok .dec := by decide
theorem test_decode_ser : decode (0#24 ++ 0b00000111#8) = .ok .ser := by decide
theorem test_decode_deser : decode (0#24 ++ 0b00001000#8) = .ok .deser := by decide
theorem test_decode_swap : decode (0#24 ++ 0b00001001#8) = .ok .swap := by decide
theorem test_decode_pack : decode (0#24 ++ 0b00001010#8) = .ok .pack := by decide
theorem test_decode_unpack : decode (0#24 ++ 0b00001011#8) = .ok .unpack := by decide
theorem test_decode_compress : decode (0#24 ++ 0b00001100#8) = .ok .compress := by decide
theorem test_decode_decompress : decode (0#24 ++ 0b00001101#8) = .ok .decompress := by decide

/-- X1, X2. -/
theorem test_decode_illegal :
    decode (0#24 ++ 0b00001110#8) = .error .reservedOpcode ∧
    decode (1#24 ++ 0b00000001#8) = .error .zeroFieldSet := by decide

/-- No word selects two rows of the opcode map. -/
theorem test_opcode_rows_disjoint :
    opcodeMap.Pairwise (fun a b => a.pattern &&& b.mask ≠ b.pattern &&& a.mask) := by decide

/-- The host's two readings of a table word. -/
theorem test_table_word : decodeTableWord 32 0xC = some .compress ∧ decodeTableWord 32 0xE = none := by decide

/-- A placed word is run by the very next step: NOP on the reset state completes (Y1). -/
theorem test_placed_word_runs : (nextOf (step (State.reset.withFetchWord 32 0))).done = true := by decide +kernel

/-! ## Results, from the vectors -/

/-- F3. -/
theorem test_freq : check .freq (machine 64 [0x00#8, 0xFF#8, 0xFF#8] 0 emptyCode) (fun t =>
    freqOf t.freq 0x00#8 = 1#32 ∧ freqOf t.freq 0xFF#8 = 2#32 ∧ freqOf t.freq 0x01#8 = 0#32) = true := by
  decide +kernel

/-- B6: the older entry goes first where a leaf and an internal entry tie. -/
theorem test_build : check .build { State.reset with
      freq := countBytes [0x01#8, 0x02#8, 0x02#8, 0x03#8, 0x03#8, 0x03#8] } (fun t =>
    t.nodeCnt = 5#9 ∧ t.rootValid = true ∧ t.rootIndex = 4#9 ∧
    nodeAt t.node 3 = ⟨.internal, 0#8, 3#32, 0#9, 1#9⟩ ∧
    nodeAt t.node 4 = ⟨.internal, 0#8, 6#32, 2#9, 3#9⟩) = true := by decide +kernel

/-- B8: LEFT is above RIGHT at the root. -/
theorem test_build_left_above_right : nodeAt (after .build { State.reset with
      freq := countBytes [0x61#8, 0x62#8, 0x62#8, 0x63#8, 0x63#8, 0x63#8, 0x63#8] }).node 4 =
    ⟨.internal, 0#8, 7#32, 3#9, 2#9⟩ := by decide +kernel

/-- S1's tree. -/
def treeS1 : State := after .build { State.reset with freq := countBytes inputS1 }

/-- S1. -/
theorem test_gen : codeOf (after .gen treeS1).code 0x41#8 = [false] ∧
    codeOf (after .gen treeS1).code 0x42#8 = [true, true] ∧
    codeOf (after .gen treeS1).code 0x43#8 = [true, false] ∧ codeCount (after .gen treeS1).code = 3 := by
  decide +kernel

/-- B15. -/
theorem test_gen_fault : recorded (after .gen { State.reset with
      nodeCnt := 3#9, rootValid := true, rootIndex := 2#9,
      node := setNode zeroNode 2 ⟨.internal, 0#8, 2#32, 0#9, 0#9⟩ }) =
    (true, some .invalidTreeState, 2#32) := by decide +kernel

/-- E1. -/
theorem test_enc : output (after .enc (machine 64 inputS1 0 tS1)) = [0x1F#8, 0x00#8] ∧
    (after .enc (machine 64 inputS1 0 tS1)).bitCnt = 9#32 := by decide +kernel

/-- E4: the late fault clears BITCNT. -/
theorem test_enc_fault : check .enc (machine 64 [0x41#8, 0x42#8, 0x44#8, 0x41#8] 77#32 tS1) (fun t =>
    recorded t = (true, some .missingCodeForSymbol, 2#32) ∧ t.bitCnt = 0#32 ∧ t.outLen = 0#32) = true := by
  decide +kernel

/-- D10: a repeated one-bit code. -/
theorem test_dec : output (after .dec (machine 64 [0x00#8] 5#32 (setCode emptyCode 0x7F#8 [false]))) =
    [0x7F#8, 0x7F#8, 0x7F#8, 0x7F#8, 0x7F#8] := by decide +kernel

/-- D12: the shortest match is taken, so `01` never matches; BITCNT is kept. -/
theorem test_dec_fault : check .dec
    (machine 64 [0x40#8] 3#32 (setCode (setCode emptyCode 0x41#8 [false]) 0x42#8 [false, true])) (fun t =>
    recorded t = (true, some .unmatchedBitSequence, 1#32) ∧ t.bitCnt = 3#32 ∧ t.outLen = 0#32) = true := by
  decide +kernel

/-- K3: the payload's padding is copied as it is. -/
theorem test_ser : output (after .ser (machine 64 [0x1F#8, 0x07#8, 0x99#8] 9#32 tS1)) =
    [0x00#8, 0x00#8, 0x00#8, 0x09#8, 0x1F#8, 0x07#8, 0x41#8, 0x01#8, 0x00#8, 0x42#8, 0x02#8, 0xC0#8,
     0x43#8, 0x02#8, 0x80#8] := by decide +kernel

/-- K7. -/
theorem test_ser_fault : recorded (after .ser (machine 14 [0x1F#8, 0x00#8] 9#32 tS1)) =
    (true, some .capacityExceeded, 15#32) := by decide +kernel

/-- K12: two codes, of which one begins the other. -/
theorem test_deser : check .deser (machine 64
      [0x00#8, 0x00#8, 0x00#8, 0x09#8, 0x1F#8, 0x00#8, 0x41#8, 0x01#8, 0x00#8, 0x42#8, 0x02#8, 0x40#8] 0
      emptyCode) (fun t =>
    codeOf t.code 0x41#8 = [false] ∧ codeOf t.code 0x42#8 = [false, true] ∧
    t.bitCnt = 9#32 ∧ output t = [0x1F#8, 0x00#8]) = true := by decide +kernel

/-- K24: the same code twice. -/
theorem test_deser_fault : recorded (after .deser (machine 64
      [0x00#8, 0x00#8, 0x00#8, 0x09#8, 0x1F#8, 0x00#8, 0x41#8, 0x01#8, 0x00#8, 0x42#8, 0x01#8, 0x7F#8] 0
      emptyCode)) = (true, some .invalidCodeTable, 9#32) := by decide +kernel

/-- Q7: bits 7:1 of an input byte are ignored. -/
theorem test_pack : check .pack (machine 64
      [0xFF#8, 0xFE#8, 0x03#8, 0x80#8, 0x01#8, 0x01#8, 0x01#8, 0x01#8] 0 emptyCode) (fun t =>
    output t = [0xAF#8] ∧ t.bitCnt = 8#32) = true := by decide +kernel

/-- Q1, by the streaming packer (rule R141): a partial byte of one bit is shifted left and emitted. -/
theorem test_stream_pack : streamPack [true, false, true, true, false, false, false, false, true] =
    ⟨[0xB0#8, 0x80#8], 0#7, 0#3⟩ := by decide

/-- Q9. -/
theorem test_unpack : output (after .unpack (machine 64 [0xA5#8, 0xFF#8] 12#32 emptyCode)) =
    [1#8, 0#8, 1#8, 0#8, 0#8, 1#8, 0#8, 1#8, 1#8, 1#8, 1#8, 1#8] := by decide +kernel

/-- Y3. -/
theorem test_swap : check .swap { machine 64 inputS1 0 emptyCode with
      obuf := [(0, 0x1F#8)], outLen := 2#32 } (fun t =>
    t.inLen = 2#32 ∧ inputBytes t = [0x1F#8, 0x00#8] ∧ output t = inputS1) = true := by decide +kernel

/-- Y2. -/
theorem test_clr : check .clr { machine 64 inputS1 9#32 tS1 with
      outLen := 15#32, freq := countBytes inputS1, ieDone := true } (fun t =>
    freqOf t.freq 0x41#8 = 0#32 ∧ codeOf t.code 0x41#8 = [] ∧ t.bitCnt = 0#32 ∧ t.outLen = 0#32 ∧
    t.inLen = 6#32 ∧ inputBytes t = inputS1 ∧ t.ieDone = true) = true := by decide +kernel

/-- Y1. -/
theorem test_nop : check .nop State.reset (fun t =>
    statusWord t = 2#32 ∧ t.cmdr = 0#32 ∧ t.outLen = 0#32 ∧ t.obuf = []) = true := by decide +kernel

/-- B11, rule R247: the container in OBUF, the payload in IBUF. -/
theorem test_compress : check .compress (machine 64 [0x00#8, 0xFF#8, 0xFF#8] 0 emptyCode) (fun t =>
    output t = [0x00#8, 0x00#8, 0x00#8, 0x03#8, 0x60#8, 0x00#8, 0x01#8, 0x00#8, 0xFF#8, 0x01#8, 0x80#8] ∧
    t.bitCnt = 3#32 ∧ inputBytes t = [0x60#8] ∧ t.nodeCnt = 3#9) = true := by decide +kernel

/-- Y14. -/
theorem test_decompress : check .decompress (machine 64
      [0x00#8, 0x00#8, 0x00#8, 0x08#8, 0x00#8, 0x7F#8, 0x01#8, 0x00#8] 3#32 emptyCode) (fun t =>
    output t = List.replicate 8 0x7F#8 ∧ t.bitCnt = 8#32 ∧ t.inLen = 1#32) = true := by decide +kernel

/-- Y16: a late fault of a composite command. -/
theorem test_decompress_fault : check .decompress (machine 64
      [0x00#8, 0x00#8, 0x00#8, 0x09#8, 0x1F#8, 0x00#8, 0x41#8, 0x01#8, 0x00#8, 0x42#8, 0x02#8, 0xC0#8,
       0x43#8] 3#32 emptyCode) (fun t =>
    recorded t = (true, some .truncatedInput, 12#32) ∧ t.bitCnt = 0#32) = true := by decide +kernel

/-- X1: an illegal word is accepted, and its engine step faults. -/
theorem test_illegal_word : recorded (nextOf (step (issueCommand 0xE#32 State.reset).1)) =
    (true, some .illegalCommand, 0xE#32) := by decide +kernel

/-- S1's NODEW and CODEW words (rules R47, R53). -/
theorem test_table_words :
    (portAccess (.read4 0x201C#32) treeS1).2 = okWord 0x80020001#32 ∧
    (portAccess (.read4 0x5084#32) { State.reset with code := tS1 }).2 = okWord 0xC0000000#32 := by
  decide +kernel

/-- Rules R111, R112, R113: `run CLR` with one poll before the engine's turn, and `ack`. -/
theorem test_script :
    (Stmt.run .clr 1).expand = [.access (.write4 0#32 1#32), .access (.read4 4#32), .engine, .access (.read4 4#32)] ∧
    Stmt.ack.expand = [.access (.write4 4#32 2#32)] := by decide

/-- Rules R36, R72 to R75, R80: a register, a misaligned word access, a wrong size, an access while BUSY. -/
theorem test_port :
    (portAccess (.read4 0x24#32) treeS1).2 = okWord 0x80000004#32 ∧
    (portAccess (.read4 0x06#32) State.reset).2 = ⟨.err, .word 0#32⟩ ∧
    (portAccess (.read4 0x40000000#32) State.reset).2 = ⟨.err, .word 0#32⟩ ∧
    (portAccess (.write4 0x14#32 1#32) { State.reset with busy := true }).2 = ⟨.err, .none⟩ := by decide +kernel

/-! ## Concrete data for the witnesses -/

/-- Two one-bit codes. -/
def two : CodeTable := setCode (setCode emptyCode 0x10#8 [false]) 0x20#8 [true]

theorem codeOf_two (x : Byte) :
    codeOf two x = if x = 0x20#8 then [true] else if x = 0x10#8 then [false] else [] := by
  simp [two, codeOf_setCode]

theorem two_distinct : CodesDistinct two := by
  intro a b h e
  simp only [codeOf_two] at h e
  split_ifs at h e <;> simp_all

theorem two_prefixFree : PrefixFree two := by
  intro a b ha hb hab
  simp only [codeOf_two] at ha hb ⊢
  split_ifs at ha hb ⊢ <;> simp_all

theorem two_lengths : CodeLengthsLegal two := by
  intro a
  simp only [codeOf_two]
  split_ifs <;> simp [Config.maxLen]

/-- One one-bit code. -/
def one : CodeTable := setCode emptyCode 0x10#8 [false]

theorem codeOf_one (x : Byte) : codeOf one x = if x = 0x10#8 then [false] else [] := by
  simp [one, codeOf_setCode]

theorem one_distinct : CodesDistinct one := by
  intro a b h e
  simp only [codeOf_one] at h e
  split_ifs at h e <;> simp_all

theorem machine_buffers {cap : Nat} {x : List Byte} (h : x.length ≤ cap) (b : Word) (c : CodeTable) :
    BuffersLegal (machine cap x b c) :=
  ⟨Memory.wf_writeBytes Memory.wf_nil 0 x, Memory.wf_nil,
    Memory.below_writeBytes (fun _ hx => nomatch hx) (by simpa [machine, State.resetWith] using h),
    fun _ hx => nomatch hx⟩

/-- A code of one bit is a shortest match. -/
theorem emit_bit {c : CodeTable} {s : Byte} {b : Bool} {q r : Bits} {x : List Byte} (h : codeOf c s = [b])
    (rest : ShortestMatches c q x r) : ShortestMatches c (b :: q) (s :: x) r := by
  have := ShortestMatches.emit (t := c) (s := s) (q := q) (r := r) (x := x) (by simp [h])
    (fun _ _ ha hne _ => by
      rw [h] at ha ⊢
      obtain ⟨z, hz⟩ := ha
      rcases List.append_eq_singleton_iff.mp hz with ⟨h, _⟩ | ⟨h, _⟩
      · exact absurd h hne
      · exact h) rest
  simpa [h] using this

theorem stop_nil (c : CodeTable) : ShortestMatches c [] [] [] :=
  .stop (fun _ _ ha hne _ => hne (List.prefix_nil.mp ha))

/-- Nothing matches a beginning of `1`. -/
theorem one_stops : ShortestMatches one [true] [] [true] := by
  refine .stop ?_
  intro a s ha hne e
  rw [codeOf_one] at e
  split_ifs at e
  · subst e; obtain ⟨z, hz⟩ := ha; simp at hz
  · exact hne e.symm

/-- The tree of vector B3's shape: two leaves and a root. -/
def twoNode : NodeMemory :=
  setNode (setNode (setNode zeroNode 0 (leafNode 0x10#8 1#32)) 1 (leafNode 0x20#8 1#32)) 2
    ⟨.internal, 0#8, 2#32, 0#9, 1#9⟩

theorem nodeAt_twoNode (i : Nat) : nodeAt twoNode i =
    if i = 2 then ⟨.internal, 0#8, 2#32, 0#9, 1#9⟩ else if i = 1 then leafNode 0x20#8 1#32
    else if i = 0 then leafNode 0x10#8 1#32 else Node.zero := by
  simp [twoNode, nodeAt_setNode]

theorem two_tree : TreeLegal twoNode 3#9 true 2#9 where
  count := .inr (by decide)
  leaves := by
    intro i hi
    rw [show leafCount 3#9 = 2 from rfl] at hi
    interval_cases i <;> simp [nodeAt_twoNode, leafNode]
  ascending := by
    intro i j hij hj
    rw [show leafCount 3#9 = 2 from rfl] at hj
    obtain ⟨rfl, rfl⟩ : i = 0 ∧ j = 1 := by omega
    simp [nodeAt_twoNode, leafNode]
  internals := by
    intro i h1 h2
    rw [show leafCount 3#9 = 2 from rfl] at h1
    obtain rfl : i = 2 := by have : i < 3 := h2; omega
    simp [nodeAt_twoNode, leafNode]
  owned := by
    intro i hi
    refine ⟨2, ⟨by decide, by decide, ?_⟩, fun k h1 h2 _ => ?_⟩
    · have : i < 2 := by have : i + 1 < 3 := hi; omega
      interval_cases i <;> simp [nodeAt_twoNode]
    · rw [show leafCount 3#9 = 2 from rfl] at h1
      have : k < 3 := h2
      omega
  rest := by
    intro i hi
    have : 3 ≤ i := hi
    simp [nodeAt_twoNode, show i ≠ 2 by omega, show i ≠ 1 by omega, show i ≠ 0 by omega]

/-- One leaf. -/
theorem one_tree : TreeLegal (setNode zeroNode 0 (leafNode 0x10#8 1#32)) 1#9 true 0#9 where
  count := .inr (by decide)
  leaves := by
    intro i hi
    rw [show leafCount 1#9 = 1 from rfl] at hi
    obtain rfl : i = 0 := by omega
    simp [nodeAt_setNode, leafNode]
  ascending := by intro i j hij hj; rw [show leafCount 1#9 = 1 from rfl] at hj; omega
  internals := by
    intro i h1 h2
    rw [show leafCount 1#9 = 1 from rfl] at h1
    have : i < 1 := h2
    omega
  owned := by intro i hi; have : i + 1 < 1 := hi; omega
  rest := by
    intro i hi
    have : 1 ≤ i := hi
    simp [nodeAt_setNode, show i ≠ 0 by omega]

/-- No tree. -/
theorem no_tree : TreeLegal zeroNode 0#9 false 0#9 where
  count := .inl (by decide)
  leaves := by intro i hi; rw [show leafCount 0#9 = 0 from rfl] at hi; omega
  ascending := by intro i j hij hj; rw [show leafCount 0#9 = 0 from rfl] at hj; omega
  internals := by intro i _ h2; have : i < 0 := h2; omega
  owned := by intro i hi; have : i + 1 < 0 := hi; omega
  rest := by intro i _; simp

/-- A state whose tables are those of the input 10 20 (vector B3). -/
def demo : State :=
  { machine 64 [0x10#8, 0x20#8] 2#32 two with
    freq := setFreq (setFreq zeroFreq 0x10#8 1#32) 0x20#8 1#32
    node := twoNode
    nodeCnt := 3#9
    rootValid := true
    rootIndex := 2#9 }

theorem demo_inv : Inv demo where
  capacity := by unfold CapacityLegal; decide
  status := ⟨fun h => (nomatch h), fun h => (nomatch h)⟩
  fault := ⟨⟨fun _ => rfl, fun _ => rfl⟩, fun _ => rfl⟩
  buffers := machine_buffers (cap := 64) (x := [0x10#8, 0x20#8]) (by simp) 2#32 two
  output := Nat.zero_le _
  lengths := two_lengths
  tables := fun _ => ⟨by unfold FreqLegal; decide +kernel, two_tree, two_distinct⟩

/-- `demo` with ENC latched. -/
def demoBusy : State := { demo with busy := true, cmdr := 0x5#32 }

theorem demoBusy_inv : Inv demoBusy where
  capacity := demo_inv.capacity
  status := ⟨fun h => (nomatch h), fun _ h => (nomatch h)⟩
  fault := demo_inv.fault
  buffers := demo_inv.buffers
  output := demo_inv.output
  lengths := demo_inv.lengths
  tables := demo_inv.tables

/-- `demo` with a recorded fault. -/
def demoFaulted : State :=
  { demo with faulted := true, faultCode := some .illegalCommand, faultInfo := 0xE#32, cmdr := 0xE#32 }

/-! ## Witnesses: each shows data that meet the hypotheses of the statement it is named after -/

theorem witness_StepRunsTheLatchedCommand :
    (∃ (s : State) (i : Instr), s.busy = true ∧ decode s.cmdr = .ok i ∧ s.inputs = []) ∧
    (∃ (s : State) (i : Instr) (rest : List Input), s.busy = true ∧ decode s.cmdr = .ok i ∧
      s.inputs = .engine :: rest) :=
  ⟨⟨demoBusy, .enc, rfl, by decide, rfl⟩,
    ⟨{ demoBusy with inputs := [.engine, .engine] }, .enc, [.engine], rfl, by decide, rfl⟩⟩

theorem witness_StepTakesTheFirstTurn :
    (∃ (s : State) (a : Access) (rest : List Input), s.inputs = .access a :: rest) ∧
    (∃ (s : State) (rest : List Input), s.inputs = .rst :: rest) ∧
    (∃ (s : State) (rest : List Input), s.busy = false ∧ s.inputs = .engine :: rest) ∧
    (∃ s : State, s.busy = false ∧ s.inputs = []) :=
  ⟨⟨{ demo with inputs := [.access (.read4 0#32)] }, _, _, rfl⟩, ⟨{ demo with inputs := [.rst] }, _, rfl⟩,
    ⟨{ demo with inputs := [.engine] }, _, rfl, rfl⟩, ⟨demo, rfl, rfl⟩⟩

theorem witness_PlacedWordRunsNext : ∃ (w : Nat) (i : Instr), w < 2 ^ 32 ∧ decode (BitVec.ofNat 32 w) = .ok i :=
  ⟨0xD, .decompress, by decide, by decide⟩

theorem witness_IllegalWordFaults :
    (∃ s : State, s.busy = true ∧ decode s.cmdr = .error .reservedOpcode ∧ s.inputs = []) ∧
    (∃ (s : State) (rest : List Input), s.busy = true ∧ decode s.cmdr = .error .zeroFieldSet ∧
      s.inputs = .engine :: rest) :=
  ⟨⟨{ demoBusy with cmdr := 0xE#32 }, rfl, by decide, rfl⟩,
    ⟨{ demoBusy with cmdr := 0x100#32, inputs := [.engine] }, [], rfl, by decide, rfl⟩⟩

theorem witness_CommandChangesOnlyItsWriteSet :
    (∃ (i : Instr) (s t : State), exec i s = .next t ∧ t.done = true) ∧
    (∃ (i : Instr) (s t : State), exec i s = .next t ∧ t.done = false) :=
  ⟨⟨.enc, demo, _, exec_after _ _, by decide +kernel⟩,
    ⟨.enc, { demo with code := emptyCode }, _, exec_after _ _, by decide +kernel⟩⟩

theorem witness_OutputCommandsKeepTheRestOfObuf : ∃ (i : Instr) (s t : State),
    i ∈ [Instr.enc, .dec, .ser, .deser, .pack, .unpack] ∧ CapacityLegal s ∧ Memory.wf s.obuf ∧
    exec i s = .next t ∧ t.done = true :=
  ⟨.enc, demo, _, by decide, demo_inv.capacity, demo_inv.buffers.2.1, exec_after _ _, by decide +kernel⟩

theorem demo_compress : (after .compress demo).done = true := by decide +kernel

theorem witness_CompositesExchangeTheRestOfTheBuffers : ∃ (i : Instr) (s t : State),
    i ∈ [Instr.compress, .decompress] ∧ Memory.wf s.ibuf ∧ Memory.wf s.obuf ∧ exec i s = .next t ∧
    t.done = true :=
  ⟨.compress, demo, _, by decide, demo_inv.buffers.1, demo_inv.buffers.2.1, exec_after _ _, demo_compress⟩

theorem witness_FaultEntryRecordsTheFault : ∃ l : Loc, l ∉ writeSet .enc ∧ l ≠ .faultCode ∧ l ≠ .faultInfo ∧
    l ≠ .faultBit ∧ .outLen ∈ writeSet .enc ∧ .bitCnt ∈ writeSet .enc := ⟨.code, by decide⟩

theorem witness_CheckInFaultsFirst : ∃ (i : Instr) (s : State),
    i ∈ [Instr.freq, .enc, .dec, .ser, .deser, .swap, .pack, .unpack, .compress, .decompress] ∧
    s.bufCap < s.inLen.toNat := ⟨.freq, { demo with bufCap := 1 }, by decide, by decide⟩

theorem witness_PayloadChecksFault :
    (∃ s : State, s.inLen.toNat ≤ s.bufCap ∧ 2 ^ 31 ≤ s.bitCnt.toNat) ∧
    (∃ s : State, s.inLen.toNat ≤ s.bufCap ∧ s.bitCnt.toNat < 2 ^ 31 ∧ s.inLen.toNat < ceil8 s.bitCnt.toNat) :=
  ⟨⟨{ demo with bitCnt := 0x80000000#32 }, by decide, by decide⟩,
    ⟨{ demo with bitCnt := 0x7FFFFFFF#32 }, by decide, by decide, by decide⟩⟩

theorem witness_OutputCapacityFaults :
    (∃ s : State, s.inLen.toNat ≤ s.bufCap ∧ s.bitCnt.toNat < 2 ^ 31 ∧ ceil8 s.bitCnt.toNat ≤ s.inLen.toNat ∧
      s.bufCap < s.bitCnt.toNat) ∧
    (∃ s : State, s.inLen.toNat ≤ s.bufCap ∧ s.bitCnt.toNat < 2 ^ 31 ∧ ceil8 s.bitCnt.toNat ≤ s.inLen.toNat ∧
      s.bufCap < 4 + ceil8 s.bitCnt.toNat + tableSize s.code) :=
  ⟨⟨{ demo with bufCap := 2, bitCnt := 16#32 }, by decide, by decide, by decide, by decide⟩,
    ⟨{ demo with bufCap := 3, inLen := 0#32, bitCnt := 0#32, code := emptyCode }, by decide, by decide,
      by decide, by decide +kernel⟩⟩

theorem witness_DeserEarlyFaults :
    (∃ s : State, s.inLen.toNat ≤ s.bufCap ∧ s.inLen.toNat < 4) ∧
    (∃ (s : State) (w : Nat), s.inLen.toNat ≤ s.bufCap ∧
      w = (Memory.read s.ibuf 0).toNat * 2 ^ 24 + (Memory.read s.ibuf 1).toNat * 2 ^ 16 +
        (Memory.read s.ibuf 2).toNat * 2 ^ 8 + (Memory.read s.ibuf 3).toNat ∧
      4 ≤ s.inLen.toNat ∧ 2 ^ 31 ≤ w) ∧
    (∃ (s : State) (w : Nat), s.inLen.toNat ≤ s.bufCap ∧
      w = (Memory.read s.ibuf 0).toNat * 2 ^ 24 + (Memory.read s.ibuf 1).toNat * 2 ^ 16 +
        (Memory.read s.ibuf 2).toNat * 2 ^ 8 + (Memory.read s.ibuf 3).toNat ∧
      4 ≤ s.inLen.toNat ∧ w < 2 ^ 31 ∧ s.inLen.toNat < 4 + ceil8 w) :=
  ⟨⟨machine 64 [0#8, 0#8, 0#8] 0 emptyCode, by decide, by decide⟩,
    ⟨machine 64 [0x80#8, 0#8, 0#8, 0#8] 0 emptyCode, _, by decide, rfl, by decide, by decide⟩,
    ⟨machine 64 [0#8, 0#8, 0#8, 1#8] 0 emptyCode, _, by decide, rfl, by decide, by decide, by decide⟩⟩

theorem witness_NopOnlyCompletes : (∃ s : State, s.faulted = false) ∧ (∃ s : State, s.faulted = true) :=
  ⟨⟨demo, rfl⟩, ⟨demoFaulted, rfl⟩⟩

theorem witness_ClrClearsTablesAndFault : ∃ s : State, s.faulted = true := ⟨demoFaulted, rfl⟩

theorem witness_SwapExchangesTheBuffers :
    (∃ s t u : State, s.inLen.toNat ≤ s.bufCap ∧ s.outLen.toNat ≤ s.bufCap ∧ exec .swap s = .next t ∧
      exec .swap t = .next u) ∧
    (∃ s : State, s.bufCap < s.inLen.toNat) :=
  ⟨⟨{ demo with bufCap := 2, outLen := 2#32 }, _, _, by decide, by decide, exec_after _ _, exec_after _ _⟩,
    ⟨{ demo with bufCap := 1 }, by decide⟩⟩

theorem witness_FreqCountsTheInput :
    (∃ s : State, CapacityLegal s ∧ s.inLen.toNat ≤ s.bufCap ∧ s.inLen.toNat = 0) ∧
    (∃ s : State, CapacityLegal s ∧ s.inLen.toNat ≤ s.bufCap ∧ 0 < s.inLen.toNat) :=
  ⟨⟨{ demo with inLen := 0#32 }, demo_inv.capacity, by decide, by decide⟩,
    ⟨{ demo with inLen := 64#32 }, demo_inv.capacity, by decide, by decide⟩⟩

theorem witness_BuildMakesTheTree : ∃ s : State, freqSum s.freq < 2 ^ 32 ∧ freqSum s.freq = 2 ^ 32 - 1 :=
  ⟨{ demo with freq := setFreq zeroFreq 0#8 0xFFFFFFFF#32 }, by decide +kernel, by decide +kernel⟩

theorem witness_BuildMergesTheTwoLeastKeys : ∃ (s t : State) (k : Nat), exec .build s = .next t ∧
    leafCount t.nodeCnt ≤ k ∧ k < t.nodeCnt.toNat :=
  ⟨demo, _, 2, exec_after _ _, by decide +kernel, by decide +kernel⟩

theorem witness_BuildDependsOnFreqAlone : ∃ s s' t t' : State, s.freq = s'.freq ∧ s ≠ s' ∧
    exec .build s = .next t ∧ exec .build s' = .next t' :=
  ⟨demo, { demo with ieDone := true }, _, _, rfl, fun h => (nomatch congrArg State.ieDone h),
    exec_after _ _, exec_after _ _⟩

theorem witness_GenReadsCodesOffTheTree :
    (∃ s : State, TreeLegal s.node s.nodeCnt s.rootValid s.rootIndex ∧ s.rootValid = false) ∧
    (∃ s : State, TreeLegal s.node s.nodeCnt s.rootValid s.rootIndex ∧ leafCount s.nodeCnt = 1) ∧
    (∃ s : State, TreeLegal s.node s.nodeCnt s.rootValid s.rootIndex ∧ 2 ≤ leafCount s.nodeCnt) :=
  ⟨⟨State.reset, no_tree, rfl⟩,
    ⟨{ demo with node := setNode zeroNode 0 (leafNode 0x10#8 1#32), nodeCnt := 1#9, rootIndex := 0#9 },
      one_tree, by decide⟩,
    ⟨demo, two_tree, by decide⟩⟩

theorem witness_GenCodesAreCompleteAndPrefixFree : ∃ s t : State,
    TreeLegal s.node s.nodeCnt s.rootValid s.rootIndex ∧ exec .gen s = .next t ∧ 2 ≤ leafCount s.nodeCnt :=
  ⟨demo, _, two_tree, exec_after _ _, by decide⟩

theorem witness_GenFaultsOnABadRoot :
    (∃ s : State, s.rootValid = true ∧ s.nodeCnt.toNat ≤ s.rootIndex.toNat) ∧
    (∃ s : State, s.rootValid = true ∧ s.rootIndex.toNat < s.nodeCnt.toNat ∧
      (nodeAt s.node s.rootIndex.toNat).kind = .internal ∧
      s.rootIndex.toNat ≤ (nodeAt s.node s.rootIndex.toNat).left.toNat) ∧
    (∃ s : State, s.rootValid = true ∧ s.rootIndex.toNat < s.nodeCnt.toNat ∧
      (nodeAt s.node s.rootIndex.toNat).kind = .internal ∧
      s.rootIndex.toNat ≤ (nodeAt s.node s.rootIndex.toNat).right.toNat) ∧
    (∃ s : State, s.rootValid = true ∧ s.rootIndex.toNat < s.nodeCnt.toNat ∧
      (nodeAt s.node s.rootIndex.toNat).kind = .internal ∧
      (nodeAt s.node s.rootIndex.toNat).left = (nodeAt s.node s.rootIndex.toNat).right) :=
  ⟨⟨{ demo with rootIndex := 3#9 }, rfl, by decide⟩,
    ⟨{ demo with node := setNode zeroNode 2 ⟨.internal, 0#8, 2#32, 2#9, 0#9⟩ }, rfl, by decide,
      by decide +kernel, by decide +kernel⟩,
    ⟨{ demo with node := setNode zeroNode 2 ⟨.internal, 0#8, 2#32, 0#9, 2#9⟩ }, rfl, by decide,
      by decide +kernel, by decide +kernel⟩,
    ⟨{ demo with node := setNode zeroNode 2 ⟨.internal, 0#8, 2#32, 0#9, 0#9⟩ }, rfl, by decide,
      by decide +kernel, by decide +kernel⟩⟩

theorem witness_PackAndUnpackAreInverse : ∃ (y : List Byte) (b : Nat), y.length = ceil8 b ∧
    ∀ i, b ≤ i → i < 8 * ceil8 b → (y.getD (i / 8) 0#8).getLsbD (7 - i % 8) = false :=
  ⟨[0x80#8], 1, by decide, fun i h1 h2 => by
    have : i < 8 := h2
    interval_cases i <;> decide⟩

theorem witness_PackCommandPacksBitZero : ∃ s : State, Memory.wf s.obuf ∧ s.inLen.toNat ≤ s.bufCap :=
  ⟨{ demo with bufCap := 2 }, demo_inv.buffers.2.1, by decide⟩

theorem witness_UnpackCommandSpreadsTheBits : ∃ s : State, Memory.wf s.obuf ∧ s.inLen.toNat ≤ s.bufCap ∧
    s.bitCnt.toNat < 2 ^ 31 ∧ ceil8 s.bitCnt.toNat ≤ s.inLen.toNat ∧ s.bitCnt.toNat ≤ s.bufCap :=
  ⟨{ demo with bufCap := 16, bitCnt := 16#32 }, demo_inv.buffers.2.1, by decide, by decide, by decide, by decide⟩

theorem witness_PackSwapUnpackRoundTrip : ∃ s : State, CapacityLegal s ∧ BuffersLegal s ∧
    s.inLen.toNat ≤ s.bufCap := ⟨demo, demo_inv.capacity, demo_inv.buffers, by decide⟩

theorem demo_input : inputBytes demo = [0x10#8, 0x20#8] := by decide +kernel

theorem witness_EncPacksTheCodes : ∃ (s : State) (e : Bits), Memory.wf s.obuf ∧ s.inLen.toNat ≤ s.bufCap ∧
    (∀ x ∈ inputBytes s, codeOf s.code x ≠ []) ∧ e = encodedStream s.code (inputBytes s) ∧
    e.length ≤ Config.bitCntMax ∧ ceil8 e.length ≤ s.bufCap :=
  ⟨demo, _, demo_inv.buffers.2.1, by decide, by decide +kernel, rfl, by decide +kernel, by decide +kernel⟩

/-- The length of the stream of `n` times the byte 00. -/
theorem length_encodedStream_replicate (a : Code) (n : Nat) :
    (encodedStream (setCode emptyCode 0#8 a) (List.replicate n 0#8)).length = n * a.length := by
  have h : codeOf (setCode emptyCode 0#8 a) 0#8 = a := by rw [codeOf_setCode, if_pos rfl]
  induction n with
  | zero => simp [encodedStream]
  | succ n ih =>
    rw [List.replicate_succ, encodedStream, List.flatMap_cons, List.length_append, h]
    rw [encodedStream] at ih
    rw [ih]
    ring

/-- 2^30 capacity, 8421505 bytes 00 with a code of 255 bits: one bit more than BITCNT_MAX allows. -/
def overflowing : State :=
  { State.resetWith (2 ^ 30) [] [] [] 0 with
    inLen := 8421505#32
    code := setCode emptyCode 0#8 (List.replicate 255 false) }

theorem overflowing_input : inputBytes overflowing = List.replicate 8421504 0#8 ++ [0#8] := by
  have h : ∀ n, Memory.readBytes [] 0 n = List.replicate n 0#8 := by
    intro n
    simp [Memory.readBytes, Memory.unlisted, List.map_const']
  show Memory.readBytes [] 0 (8421505#32).toNat = _
  rw [← List.replicate_succ', h, show (8421505#32).toNat = 8421504 + 1 by decide]

theorem witness_EncFaultsAtTheFirstBadByte :
    (∃ (s : State) (p : List Byte) (x : Byte) (rest : List Byte),
      s.inLen.toNat ≤ s.bufCap ∧ inputBytes s = p ++ x :: rest ∧ (∀ y ∈ p, codeOf s.code y ≠ []) ∧
      (encodedStream s.code p).length ≤ Config.bitCntMax ∧ ceil8 (encodedStream s.code p).length ≤ s.bufCap ∧
      codeOf s.code x = []) ∧
    (∃ (s : State) (p : List Byte) (x : Byte) (rest : List Byte),
      s.inLen.toNat ≤ s.bufCap ∧ inputBytes s = p ++ x :: rest ∧ (∀ y ∈ p, codeOf s.code y ≠ []) ∧
      (encodedStream s.code p).length ≤ Config.bitCntMax ∧ ceil8 (encodedStream s.code p).length ≤ s.bufCap ∧
      codeOf s.code x ≠ [] ∧ Config.bitCntMax < (encodedStream s.code (p ++ [x])).length) ∧
    (∃ (s : State) (p : List Byte) (x : Byte) (rest : List Byte),
      s.inLen.toNat ≤ s.bufCap ∧ inputBytes s = p ++ x :: rest ∧ (∀ y ∈ p, codeOf s.code y ≠ []) ∧
      (encodedStream s.code p).length ≤ Config.bitCntMax ∧ ceil8 (encodedStream s.code p).length ≤ s.bufCap ∧
      codeOf s.code x ≠ [] ∧ (encodedStream s.code (p ++ [x])).length ≤ Config.bitCntMax ∧
      s.bufCap < ceil8 (encodedStream s.code (p ++ [x])).length) := by
  refine ⟨⟨{ demo with code := one }, [0x10#8], 0x20#8, [], by decide, by decide +kernel, by decide +kernel,
    by decide +kernel, by decide +kernel, by decide +kernel⟩, ?_,
    ⟨machine 1 [0x10#8] 0 (setCode emptyCode 0x10#8 (List.replicate 9 true)), [], 0x10#8, [], by decide,
      by decide +kernel, by simp, by decide +kernel, by decide +kernel, by decide +kernel, by decide +kernel,
      by decide +kernel⟩⟩
  have h (n : Nat) : (encodedStream overflowing.code (List.replicate n 0#8)).length = n * 255 := by
    rw [← List.length_replicate (n := 255) (a := false)]
    exact length_encodedStream_replicate _ n
  have h0 : codeOf overflowing.code 0#8 ≠ [] := by
    have h1 := h 1
    intro e
    rw [List.replicate_one, encodedStream, List.flatMap_singleton, e] at h1
    exact absurd h1 (by decide)
  refine ⟨overflowing, List.replicate 8421504 0#8, 0#8, [], by decide, overflowing_input, ?_, ?_, ?_, h0, ?_⟩
  · intro y hy
    rw [List.eq_of_mem_replicate hy]
    exact h0
  · rw [h]; decide
  · rw [h]; decide
  · rw [← List.replicate_succ', h]; decide

theorem witness_DecEmitsTheShortestMatches : ∃ (s : State) (x : List Byte), Memory.wf s.obuf ∧
    CodesDistinct s.code ∧ s.inLen.toNat ≤ s.bufCap ∧ s.bitCnt.toNat < 2 ^ 31 ∧
    ceil8 s.bitCnt.toNat ≤ s.inLen.toNat ∧
    ShortestMatches s.code (unpackBits (inputBytes s) s.bitCnt.toNat) x [] ∧ x.length ≤ s.bufCap := by
  refine ⟨machine 2 [0x40#8] 2#32 two, [0x10#8, 0x20#8], Memory.wf_nil, two_distinct, by decide, by decide,
    by decide, ?_, by decide⟩
  rw [show unpackBits (inputBytes (machine 2 [0x40#8] 2#32 two)) (machine 2 [0x40#8] 2#32 two).bitCnt.toNat =
    [false, true] by decide +kernel]
  exact emit_bit (by decide +kernel) (emit_bit (by decide +kernel) (stop_nil _))

theorem witness_DecFaultsInItsLoop :
    (∃ (s : State) (x : List Byte) (r : Bits), CodesDistinct s.code ∧ s.inLen.toNat ≤ s.bufCap ∧
      s.bitCnt.toNat < 2 ^ 31 ∧ ceil8 s.bitCnt.toNat ≤ s.inLen.toNat ∧
      ShortestMatches s.code (unpackBits (inputBytes s) s.bitCnt.toNat) x r ∧ x.length ≤ s.bufCap ∧ r ≠ []) ∧
    (∃ (s : State) (x : List Byte) (r : Bits), CodesDistinct s.code ∧ s.inLen.toNat ≤ s.bufCap ∧
      s.bitCnt.toNat < 2 ^ 31 ∧ ceil8 s.bitCnt.toNat ≤ s.inLen.toNat ∧
      ShortestMatches s.code (unpackBits (inputBytes s) s.bitCnt.toNat) x r ∧ s.bufCap < x.length) := by
  constructor
  · refine ⟨machine 1 [0x40#8] 2#32 one, [0x10#8], [true], one_distinct, by decide, by decide, by decide, ?_,
      by decide, by simp⟩
    rw [show unpackBits (inputBytes (machine 1 [0x40#8] 2#32 one)) (machine 1 [0x40#8] 2#32 one).bitCnt.toNat =
      [false, true] by decide +kernel]
    exact emit_bit (by decide +kernel) one_stops
  · refine ⟨machine 1 [0x00#8] 2#32 one, [0x10#8, 0x10#8], [], one_distinct, by decide, by decide, by decide, ?_,
      by decide⟩
    rw [show unpackBits (inputBytes (machine 1 [0x00#8] 2#32 one)) (machine 1 [0x00#8] 2#32 one).bitCnt.toNat =
      [false, false] by decide +kernel]
    exact emit_bit (by decide +kernel) (emit_bit (by decide +kernel) (stop_nil _))

theorem witness_EncSwapDecRoundTrip : ∃ s t : State, CapacityLegal s ∧ BuffersLegal s ∧ PrefixFree s.code ∧
    exec .enc s = .next t ∧ t.done = true :=
  ⟨demo, _, demo_inv.capacity, demo_inv.buffers, two_prefixFree, exec_after _ _, by decide +kernel⟩

theorem witness_SerFramesTheContainer : ∃ (s : State) (p t : Nat), Memory.wf s.obuf ∧
    s.inLen.toNat ≤ s.bufCap ∧ s.bitCnt.toNat < 2 ^ 31 ∧ p = ceil8 s.bitCnt.toNat ∧ p ≤ s.inLen.toNat ∧
    t = tableSize s.code ∧ 4 + p + t ≤ s.bufCap :=
  ⟨{ demo with bufCap := 11 }, _, _, demo_inv.buffers.2.1, by decide, by decide, rfl, by decide, rfl,
    by decide +kernel⟩

/-- The entries of the table `two`. -/
def twoEntries : List RawEntry := [⟨0x10#8, 1, [0x00#8]⟩, ⟨0x20#8, 1, [0x80#8]⟩]

theorem twoEntries_legal : EntriesLegal twoEntries := by
  refine ⟨?_, by decide, by decide⟩
  intro e he
  simp only [twoEntries, List.mem_cons, List.not_mem_nil, or_false] at he
  rcases he with rfl | rfl <;> simp [RawEntry.legal, Config.maxLen, ceil8]

theorem two_holds : HoldsEntries two twoEntries := by
  refine ⟨by decide +kernel, ?_⟩
  intro x hx
  simp only [twoEntries, List.map_cons, List.map_nil, List.mem_cons, List.not_mem_nil, or_false, not_or] at hx
  rw [codeOf_two, if_neg hx.2, if_neg hx.1]

/-- A container of two bits and the entries of `two`, with some bytes after it. -/
def frame (tail : List Byte) : State :=
  machine 64 (headerBytes 2 ++ [0x40#8] ++ rawTable twoEntries ++ tail) 0 emptyCode

/-- A machine's input is the bytes it was given. -/
theorem machine_input {cap : Nat} {x : List Byte} (h : x.length < 2 ^ 32) (b : Word) (c : CodeTable) :
    inputLength (machine cap x b c) = x.length ∧ inputBytes (machine cap x b c) = x := by
  have hl : inputLength (machine cap x b c) = x.length := by
    show (BitVec.ofNat 32 x.length).toNat = _
    rw [BitVec.toNat_ofNat, Nat.mod_eq_of_lt h]
  refine ⟨hl, ?_⟩
  rw [inputBytes, hl]
  exact Memory.readBytes_writeBytes Memory.wf_nil 0 x

theorem witness_DeserLoadsTheContainer : ∃ (s : State) (b : Nat) (y : List Byte) (es : List RawEntry),
    Memory.wf s.obuf ∧ s.inLen.toNat ≤ s.bufCap ∧ b < 2 ^ 31 ∧ y.length = ceil8 b ∧ EntriesLegal es ∧
    inputBytes s = headerBytes b ++ y ++ rawTable es :=
  ⟨frame [], 2, [0x40#8], twoEntries, Memory.wf_nil, by decide, by decide, by decide, twoEntries_legal,
    by decide +kernel⟩

theorem witness_DeserFaultsInItsTableLoop : ∀ tail : List Byte,
    tail ∈ [[0x30#8], [0x30#8, 0x00#8], [0x30#8, 0x09#8, 0xAA#8], [0x10#8, 0x02#8, 0xC0#8],
      [0x30#8, 0x01#8, 0x7F#8]] →
    ∃ (s : State) (b : Nat) (y : List Byte) (es : List RawEntry), s.inLen.toNat ≤ s.bufCap ∧ b < 2 ^ 31 ∧
      y.length = ceil8 b ∧ EntriesLegal es ∧ inputBytes s = headerBytes b ++ y ++ rawTable es ++ tail ∧
      (tail.length = 1 ∨ (∃ x rest, tail = x :: 0#8 :: rest) ∨
        (∃ x l rest, tail = x :: l :: rest ∧ l ≠ 0#8 ∧ rest.length < ceil8 l.toNat) ∨
        (∃ (e : RawEntry) (rest : List Byte), e.legal ∧ tail = e.raw ++ rest ∧
          (e.sym ∈ es.map RawEntry.sym ∨ e.code ∈ es.map RawEntry.code))) := by
  intro tail h
  simp only [List.mem_cons, List.not_mem_nil, or_false] at h
  have hi : inputBytes (frame tail) = headerBytes 2 ++ [0x40#8] ++ rawTable twoEntries ++ tail := by
    rcases h with rfl | rfl | rfl | rfl | rfl <;> decide +kernel
  have hl : (frame tail).inLen.toNat ≤ (frame tail).bufCap := by
    rcases h with rfl | rfl | rfl | rfl | rfl <;> decide +kernel
  refine ⟨frame tail, 2, [0x40#8], twoEntries, hl, by decide, by decide, twoEntries_legal, hi, ?_⟩
  rcases h with rfl | rfl | rfl | rfl | rfl
  · exact .inl rfl
  · exact .inr (.inl ⟨_, _, rfl⟩)
  · exact .inr (.inr (.inl ⟨_, _, _, rfl, by decide, by decide⟩))
  · exact .inr (.inr (.inr ⟨⟨0x10#8, 2, [0xC0#8]⟩, [], by simp [RawEntry.legal, Config.maxLen, ceil8], rfl,
      .inl (by decide)⟩))
  · exact .inr (.inr (.inr ⟨⟨0x30#8, 1, [0x7F#8]⟩, [], by simp [RawEntry.legal, Config.maxLen, ceil8], rfl,
      .inr (by decide)⟩))

theorem witness_SerSwapDeserIdentity : ∃ s t : State, CapacityLegal s ∧ BuffersLegal s ∧ CodesDistinct s.code ∧
    CodeLengthsLegal s.code ∧ exec .ser s = .next t ∧ t.done = true :=
  ⟨demo, _, demo_inv.capacity, demo_inv.buffers, two_distinct, two_lengths, exec_after _ _, by decide +kernel⟩

theorem witness_EveryInputByteGetsACode : ∃ x : List Byte, x.length ≤ Config.bufCapMax ∧ x ≠ [] :=
  ⟨[0x10#8], by decide, by decide⟩

/-- The codes of the input 10 20: one bit each, so the container has 11 bytes. -/
theorem codesFor_two : ∃ c, codesFor [0x10#8, 0x20#8] = some c ∧
    (encodedStream c [0x10#8, 0x20#8]).length ≤ Config.bitCntMax ∧
    ceil8 (encodedStream c [0x10#8, 0x20#8]).length ≤ 10 ∧
    4 + ceil8 (encodedStream c [0x10#8, 0x20#8]).length + tableSize c = 11 := by
  have h : (codesFor [0x10#8, 0x20#8]).any (fun c =>
      decide ((encodedStream c [0x10#8, 0x20#8]).length ≤ Config.bitCntMax ∧
        ceil8 (encodedStream c [0x10#8, 0x20#8]).length ≤ 10 ∧
        4 + ceil8 (encodedStream c [0x10#8, 0x20#8]).length + tableSize c = 11)) = true := by decide +kernel
  cases hc : codesFor [0x10#8, 0x20#8] with
  | none => rw [hc] at h; cases h
  | some c =>
    rw [hc] at h
    exact ⟨c, rfl, of_decide_eq_true h⟩

theorem witness_CompressMakesTheContainer : ∃ (s : State) (c : CodeTable) (e : Bits), CapacityLegal s ∧
    BuffersLegal s ∧ s.inLen.toNat ≤ s.bufCap ∧ codesFor (inputBytes s) = some c ∧
    e = encodedStream c (inputBytes s) ∧ e.length ≤ Config.bitCntMax ∧
    4 + ceil8 e.length + tableSize c ≤ s.bufCap := by
  obtain ⟨c, hc, h1, _, h2⟩ := codesFor_two
  have e : inputBytes (machine 11 [0x10#8, 0x20#8] 0 emptyCode) = [0x10#8, 0x20#8] := by decide +kernel
  exact ⟨machine 11 [0x10#8, 0x20#8] 0 emptyCode, c, _, by unfold CapacityLegal; decide,
    machine_buffers (by simp) _ _, by decide, by rw [e]; exact hc, rfl, by rw [e]; exact h1, by rw [e]; exact h2.le⟩

/-- Eight symbols in runs of `n`. -/
def runsOf (n : Nat) : List Byte := (List.range 8).flatMap (fun i => List.replicate n (BitVec.ofNat 8 i))

theorem length_runsOf (n : Nat) : (runsOf n).length = 8 * n := by
  simp [runsOf, List.length_flatMap]
  omega

theorem mem_runsOf {n : Nat} {x : Byte} (h : x ∈ runsOf n) : x ∈ (List.range 8).map (BitVec.ofNat 8) := by
  obtain ⟨i, hi, h⟩ := List.mem_flatMap.mp h
  exact List.mem_map.mpr ⟨i, hi, (List.eq_of_mem_replicate h).symm⟩

theorem count_runsOf (n : Nat) (x : Byte) :
    (runsOf n).count x = ((List.range 8).map (fun i => if BitVec.ofNat 8 i = x then n else 0)).sum := by
  rw [runsOf, List.count_flatMap]
  congr 1
  apply List.map_congr_left
  intro i _
  simp [List.count_replicate]

/-- 2^30 bytes whose codes have 3 bits each: more than BITCNT_MAX bits. -/
def runs : List Byte := runsOf (2 ^ 27)

theorem runs_length : runs.length = 2 ^ 30 := length_runsOf _

/-- The counters of `runs`. -/
def runsFreq : FreqTable :=
  (List.range 8).foldl (fun t i => setFreq t (BitVec.ofNat 8 i) 0x08000000#32) zeroFreq

theorem countBytes_runs : countBytes runs = runsFreq := by
  apply freqTable_ext
  intro x
  rw [freqOf_countBytes, runs, count_runsOf]
  revert x
  decide +kernel

theorem codesFor_runs : ∃ c, codesFor runs = some c ∧ ∀ x ∈ runs, (codeOf c x).length = 3 := by
  have h : (codesFor runs).any (fun c => (List.range 8).all (fun i => (codeOf c (BitVec.ofNat 8 i)).length = 3)) = true := by
    rw [codesFor, countBytes_runs]
    decide +kernel
  cases hc : codesFor runs with
  | none => rw [hc] at h; cases h
  | some c =>
    rw [hc] at h
    refine ⟨c, rfl, fun x hx => ?_⟩
    obtain ⟨i, hi, rfl⟩ := List.mem_map.mp (mem_runsOf hx)
    exact of_decide_eq_true (List.all_eq_true.mp h i hi)

theorem length_encodedStream_of {c : CodeTable} {n : Nat} {l : List Byte} (h : ∀ x ∈ l, (codeOf c x).length = n) :
    (encodedStream c l).length = n * l.length := by
  induction l with
  | nil => rfl
  | cons x l ih =>
    rw [encodedStream_cons, List.length_append, h x (by simp), ih (fun y hy => h y (by simp [hy])), List.length_cons]
    ring

theorem length_take_runs : (runs.take 715827882).length = 715827882 := by
  rw [List.length_take, runs_length]; decide

/-- `runs` in the largest IBUF. -/
def runsState : State := machine (2 ^ 30) runs 0 emptyCode

theorem runs_input : inputLength runsState = 2 ^ 30 ∧ inputBytes runsState = runs := by
  have h := machine_input (cap := 2 ^ 30) (x := runs) (by rw [runs_length]; decide) 0 emptyCode
  rw [runs_length] at h
  exact h

theorem runs_overflow {s : State} (hl : inputLength s = 2 ^ 30) (hi : inputBytes s = runs) (hs : s.bufCap = 2 ^ 30) :
    ∃ f b g : State, exec .freq s = .next f ∧ f.done = true ∧ exec .build f = .next b ∧ exec .gen b = .next g ∧
      FaultsWith .enc g .lengthOverflow 715827882 .late := by
  obtain ⟨c, hc, h3⟩ := codesFor_runs
  rw [← hi] at hc
  obtain ⟨a, b, h1, h2, h4, hb⟩ := codesFor_stages hc (by rw [hl, hs])
  refine ⟨complete a, complete b, complete { b with code := c }, exec_of_ok h1, rfl,
    exec_of_ok (i := .build) (t := complete b) ?_, exec_of_ok (i := .gen) (t := complete { b with code := c }) ?_, ?_⟩
  · show buildBody (complete a) = _
    rw [buildBody_complete, h2]; rfl
  · show genBody (complete b) = _
    rw [genBody_complete, h4]; rfl
  rw [faultsWith_iff]
  obtain ⟨x, rest, hx⟩ : ∃ x rest, runs.drop 715827882 = x :: rest := by
    cases h : runs.drop 715827882 with
    | cons x rest => exact ⟨x, rest, rfl⟩
    | nil =>
      have := congrArg List.length h
      rw [List.length_drop, runs_length] at this
      exact absurd this (by decide)
  have hsplit : runs = runs.take 715827882 ++ x :: rest := by rw [← hx, List.take_append_drop]
  have hmem : ∀ y ∈ runs.take 715827882, (codeOf c y).length = 3 := fun y hy => h3 y (List.mem_of_mem_take hy)
  have hxl : (codeOf c x).length = 3 := h3 x (List.mem_of_mem_drop (by rw [hx]; exact List.mem_cons_self))
  have hlen : (encodedStream c (runs.take 715827882)).length = 2147483646 := by
    rw [length_encodedStream_of hmem, length_take_runs]
  have hne {y : Byte} (h : (codeOf c y).length = 3) : codeOf c y ≠ [] := by intro e; rw [e] at h; cases h
  have hcap : (complete { b with code := c }).bufCap = 2 ^ 30 := by rw [hb]; exact hs
  have hil : inputLength (complete { b with code := c }) = 2 ^ 30 := by rw [hb]; exact hl
  have hib : (complete { b with code := c }).ibuf = s.ibuf := by rw [hb]; rfl
  have hin : inputBytes (complete { b with code := c }) = runs.take 715827882 ++ x :: rest := by
    rw [← hsplit, ← hi, inputBytes, inputBytes, hib, hil, hl]
  have key := encodeFrom_append (c := c) (cap := 2 ^ 30) (i := 0) (b := 0) (e := []) (p := runs.take 715827882)
    (xs := x :: rest) rfl (fun y hy => hne (hmem y hy)) (by rw [List.nil_append, hlen]; decide)
    (by rw [List.nil_append, hlen]; decide)
  refine encBody_of_error (by rw [hil, hcap]) ?_
  rw [hin, hcap]
  refine key.trans ?_
  rw [encodeFrom, if_neg (hne hxl), hlen, hxl, if_pos (by decide), length_take_runs, Nat.zero_add]
  rfl

theorem witness_CompressFaultsOnlyForSize :
    (∃ s t : State, CapacityLegal s ∧ exec .compress s = .next t ∧ t.done = true) ∧
    (∃ s t : State, CapacityLegal s ∧ exec .compress s = .next t ∧ t.faultCode = some .capacityExceeded) ∧
    (∃ s : State, CapacityLegal s ∧ s.bufCap < s.inLen.toNat) ∧
    (∃ (s f b g : State) (k : Cause) (info : Nat) (p : Phase), CapacityLegal s ∧ exec .freq s = .next f ∧
      f.done = true ∧ exec .build f = .next b ∧ exec .gen b = .next g ∧ FaultsWith .enc g k info p) ∧
    (∃ (s : State) (c : CodeTable) (e : Bits), CapacityLegal s ∧ s.inLen.toNat ≤ s.bufCap ∧
      codesFor (inputBytes s) = some c ∧ e = encodedStream c (inputBytes s) ∧ e.length ≤ Config.bitCntMax ∧
      ceil8 e.length ≤ s.bufCap ∧ s.bufCap < 4 + ceil8 e.length + tableSize c) := by
  refine ⟨⟨demo, _, demo_inv.capacity, exec_after _ _, demo_compress⟩,
    ⟨machine 3 [] 0 emptyCode, _, by unfold CapacityLegal; decide, exec_after _ _, by decide +kernel⟩,
    ⟨{ demo with bufCap := 1 }, by unfold CapacityLegal; decide, by decide⟩, ?_, ?_⟩
  · obtain ⟨f, b, g, h⟩ := runs_overflow runs_input.1 runs_input.2 rfl
    exact ⟨runsState, f, b, g, _, _, _, by unfold CapacityLegal; decide, h⟩
  · obtain ⟨c, hc, h⟩ := codesFor_two
    have e : inputBytes (machine 10 [0x10#8, 0x20#8] 0 emptyCode) = [0x10#8, 0x20#8] := by decide +kernel
    exact ⟨machine 10 [0x10#8, 0x20#8] 0 emptyCode, c, _, by unfold CapacityLegal; decide, by decide,
      by rw [e]; exact hc, rfl, by rw [e]; exact h.1, by rw [e]; exact h.2.1,
      by rw [e, show (machine 10 [0x10#8, 0x20#8] 0 emptyCode).bufCap = 10 from rfl, h.2.2]; decide⟩

/-- The entry of the table `one`. -/
def oneEntries : List RawEntry := [⟨0x10#8, 1, [0x00#8]⟩]

theorem oneEntries_legal : EntriesLegal oneEntries := by
  refine ⟨?_, by decide, by decide⟩
  intro e he
  obtain rfl := List.mem_singleton.mp he
  simp [RawEntry.legal, Config.maxLen, ceil8]

theorem one_holds : HoldsEntries one oneEntries := by
  refine ⟨by decide +kernel, ?_⟩
  intro x hx
  rw [codeOf_one, if_neg (fun h => hx (by rw [h]; decide))]

/-- Zero bits are read as the byte 10, one each. -/
theorem one_reads (n : Nat) : ShortestMatches one (List.replicate n false) (List.replicate n 0x10#8) [] := by
  induction n with
  | zero => exact stop_nil one
  | succ n ih => exact emit_bit (by decide +kernel) ih

theorem witness_DecompressReadsTheContainer :
    (∃ (s : State) (k : Cause) (info : Nat), FaultsWith .deser s k info .early) ∧
    (∃ (s : State) (k : Cause) (info : Nat), FaultsWith .deser s k info .late) ∧
    ∀ n ∈ [0, 1, 2], ∃ (s : State) (b : Nat) (y : List Byte) (es : List RawEntry)
      (c : CodeTable) (x : List Byte) (r : Bits), CapacityLegal s ∧ BuffersLegal s ∧ s.inLen.toNat ≤ s.bufCap ∧
      b < 2 ^ 31 ∧ y.length = ceil8 b ∧ EntriesLegal es ∧ inputBytes s = headerBytes b ++ y ++ rawTable es ∧
      HoldsEntries c es ∧ ShortestMatches c (unpackBits y b) x r ∧
      (n = 0 → r = [] ∧ x.length ≤ s.bufCap) ∧ (n = 1 → r ≠ [] ∧ x.length ≤ s.bufCap) ∧
      (n = 2 → s.bufCap < x.length) := by
  refine ⟨⟨machine 3 [0x00#8, 0x00#8, 0x00#8] 0 emptyCode, .truncatedInput, 0,
      faultsWith_iff.mpr (show deserBody _ = _ by rw [deserBody, checkIn_pass (by decide), if_pos (by decide)]; rfl)⟩,
    ⟨frame [0x30#8], .truncatedInput, 4 + ceil8 2 + (rawTable twoEntries).length,
      faultsWith_iff.mpr (show deserBody _ = _ from ?_)⟩, ?_⟩
  · have hi : inputBytes (frame [0x30#8]) = headerBytes 2 ++ [0x40#8] ++ (rawTable twoEntries ++ [0x30#8]) := by
      decide +kernel
    refine deserBody_of_error (by decide) (by decide) (by decide) hi ?_
    rw [show inputLength (frame [0x30#8]) = 12 by decide, hi]
    decide +kernel
  intro n hn
  simp only [List.mem_cons, List.not_mem_nil, or_false] at hn
  rcases hn with rfl | rfl | rfl
  · refine ⟨frame [], 2, [0x40#8], twoEntries, two, [0x10#8, 0x20#8], [], by unfold CapacityLegal; decide,
      machine_buffers (by decide) _ _, by decide, by decide, by decide, twoEntries_legal, by decide +kernel,
      two_holds, ?_, fun _ => ⟨rfl, by decide⟩, by simp, by simp⟩
    rw [show unpackBits [0x40#8] 2 = [false, true] by decide]
    exact emit_bit (by decide +kernel) (emit_bit (by decide +kernel) (stop_nil _))
  · refine ⟨machine 8 (headerBytes 2 ++ [0x40#8] ++ rawTable oneEntries) 0 emptyCode, 2, [0x40#8], oneEntries, one,
      [0x10#8], [true], by unfold CapacityLegal; decide, machine_buffers (by decide) _ _, by decide, by decide,
      by decide, oneEntries_legal, by decide +kernel, one_holds, ?_, by simp, fun _ => ⟨by simp, by decide⟩, by simp⟩
    rw [show unpackBits [0x40#8] 2 = [false, true] by decide]
    exact emit_bit (by decide +kernel) one_stops
  · refine ⟨machine 9 (headerBytes 10 ++ [0x00#8, 0x00#8] ++ rawTable oneEntries) 0 emptyCode, 10, [0x00#8, 0x00#8],
      oneEntries, one, List.replicate 10 0x10#8, [], by unfold CapacityLegal; decide, machine_buffers (by decide) _ _,
      by decide, by decide, by decide, oneEntries_legal, by decide +kernel, one_holds, ?_, by simp, by simp,
      fun _ => by decide⟩
    rw [show unpackBits [0x00#8, 0x00#8] 10 = List.replicate 10 false by decide]
    exact one_reads 10

theorem witness_CompressDecompressRoundTrip : ∃ s t : State, CapacityLegal s ∧ BuffersLegal s ∧
    exec .compress s = .next t ∧ t.done = true :=
  ⟨demo, _, demo_inv.capacity, demo_inv.buffers, exec_after _ _, demo_compress⟩

theorem witness_CommandsFromReset :
    (∃ (cap : Nat) (i o : Memory), bufCapWellFormed cap = true ∧ Memory.wf i ∧ Memory.wf o ∧ 4 ≤ cap) ∧
    (∃ (cap : Nat) (i o : Memory), bufCapWellFormed cap = true ∧ Memory.wf i ∧ Memory.wf o ∧ cap < 4) :=
  ⟨⟨4, [(0, 0xFF#8)], [], by decide, by decide, Memory.wf_nil, by decide⟩,
    ⟨3, [(0, 0xFF#8)], [], by decide, by decide, Memory.wf_nil, by decide⟩⟩

theorem witness_BusyPortServesOnlyStatus :
    (∃ s : State, s.busy = true ∧ StatusLegal s ∧ s.faulted = false) ∧
    (∃ s : State, s.busy = true ∧ StatusLegal s ∧ s.faulted = true) ∧
    (∃ o : Word, o ≠ 0x00000004#32) :=
  ⟨⟨demoBusy, rfl, demoBusy_inv.status, rfl⟩,
    ⟨{ demoFaulted with busy := true, cmdr := 1#32 }, rfl, ⟨fun h => Bool.noConfusion h, fun _ _ => rfl⟩, rfl⟩,
    ⟨0x00000005#32, by decide⟩⟩

theorem witness_CommandAcceptedOrRefused :
    (∃ s : State, s.busy = false ∧ s.faulted = false) ∧
    (∃ (s : State) (w : Word), s.busy = false ∧ s.faulted = true ∧ w ≠ 0x00000001#32) :=
  ⟨⟨demo, rfl, rfl⟩, ⟨demoFaulted, 0x00000101#32, rfl, rfl, by decide⟩⟩

theorem witness_UnservedAccessesChangeNothing :
    (∃ o : Word, o.toNat % 4 ≠ 0) ∧
    (∃ o : Word, ¬ (o.toNat < 0x40 ∨ (0x1000 ≤ o.toNat ∧ o.toNat < 0x1400) ∨
      (0x2000 ≤ o.toNat ∧ o.toNat < 0x3000) ∨ (0x4000 ≤ o.toNat ∧ o.toNat < 0x8000))) ∧
    (∃ (s : State) (o : Word), ¬ ((0x40000000 ≤ o.toNat ∧ o.toNat < 0x40000000 + s.bufCap) ∨
      (0x80000000 ≤ o.toNat ∧ o.toNat < 0x80000000 + s.bufCap))) :=
  ⟨⟨2#32, by decide⟩, ⟨0x8000#32, by decide⟩, ⟨demo, 0x40000040#32, by decide⟩⟩

theorem witness_RegisterReads : ∃ s : State, s.busy = false := ⟨demo, rfl⟩

theorem witness_RegisterWrites : ∃ s : State, s.busy = false := ⟨demoFaulted, rfl⟩

theorem witness_TableWindows :
    (∃ s : State, s.busy = false) ∧ (∃ o : Word, o.toNat % 4 = 0 ∧ o.toNat = 0x13FC) ∧
    (∃ o : Word, o.toNat % 4 = 0 ∧ o.toNat = 0x2FFC) ∧ (∃ o : Word, o.toNat % 4 = 0 ∧ o.toNat = 0x7FFC) :=
  ⟨⟨demo, rfl⟩, ⟨0x13FC#32, by decide, by decide⟩, ⟨0x2FFC#32, by decide, by decide⟩,
    ⟨0x7FFC#32, by decide, by decide⟩⟩

theorem witness_BufferWindows : (∀ i ∈ [0, 63], ∃ s : State, CapacityLegal s ∧ Memory.wf s.ibuf ∧
      s.busy = false ∧ i < s.bufCap) ∧
    (∃ (s : State) (o : Word), CapacityLegal s ∧ 0x40000000 + s.bufCap ≤ o.toNat ∧ o.toNat < 0x80000000) ∧
    (∃ (s : State) (o : Word), CapacityLegal s ∧ 0x80000000 + s.bufCap ≤ o.toNat) := by
  refine ⟨?_, ⟨demo, 0x40000040#32, demo_inv.capacity, by decide, by decide⟩,
    ⟨demo, 0x80000040#32, demo_inv.capacity, by decide⟩⟩
  intro i hi
  simp only [List.mem_cons, List.not_mem_nil, or_false] at hi
  rcases hi with rfl | rfl <;> exact ⟨demo, demo_inv.capacity, demo_inv.buffers.1, rfl, by decide⟩

theorem witness_IrqLevel :
    (∃ (s : State) (v : Word), s.faulted = false ∧ v.getLsbD 1 = true) ∧
    (∃ (s : State) (v : Word), s.faulted = false ∧ v.getLsbD 0 = false) ∧
    (∃ (s : State) (v : Word), s.done = false ∧ v.getLsbD 1 = false) :=
  ⟨⟨demo, 2#32, rfl, by decide⟩, ⟨demo, 2#32, rfl, by decide⟩, ⟨demoFaulted, 1#32, rfl, by decide⟩⟩

theorem witness_ResetEdgeGivesTheResetState : ∃ (s t : State) (rest : List Input), s.inputs = .rst :: rest ∧
    step s = .next t ∧ s.busy = true :=
  ⟨{ demoBusy with inputs := [.rst] }, rstEdge demoBusy, [], rfl, rfl, rfl⟩

theorem witness_ResetStateSatisfiesTheInvariants :
    (∃ (cap : Nat) (i o : Memory), bufCapWellFormed cap = true ∧ Memory.wf i ∧ Memory.wf o ∧
      Memory.below cap i ∧ Memory.below cap o ∧ i ≠ []) ∧
    (∃ s t : State, exec .clr s = .next t) :=
  ⟨⟨1, [(0, 0xFF#8)], [], by decide, by decide, Memory.wf_nil, by decide, by decide, by decide⟩,
    ⟨demo, _, exec_after _ _⟩⟩

theorem witness_StepKeepsTheInvariants : ∃ s t : State, Inv s ∧ step s = .next t ∧ s ≠ t := by
  have h : step demoBusy = exec .enc demoBusy := by
    simp only [step, advance, engineTurn, engineStep, demoBusy]
    rfl
  refine ⟨demoBusy, after .enc demoBusy, demoBusy_inv, h.trans (exec_after _ _), fun e => ?_⟩
  have h1 : (after .enc demoBusy).busy = false := by decide +kernel
  rw [← e] at h1
  cases h1

theorem witness_FaultLeftOnlyByClrOrReset :
    (∃ s t : State, StatusLegal s ∧ step s = .next t ∧ s.faulted = true ∧ t.faulted = true) ∧
    (∃ s t : State, StatusLegal s ∧ step s = .next t ∧ s.faulted = true ∧ t.faulted = false) := by
  have h : step { demoFaulted with busy := true, cmdr := 1#32 } =
      exec .clr { demoFaulted with busy := true, cmdr := 1#32 } := by
    simp only [step, advance, engineTurn, engineStep, demoFaulted]
    rfl
  refine ⟨⟨demoFaulted, demoFaulted, ⟨fun h => Bool.noConfusion h, fun h => Bool.noConfusion h⟩,
    by simp only [step, advance, engineTurn, demoFaulted]; rfl, rfl, rfl⟩,
    ⟨{ demoFaulted with busy := true, cmdr := 1#32 }, _, ⟨fun h => Bool.noConfusion h, fun _ _ => rfl⟩,
      h.trans (exec_after _ _), rfl, by decide +kernel⟩⟩

theorem witness_TablesChangeOnlyByTheirCommands : ∃ s t : State, step s = .next t ∧
    s.inputs.head? ≠ some .rst ∧ t.freq ≠ s.freq ∧ t.node ≠ s.node ∧ t.code ≠ s.code := by
  have h : step { demo with busy := true, cmdr := 1#32 } = exec .clr { demo with busy := true, cmdr := 1#32 } := by
    simp only [step, advance, engineTurn, engineStep, demo, machine, State.resetWith]
    rfl
  refine ⟨_, _, h.trans (exec_after _ _), by decide, fun e => ?_, fun e => ?_, fun e => ?_⟩
  · have h1 := congrArg (fun f => freqOf f 0x10#8) e
    revert h1
    decide +kernel
  · have h1 := congrArg (fun f => nodeAt f 0) e
    revert h1
    decide +kernel
  · have h1 := congrArg (fun f => codeOf f 0x10#8) e
    revert h1
    decide +kernel

end Sys2Proof.Tests
end

/-! PROOF. Every command keeps the invariants, stage by stage, and so does every turn. -/

namespace Sys2Proof.Machine

/-! ## The output commands (rule R57) -/

/-- A legal capacity is a 32-bit number (rule R8). -/
theorem CapacityLegal.lt {s : State} (h : CapacityLegal s) : s.bufCap < 2 ^ 32 := by
  have hmax : s.bufCap ≤ 2 ^ 30 := by
    simp only [CapacityLegal, bufCapWellFormed, Bool.and_eq_true, decide_eq_true_eq] at h
    exact h.2
  omega

theorem CapacityLegal.toNat_ofNat {s : State} (h : CapacityLegal s) {n : Nat} (hn : n ≤ s.bufCap) :
    (BitVec.ofNat 32 n).toNat = n := by
  rw [BitVec.toNat_ofNat, Nat.mod_eq_of_lt (hn.trans_lt h.lt)]

/-- A completed ENC leaves a stream that fits in OBUF, the empty one included. -/
theorem encodeFrom_ceil8_le {c : CodeTable} {cap : Nat} {xs : List Byte} {e : Bits}
    (h : encodeFrom c cap 0 xs [] 0 = .ok e) : ceil8 e.length ≤ cap := by
  obtain ⟨he, -, hl⟩ := encodeFrom_ok h rfl
  by_cases hx : xs = []
  · subst hx; simp [he]
  · exact (hl hx).2

/-- What a completed output command does: it stores some bytes that fit from the start of OBUF, sets OUT_LEN
to their number, and otherwise changes BITCNT at most and CODE only to the table DESER loads. -/
theorem outputBody_ok {i : Instr} {s t : State} (hi : i ∈ [Instr.enc, .dec, .ser, .deser, .pack, .unpack])
    (h : bodyOf i s = .ok t) :
    ∃ bytes : List Byte, bytes.length ≤ s.bufCap ∧
      t = { putOutput bytes s with code := t.code, bitCnt := t.bitCnt } ∧
      (t.code = s.code ∨ ∃ fuel pos, loadEntries (inputBytes s) fuel pos emptyCode = .ok t.code) := by
  simp only [List.mem_cons, List.not_mem_nil, or_false] at hi
  rcases hi with rfl | rfl | rfl | rfl | rfl | rfl
  · obtain ⟨-, e, he, rfl⟩ := encBody_ok h
    exact ⟨packBits e, by simpa using encodeFrom_ceil8_le he, rfl, .inl rfl⟩
  · obtain ⟨-, -, -, out, ho, rfl⟩ := decBody_ok h
    exact ⟨out, decodeFrom_length ho (Nat.zero_le _), rfl, .inl rfl⟩
  · obtain ⟨-, -, -, hsize, rfl⟩ := serBody_ok h
    exact ⟨_, by simpa [length_containerBytes, inputPart] using hsize, rfl, .inl rfl⟩
  · obtain ⟨hin, -, -, -, c, hload, rfl⟩ := deserBody_ok h
    exact ⟨_, by simp only [List.length_take, List.length_drop, inputBytes, Memory.length_readBytes]; omega,
      rfl, .inr ⟨_, _, hload⟩⟩
  · obtain ⟨hin, rfl⟩ := packBody_ok h
    exact ⟨_, by simpa [inputBytes] using (ceil8_le_self _).trans hin, rfl, .inl rfl⟩
  · obtain ⟨-, -, -, hb, rfl⟩ := unpackBody_ok h
    exact ⟨_, by simpa using hb, rfl, .inl rfl⟩

/-- Settles O10: the bytes stored end at the new OUT_LEN, and a store changes nothing outside its extent. -/
theorem outputCommandsKeepTheRestOfObuf : Obligations.OutputCommandsKeepTheRestOfObuf := by
  unfold Obligations.OutputCommandsKeepTheRestOfObuf
  intro i s t hi hcap hwf h hdone
  rcases exec_cases h with ⟨u, hu, rfl⟩ | ⟨r, -, rfl⟩
  · obtain ⟨bytes, hlen, hframe, -⟩ := outputBody_ok hi hu
    have hout : u.outLen.toNat = bytes.length := by rw [hframe]; exact hcap.toNat_ofNat hlen
    have hobuf : u.obuf = Memory.writeBytes s.obuf 0 bytes := by rw [hframe]; rfl
    have hibuf : u.ibuf = s.ibuf := by rw [hframe]; rfl
    refine ⟨fun a ha => ?_, hibuf⟩
    rw [complete_outLen, hout] at ha
    rw [complete_obuf, hobuf, Memory.read_writeBytes_outside hwf (.inr (by omega))]
  · cases hdone

/-! ## FREQ (rule R43) -/

/-- Every byte is one of the symbols, so the symbols' counts sum to the number of bytes. -/
theorem sum_count_symbols (bytes : List Byte) : (symbols.map (fun x => bytes.count x)).sum = bytes.length := by
  rw [← List.sum_toFinset _ nodup_symbols]
  have h := Multiset.sum_count_eq_card (s := symbols.toFinset) (m := (bytes : Multiset Byte))
    fun x _ => List.mem_toFinset.mpr (mem_symbols x)
  simpa only [Multiset.coe_count, Multiset.coe_card] using h

/-- The counters FREQ makes sum to the number of input bytes, since none of them wraps (rule R152). -/
theorem freqSum_countBytes {bytes : List Byte} (h : bytes.length < 2 ^ 32) :
    freqSum (countBytes bytes) = bytes.length := by
  rw [freqSum, ← sum_count_symbols bytes]
  congr 1
  apply List.map_congr_left
  intro x _
  have := bytes.count_le_length (a := x)
  rw [freqOf_countBytes, BitVec.toNat_ofNat, Nat.mod_eq_of_lt (by omega)]

theorem freqSum_zeroFreq : freqSum zeroFreq = 0 := freqSum_countBytes (bytes := []) (by decide)

/-! ## CODE (rules R7, R52) -/

/-- What the invariant says of CODE while no fault is recorded. -/
def CodesLegal (c : CodeTable) : Prop := CodeLengthsLegal c ∧ CodesDistinct c

theorem codesLegal_emptyCode : CodesLegal emptyCode :=
  ⟨fun a => by simp, fun a b h => absurd (codeOf_emptyCode a) h⟩

/-- A code of legal length that no symbol has yet can be given to any symbol. -/
theorem CodesLegal.setCode {c : CodeTable} (h : CodesLegal c) (x : Byte) {a : Bits}
    (hlen : a.length ≤ Config.maxLen) (hnew : ∀ y, codeOf c y ≠ a) : CodesLegal (setCode c x a) := by
  obtain ⟨hl, hd⟩ := h
  refine ⟨fun y => ?_, fun y z hy e => ?_⟩
  · rw [codeOf_setCode]
    split
    · exact hlen
    · exact hl y
  · simp only [codeOf_setCode] at hy e
    split_ifs at hy e with hyx hzx hzx
    · rw [hyx, hzx]
    · exact absurd e.symm (hnew z)
    · exact absurd e (hnew y)
    · exact hd y z hy e

/-- DESER's table loop keeps the codes legal: an entry's LEN is one byte, and a code already held is refused
(rule R228). -/
theorem loadEntries_codesLegal {x : List Byte} {fuel pos : Nat} {c c' : CodeTable} (hc : CodesLegal c)
    (h : loadEntries x fuel pos c = .ok c') : CodesLegal c' := by
  induction fuel generalizing pos c with
  | zero => injection h with h; exact h ▸ hc
  | succ fuel ih =>
    simp only [loadEntries, raiseLate] at h
    split_ifs at h with hend htrunc hzero hbytes hsym hcode
    · injection h with h; exact h ▸ hc
    · refine ih (hc.setCode _ ?_ fun y e => ?_) h
      · rw [length_unpackBits]
        exact Nat.le_of_lt_succ (BitVec.isLt _)
      · exact hcode ((hasCode_iff _ _).mpr ⟨y, e⟩)

/-- A path from the root of a legal tree has at most MAXLEN bits: each of them leads from an internal entry to
a smaller index, and a tree has at most 255 internal entries (rule R186 (b)). -/
theorem TreeLegal.path_length_le {m : NodeMemory} {cnt root : NodeIndex} {valid : Bool}
    (h : TreeLegal m cnt valid root) (hv : valid = true) {j : Nat} {q : Bits}
    (hq : TreePath m root.toNat q j) : q.length ≤ Config.maxLen := by
  rcases h.count with ⟨-, h0, -⟩ | ⟨hn, -, hS, -, hroot⟩
  · rw [hv] at h0; cases h0
  rcases List.eq_nil_or_concat q with rfl | ⟨p, b, rfl⟩
  · exact Nat.zero_le _
  · rw [List.concat_eq_append] at hq ⊢
    obtain ⟨k, hp, hb⟩ := hq.split
    have hle := h.shape.path_le (by omega) hp
    have hk : leafCount cnt ≤ k := by
      by_contra hlt
      exact absurd (hb.of_leaf (h.leaves k (by omega)).1).1 (by simp)
    simp only [List.length_append, List.length_singleton, Config.maxLen]
    omega

/-- The codes GEN makes of a legal tree are legal (rule R186 (b), (d)): with two leaves or more each is the path of its
symbol's leaf, and a path says where it ends. -/
theorem generateCodes_codesLegal {m : NodeMemory} {cnt root : NodeIndex} {valid : Bool} {c : CodeTable}
    (h : TreeLegal m cnt valid root) (hc : generateCodes m cnt valid root = .ok c) : CodesLegal c := by
  obtain ⟨c', hc', hnone, hlone, hpaths⟩ := generateCodes_legal h
  rw [hc] at hc'
  obtain rfl : c = c' := by injection hc'
  rcases h.count with ⟨-, hv, -⟩ | ⟨hn, hS, -, hv, hroot⟩
  · rw [hnone hv]; exact codesLegal_emptyCode
  rcases Nat.eq_or_lt_of_le hS with h1 | h2
  · rw [hlone h1.symm]
    exact codesLegal_emptyCode.setCode _ (by decide) (by simp)
  · obtain ⟨hleaf, hother⟩ := hpaths h2
    have hpath : ∀ x, codeOf c x ≠ [] → ∃ j, (nodeAt m j).sym = x ∧ TreePath m root.toNat (codeOf c x) j := by
      intro x hx
      by_contra hno
      refine hx (hother x fun j hj e => hno ⟨j, e, ?_⟩)
      obtain ⟨q, hq⟩ := h.under_root hv (i := j) (by omega)
      rwa [← e, hleaf j q hq hj]
    refine ⟨fun x => ?_, fun x y hx e => ?_⟩
    · by_cases hx : codeOf c x = []
      · simp [hx]
      · obtain ⟨j, -, hj⟩ := hpath x hx
        exact h.path_length_le hv hj
    · obtain ⟨j, rfl, hj⟩ := hpath x hx
      obtain ⟨k, rfl, hk⟩ := hpath y (e ▸ hx)
      rw [e] at hj
      rw [hj.unique hk]

/-! ## The empty tables -/

theorem treeLegal_zeroNode : TreeLegal zeroNode 0#9 false 0#9 where
  count := .inl ⟨rfl, rfl, rfl⟩
  leaves := fun _ hi => absurd hi (Nat.not_lt_zero _)
  ascending := fun _ _ _ hj => absurd hj (Nat.not_lt_zero _)
  internals := fun _ _ hi => absurd hi (Nat.not_lt_zero _)
  owned := fun _ hi => absurd hi (Nat.not_lt_zero _)
  rest := fun i _ => nodeAt_zeroNode i

/-- With no fault recorded, the empty tables satisfy their invariants (rule R303). -/
theorem tablesLegal_of_empty {s : State} (hf : s.freq = zeroFreq) (hn : s.node = zeroNode)
    (hcnt : s.nodeCnt = 0#9) (hv : s.rootValid = false) (hr : s.rootIndex = 0#9) (hc : s.code = emptyCode) :
    TablesLegal s := by
  intro _
  rw [hf, hn, hcnt, hv, hr, hc]
  exact ⟨by simp [FreqLegal, freqSum_zeroFreq], treeLegal_zeroNode, codesLegal_emptyCode.2⟩

/-! ## One command at a time -/

/-- The states a command other than CLR runs from, and the stages of a composite too. -/
def Sound (s : State) : Prop := Inv s ∧ s.faulted = false

/-- A rule that completes from a sound state leaves a sound state. -/
def KeepsSound (body : State → Body) : Prop := ∀ s t, Sound s → body s = .ok t → Sound t

/-- Output that fits, and a legal CODE. -/
theorem Sound.output {s : State} (h : Sound s) {bytes : List Byte} (hlen : bytes.length ≤ s.bufCap)
    {c : CodeTable} (hc : CodesLegal c) (b : Word) :
    Sound { putOutput bytes s with code := c, bitCnt := b } := by
  obtain ⟨inv, hf⟩ := h
  obtain ⟨hi, ho, hib, hob⟩ := inv.buffers
  obtain ⟨hfreq, htree, -⟩ := inv.tables hf
  exact ⟨{ capacity := inv.capacity
           status := inv.status
           fault := inv.fault
           buffers := ⟨hi, Memory.wf_writeBytes ho 0 bytes, hib, Memory.below_writeBytes hob (by simpa using hlen)⟩
           output := (inv.capacity.toNat_ofNat hlen).trans_le hlen
           lengths := hc.1
           tables := fun _ => ⟨hfreq, htree, hc.2⟩ }, hf⟩

theorem Sound.codesLegal {s : State} (h : Sound s) : CodesLegal s.code :=
  ⟨h.1.lengths, (h.1.tables h.2).2.2⟩

theorem nopBody_keepsSound : KeepsSound nopBody := by
  intro s t hs h
  injection h with h
  exact h ▸ hs

theorem freqBody_keepsSound : KeepsSound freqBody := by
  rintro s t ⟨inv, hf⟩ h
  obtain ⟨hin, rfl⟩ := freqBody_ok h
  obtain ⟨-, htree, hdist⟩ := inv.tables hf
  have hsum : FreqLegal s.bufCap (countBytes (inputBytes s)) := by
    rw [FreqLegal, freqSum_countBytes (by simpa [inputBytes, inputLength] using s.inLen.isLt)]
    simpa [inputBytes] using hin
  exact ⟨{ inv with tables := fun _ => ⟨hsum, htree, hdist⟩ }, hf⟩

theorem buildBody_keepsSound : KeepsSound buildBody := by
  rintro s t ⟨inv, hf⟩ h
  injection h with h
  subst h
  obtain ⟨hfreq, -, hdist⟩ := inv.tables hf
  have htree := huffmanForest_tree (hfreq.trans_lt inv.capacity.lt)
  exact ⟨{ inv with tables := fun _ => ⟨hfreq, htree, hdist⟩ }, hf⟩

theorem genBody_keepsSound : KeepsSound genBody := by
  rintro s t ⟨inv, hf⟩ h
  obtain ⟨c, hc, rfl⟩ := genBody_ok h
  obtain ⟨hfreq, htree, -⟩ := inv.tables hf
  obtain ⟨hlen, hdist⟩ := generateCodes_codesLegal htree hc
  exact ⟨{ inv with lengths := hlen, tables := fun _ => ⟨hfreq, htree, hdist⟩ }, hf⟩

theorem swapBody_keepsSound : KeepsSound swapBody := by
  rintro s t ⟨inv, hf⟩ h
  obtain ⟨hin, rfl⟩ := swapBody_ok h
  obtain ⟨hi, ho, hib, hob⟩ := inv.buffers
  exact ⟨{ inv with buffers := ⟨ho, hi, hob, hib⟩, output := hin }, hf⟩

theorem outputBody_keepsSound {i : Instr} (hi : i ∈ [Instr.enc, .dec, .ser, .deser, .pack, .unpack]) :
    KeepsSound (bodyOf i) := by
  intro s t hs h
  obtain ⟨bytes, hlen, hframe, hcode⟩ := outputBody_ok hi h
  have hc : CodesLegal t.code := by
    rcases hcode with e | ⟨fuel, pos, hload⟩
    · rw [e]; exact hs.codesLegal
    · exact loadEntries_codesLegal codesLegal_emptyCode hload
  rw [hframe]
  exact hs.output hlen hc t.bitCnt

/-- A composite of rules that keep soundness keeps it. -/
theorem KeepsSound.thenStage {before stage : State → Body} (hb : KeepsSound before) (hs : KeepsSound stage) :
    KeepsSound (fun s => thenStage (before s) stage) := by
  intro s u h hu
  obtain ⟨t, ht, hu⟩ := thenStage_ok hu
  exact hs t u (hb s t h ht) hu

theorem compressBody_keepsSound : KeepsSound compressBody :=
  ((((freqBody_keepsSound.thenStage buildBody_keepsSound).thenStage genBody_keepsSound).thenStage
    (outputBody_keepsSound (i := .enc) (by decide))).thenStage swapBody_keepsSound).thenStage
    (outputBody_keepsSound (i := .ser) (by decide))

theorem decompressBody_keepsSound : KeepsSound decompressBody :=
  ((outputBody_keepsSound (i := .deser) (by decide)).thenStage swapBody_keepsSound).thenStage
    (outputBody_keepsSound (i := .dec) (by decide))

theorem bodyOf_keepsSound {i : Instr} (hi : i ≠ .clr) : KeepsSound (bodyOf i) := by
  cases i with
  | nop => exact nopBody_keepsSound
  | clr => exact absurd rfl hi
  | freq => exact freqBody_keepsSound
  | build => exact buildBody_keepsSound
  | gen => exact genBody_keepsSound
  | swap => exact swapBody_keepsSound
  | compress => exact compressBody_keepsSound
  | decompress => exact decompressBody_keepsSound
  | enc | dec | ser | deser | pack | unpack => exact outputBody_keepsSound (by decide)

/-- CLR makes any state that satisfies the invariant sound, whether or not a fault is recorded (rule R242). -/
theorem clrBody_sound {s t : State} (inv : Inv s) (h : clrBody s = .ok t) : Sound t := by
  injection h with h
  subst h
  exact ⟨{ capacity := inv.capacity
           status := ⟨fun hd => ⟨(inv.status.1 hd).1, rfl⟩, fun _ hf => Bool.noConfusion hf⟩
           fault := ⟨⟨fun _ => rfl, fun _ => rfl⟩, fun _ => rfl⟩
           buffers := inv.buffers
           output := Nat.zero_le _
           lengths := codesLegal_emptyCode.1
           tables := tablesLegal_of_empty rfl rfl rfl rfl rfl rfl }, rfl⟩

/-! ## The engine's turn -/

theorem complete_inv {s : State} (h : Sound s) : Inv (complete s) :=
  { h.1 with status := ⟨fun _ => ⟨rfl, h.2⟩, fun hb => Bool.noConfusion hb⟩ }

/-- Fault entry keeps the invariant for every write set: the free values have the types the invariant asks
for, and the tables' invariants are not claimed while a fault is recorded (C11, U2). -/
theorem faultEntry_inv {s : State} (inv : Inv s) (ws : List Loc) (r : Raise) : Inv (faultEntry ws r s) where
  capacity := by simpa [CapacityLegal] using inv.capacity
  status := by simp [StatusLegal]
  fault := by simp [FaultRecordLegal]
  buffers := by
    obtain ⟨hi, ho, hib, hob⟩ := inv.buffers
    obtain ⟨cause, info, _ | _⟩ := r
    · simpa [BuffersLegal] using inv.buffers
    · simp only [BuffersLegal, faultEntry_ibuf, faultEntry_obuf, faultEntry_bufCap, spoil_late, scramble_ibuf,
        scramble_obuf]
      refine ⟨?_, ?_, ?_, ?_⟩ <;> split
      · exact wf_freeIbuf _ _
      · exact hi
      · exact wf_freeObuf _ _
      · exact ho
      · exact below_freeIbuf _ _
      · exact hib
      · exact below_freeObuf _ _
      · exact hob
  output := by
    simp only [OutputLegal, faultEntry_outLen, faultEntry_bufCap]
    split
    · exact Nat.zero_le _
    · exact inv.output
  lengths := by
    obtain ⟨cause, info, _ | _⟩ := r
    · exact inv.lengths
    · simp only [faultEntry_code, spoil_late, scramble_code]
      split
      · exact freeCode_lengths _
      · exact inv.lengths
  tables := fun hf => Bool.noConfusion hf

/-- A command that runs while no fault is recorded, or CLR, keeps the invariant. -/
theorem exec_inv {i : Instr} {s t : State} (inv : Inv s) (hi : s.faulted = true → i = .clr)
    (h : exec i s = .next t) : Inv t := by
  rcases exec_cases h with ⟨u, hu, rfl⟩ | ⟨r, -, rfl⟩
  · apply complete_inv
    by_cases hclr : i = .clr
    · subst hclr; exact clrBody_sound inv hu
    · exact bodyOf_keepsSound hclr s u ⟨inv, by simpa using mt hi hclr⟩ hu
  · exact faultEntry_inv inv _ r

/-- The engine's turn: with BUSY and FAULT both 1 the latched word is CLR's (rule R282). -/
theorem engineTurn_inv {s t : State} (inv : Inv s) (h : engineTurn s = .next t) : Inv t := by
  rcases engineTurn_cases h with ⟨-, rfl⟩ | ⟨hbusy, i, hi, h⟩ | ⟨-, e, -, rfl⟩
  · exact inv
  · refine exec_inv inv (fun hf => ?_) h
    rw [inv.status.2 hbusy hf, decode_encode] at hi
    injection hi with hi
    exact hi.symm
  · exact faultEntry_inv inv _ _

/-! ## The host's turn and the reset edge -/

/-- The port keeps the invariant: it stores below BUF_CAP alone, and while FAULT = 1 it accepts CLR alone. -/
theorem portAccess_inv {s : State} (inv : Inv s) (a : Access) : Inv (portAccess a s).1 := by
  rcases portAccess_cases a s with e | ⟨hbusy, h⟩
  · rw [e]; exact inv
  rcases h with ⟨w, hw, e⟩ | ⟨v, e⟩ | ⟨v, e⟩ | ⟨v, e⟩ | ⟨v, e⟩ | ⟨i, b, hib, e⟩ <;> rw [e]
  · have hclr : s.faulted = true → w = encode .clr := fun hf => hw.resolve_left (by simp [hf])
    exact { inv with status := ⟨fun hd => Bool.noConfusion hd, fun _ => hclr⟩ }
  · have hstatus : StatusLegal (writeStatus v s) :=
      ⟨fun hd => inv.status.1 (Bool.and_eq_true_iff.mp hd).1, inv.status.2⟩
    exact { inv with status := hstatus }
  · exact { inv with }
  · exact { inv with }
  · exact { inv with }
  · obtain ⟨hi, ho, hbi, hbo⟩ := inv.buffers
    exact { inv with buffers := ⟨Memory.wf_write hi i b, ho, Memory.below_write hbi hib b, hbo⟩ }

theorem hostTurn_inv {s : State} (inv : Inv s) (a : Access) : Inv (hostTurn a s) :=
  { portAccess_inv inv a with }

theorem rstEdge_inv {s : State} (inv : Inv s) : Inv (rstEdge s) where
  capacity := inv.capacity
  status := ⟨fun hd => Bool.noConfusion hd, fun hb => Bool.noConfusion hb⟩
  fault := ⟨⟨fun _ => rfl, fun _ => rfl⟩, fun _ => rfl⟩
  buffers := ⟨wf_freeIbuf _ _, wf_freeObuf _ _, below_freeIbuf _ _, below_freeObuf _ _⟩
  output := Nat.zero_le _
  lengths := codesLegal_emptyCode.1
  tables := tablesLegal_of_empty rfl rfl rfl rfl rfl rfl

/-- Taking a turn off the list keeps the invariant, which does not speak of the turns. -/
theorem popTurn_inv {s : State} (inv : Inv s) : Inv (popTurn s) := { inv with }

/-- Settles O58: each kind of turn keeps the invariant. -/
theorem stepKeepsTheInvariants : Obligations.StepKeepsTheInvariants := by
  unfold Obligations.StepKeepsTheInvariants
  intro s t inv h
  rcases step_cases h with ⟨a, -, rfl⟩ | ⟨-, rfl⟩ | ⟨-, h⟩
  · exact hostTurn_inv (popTurn_inv inv) a
  · exact rstEdge_inv (popTurn_inv inv)
  · exact engineTurn_inv (popTurn_inv inv) h

end Sys2Proof.Machine

/-! PROOF. BUILD makes a legal tree of FREQ; what the host port reads and writes in the registers and the table
windows; what each command leaves unchanged, and so which steps can change a table. -/

namespace Sys2Proof.Machine

/-! ## BUILD (rules R165 to R169) -/

/-- The leaves of BUILD's forest are the present symbols' entries, in order. -/
theorem nodeAt_huffmanForest_leaf {t : FreqTable} {i : Nat} (hi : i < (presentSymbols t).length) :
    nodeAt (huffmanForest t).node i = leafNode (presentSymbols t)[i] (freqOf t (presentSymbols t)[i]) := by
  rw [(huffmanForest_spec t).2.2 i (length_presentSymbols t ▸ hi), leafEntry, List.getElem?_eq_getElem hi]

/-- The root is the one member left in the queue, so its FREQ is the queue's sum, which is the counters'
(rule R167). -/
theorem freq_huffmanForest_root {t : FreqTable} (hsum : freqSum t < 2 ^ 32) (hpos : 1 ≤ freqCount t) :
    (nodeAt (huffmanForest t).node (2 * freqCount t - 1 - 1)).freq.toNat = freqSum t := by
  obtain ⟨-, ⟨hzero, -⟩ | ⟨-, hn, hqueue⟩, -⟩ := huffmanForest_spec t
  · omega
  · have hroot : queueSum (huffmanForest t) = freqSum t := (huffmanForest_sum hsum).2
    rw [queueSum, hqueue, hn] at hroot
    simpa using hroot

/-- BUILD completes for every FREQ and stores the forest of FREQ (rule R165). -/
theorem exec_build (s : State) :
    exec .build s = .next { s with
      busy := false
      done := true
      node := (huffmanForest s.freq).node
      nodeCnt := BitVec.ofNat 9 (huffmanForest s.freq).n
      rootValid := (huffmanForest s.freq).queue.length = 1
      rootIndex := BitVec.ofNat 9
        (if (huffmanForest s.freq).queue.length = 1 then (huffmanForest s.freq).queue.headD 0 else 0) } :=
  exec_of_ok (i := .build) rfl

/-- Settles O21: the forest's invariant gives the tree, its leaves are the entries of the present symbols, and
its root carries the queue's sum. -/
theorem buildMakesTheTree : Obligations.BuildMakesTheTree := by
  unfold Obligations.BuildMakesTheTree
  intro s
  obtain ⟨-, hcount, hvalid, hroot⟩ := huffmanForest_root s.freq
  refine ⟨_, _, _, _, exec_build s, hcount, fun hsum =>
    ⟨huffmanForest_tree hsum, fun i hi => ?_, fun x hx => ?_, fun hv => ?_⟩⟩
  · rw [hcount, ← length_presentSymbols] at hi
    rw [nodeAt_huffmanForest_leaf hi]
    rfl
  · obtain ⟨i, hi, rfl⟩ := List.getElem_of_mem ((mem_presentSymbols s.freq x).mpr hx)
    refine ⟨i, ?_, ?_⟩
    · rwa [hcount, ← length_presentSymbols]
    · rw [nodeAt_huffmanForest_leaf hi]
      rfl
  · rw [hroot]
    rw [hvalid] at hv
    exact freq_huffmanForest_root hsum (of_decide_eq_true hv)

/-! ## The host port while BUSY = 0 (rules R23, R70, R80) -/

/-- An offset is aligned for a size-4 access when it is a multiple of 4 (rule R80). -/
theorem aligned4_iff (o : Word) : aligned4 o = true ↔ o.toNat % 4 = 0 := by
  simp [aligned4, ← BitVec.toNat_inj]

theorem portAccess_read4 {s : State} (hb : s.busy = false) {o w : Word} (h : readWord s o = some w) :
    portAccess (.read4 o) s = (s, okWord w) := by
  simp [portAccess, hb, idleAccess, h]

theorem portAccess_write4 {s : State} (hb : s.busy = false) (o v : Word) :
    portAccess (.write4 o v) s = ((writeWord o v s).1, ⟨(writeWord o v s).2, .none⟩) := by
  simp [portAccess, hb, idleAccess]

/-! ## The registers (rules R22 to R40) -/

theorem placeOf_regOffset (cap : Nat) (r : Reg) : placeOf cap (regOffset r) = .reg r := by
  cases r <;> rfl

theorem aligned4_regOffset (r : Reg) : aligned4 (regOffset r) = true := by
  cases r <;> rfl

theorem portAccess_read4_reg {s : State} (hb : s.busy = false) (r : Reg) :
    portAccess (.read4 (regOffset r)) s = (s, okWord (readReg s r)) :=
  portAccess_read4 hb (by simp [readWord, aligned4_regOffset, placeOf_regOffset])

theorem portAccess_write4_reg {s : State} (hb : s.busy = false) (r : Reg) (v : Word) :
    portAccess (.write4 (regOffset r) v) s = ((writeReg r v s).1, ⟨(writeReg r v s).2, .none⟩) := by
  simp [portAccess_write4 hb, writeWord, aligned4_regOffset, placeOf_regOffset]

theorem toNat_statusWord (s : State) :
    (statusWord s).toNat = s.busy.toNat + 2 * s.done.toNat + 4 * s.faulted.toNat := by
  unfold statusWord
  cases s.busy <;> cases s.done <;> cases s.faulted <;> rfl

theorem toNat_ctrlWord (s : State) : (ctrlWord s).toNat = s.ieDone.toNat + 2 * s.ieFault.toNat := by
  unfold ctrlWord
  cases s.ieDone <;> cases s.ieFault <;> rfl

theorem toNat_nodeCntWord (s : State) : (nodeCntWord s).toNat = s.nodeCnt.toNat := by
  have hlt := s.nodeCnt.isLt
  rw [nodeCntWord, BitVec.toNat_setWidth, Nat.mod_eq_of_lt (by omega)]

/-- Fields side by side are digits. -/
theorem toNat_append_eq_add {m n : Nat} (x : BitVec m) (y : BitVec n) :
    (x ++ y).toNat = x.toNat * 2 ^ n + y.toNat := by
  rw [BitVec.toNat_append, ← Nat.shiftLeft_add_eq_or_of_lt y.isLt, Nat.shiftLeft_eq]

theorem toNat_rootWord (s : State) :
    (rootWord s).toNat = s.rootValid.toNat * 2 ^ 31 + s.rootIndex.toNat := by
  rw [rootWord, toNat_append_eq_add]
  cases s.rootValid <;> rfl

/-- NCODE never wraps: there are 256 symbols (rule R37). -/
theorem toNat_ncodeWord (s : State) : (ncodeWord s).toNat = codeCount s.code := by
  have hle : codeCount s.code ≤ 256 := by
    rw [← length_symbols]
    exact List.length_filter_le _ _
  rw [ncodeWord, BitVec.toNat_ofNat, Nat.mod_eq_of_lt (by omega)]

/-- Settles O51: each offset is that of one register, and a read of it answers the register's image. -/
theorem registerReads : Obligations.RegisterReads := by
  unfold Obligations.RegisterReads
  intro s hb
  have hread := portAccess_read4_reg hb
  refine ⟨statusWord s, ctrlWord s, nodeCntWord s, rootWord s, ncodeWord s, hread .cmd, hread .status,
    hread .ctrl, (hread .faultCode).trans ?_, hread .faultInfo, hread .inLen, hread .outLen, hread .bitCnt,
    hread .nodeCnt, hread .root, hread .ncode, hread .cmdr, hread .cap, hread .reserved34, hread .reserved38,
    hread .reserved3c, ?_, toNat_ctrlWord s, toNat_nodeCntWord s, toNat_rootWord s, toNat_ncodeWord s⟩
  · rw [readReg, faultCodeWord]
    cases s.faultCode with
    | none => rfl
    | some c => cases c <;> rfl
  · simp [toNat_statusWord, hb]

/-- Settles O52: each offset is that of one register, and what a write of it does is that register's. -/
theorem registerWrites : Obligations.RegisterWrites := by
  unfold Obligations.RegisterWrites
  intro s v hb
  have hwrite (r : Reg) := portAccess_write4_reg hb r v
  have hdone : (s.done && !v.getLsbD 1) = if v.getLsbD 1 then false else s.done := by
    cases v.getLsbD 1 <;> simp
  refine ⟨(hwrite .status).trans (by rw [← hdone]; rfl), hwrite .ctrl, hwrite .inLen, hwrite .bitCnt, ?_⟩
  simpa only [List.forall_mem_cons, List.not_mem_nil, false_implies, implies_true, and_true] using
    ⟨hwrite .faultCode, hwrite .faultInfo, hwrite .outLen, hwrite .nodeCnt, hwrite .root, hwrite .ncode,
      hwrite .cmdr, hwrite .cap, hwrite .reserved34, hwrite .reserved38, hwrite .reserved3c⟩

/-! ## The table windows (rules R44, R47, R53) -/

section
variable {o : Word} {k : Nat}

theorem placeOf_freqw (cap : Nat) (ho : o.toNat = 0x1000 + 4 * k) (hk : k < 256) :
    placeOf cap o = .freqw k := by
  simp only [placeOf]
  rw [if_neg (by omega), if_pos (by omega)]
  congr 1
  omega

theorem placeOf_nodew (cap : Nat) (ho : o.toNat = 0x2000 + 4 * k) (hk : k < 1024) :
    placeOf cap o = .nodew k := by
  simp only [placeOf]
  rw [if_neg (by omega), if_neg (by omega), if_pos (by omega)]
  congr 1
  omega

theorem placeOf_codew (cap : Nat) (ho : o.toNat = 0x4000 + 4 * k) (hk : k < 4096) :
    placeOf cap o = .codew k := by
  simp only [placeOf]
  rw [if_neg (by omega), if_neg (by omega), if_neg (by omega), if_pos (by omega)]
  congr 1
  omega

variable {s : State} (hb : s.busy = false)
include hb

theorem portAccess_read4_freqw (ho : o.toNat = 0x1000 + 4 * k) (hk : k < 256) :
    portAccess (.read4 o) s = (s, okWord (freqOf s.freq (BitVec.ofNat 8 k))) :=
  portAccess_read4 hb (by rw [readWord, if_pos ((aligned4_iff o).mpr (by omega)), placeOf_freqw _ ho hk])

theorem portAccess_read4_nodew (ho : o.toNat = 0x2000 + 4 * k) (hk : k < 1024) :
    portAccess (.read4 o) s = (s, okWord (nodewWord s.node k)) :=
  portAccess_read4 hb (by rw [readWord, if_pos ((aligned4_iff o).mpr (by omega)), placeOf_nodew _ ho hk])

theorem portAccess_read4_codew (ho : o.toNat = 0x4000 + 4 * k) (hk : k < 4096) :
    portAccess (.read4 o) s = (s, okWord (codewWord s.code k)) :=
  portAccess_read4 hb (by rw [readWord, if_pos ((aligned4_iff o).mpr (by omega)), placeOf_codew _ ho hk])

/-- A write to a table window is ignored with OK. -/
theorem portAccess_write4_table (v : Word) (ho : o.toNat % 4 = 0)
    (h : (0x1000 ≤ o.toNat ∧ o.toNat < 0x1400) ∨ (0x2000 ≤ o.toNat ∧ o.toNat < 0x3000) ∨
      (0x4000 ≤ o.toNat ∧ o.toNat < 0x8000)) :
    portAccess (.write4 o v) s = (s, okWrite) := by
  rw [portAccess_write4 hb, writeWord, if_pos ((aligned4_iff o).mpr ho)]
  rcases h with ⟨_, _⟩ | ⟨_, _⟩ | ⟨_, _⟩
  · rw [placeOf_freqw (k := (o.toNat - 0x1000) / 4) _ (by omega) (by omega)]; rfl
  · rw [placeOf_nodew (k := (o.toNat - 0x2000) / 4) _ (by omega) (by omega)]; rfl
  · rw [placeOf_codew (k := (o.toNat - 0x4000) / 4) _ (by omega) (by omega)]; rfl

end

theorem nodewWord_freq (m : NodeMemory) {i : Nat} (hi : i < 511) :
    nodewWord m (2 * i) = (nodeAt m i).freq := by
  simp [nodewWord, hi]

theorem nodewWord_link (m : NodeMemory) {i : Nat} (hi : i < 511) :
    nodewWord m (2 * i + 1) = linkWord (nodeAt m i) := by
  have hindex : (2 * i + 1) / 2 = i := by omega
  have hodd : (2 * i + 1) % 2 = 1 := by omega
  simp [nodewWord, hindex, hodd, hi]

/-- After entry 510 the window reads 0. -/
theorem nodewWord_beyond (m : NodeMemory) {k : Nat} (hk : 1022 ≤ k) : nodewWord m k = 0#32 := by
  rw [nodewWord, if_neg (by omega)]

theorem toNat_linkWord_leaf {n : Node} (h : n.kind = .leaf) : (linkWord n).toNat = n.sym.toNat := by
  simp only [linkWord, h, toNat_append_eq_add, BitVec.toNat_ofNat]
  omega

/-- The link word of an internal entry: bit 31, LEFT from bit 16, RIGHT from bit 0. -/
theorem toNat_linkWord_internal {n : Node} (h : n.kind = .internal) :
    (linkWord n).toNat = 2 ^ 31 + n.left.toNat * 2 ^ 16 + n.right.toNat := by
  simp only [linkWord, h, toNat_append_eq_add, BitVec.toNat_ofNat]
  omega

/-- Word `w` of a symbol's entry in CODEW. -/
theorem codewWord_entry (t : CodeTable) (x : Byte) {w : Nat} (hw : w < 16) :
    codewWord t (16 * x.toNat + w) = codeEntryWord (codeOf t x) w := by
  have hsym : (16 * x.toNat + w) / 16 = x.toNat := by omega
  have hword : (16 * x.toNat + w) % 16 = w := by omega
  rw [codewWord, hsym, hword, BitVec.ofNat_toNat, BitVec.setWidth_eq]

theorem getLsbD_codeEntryWord (c : Code) {w k : Nat} (h1 : 1 ≤ w) (h8 : w ≤ 8) (hk : k < 32) :
    (codeEntryWord c w).getLsbD (31 - k) = bitAt c (32 * (w - 1) + k) := by
  rw [codeEntryWord, if_neg (by omega), if_pos h8]
  exact getLsbD_msbFirst 32 (fun j => bitAt c (32 * (w - 1) + j)) k hk

/-- Settles O53: each window's words in turn, from the place of their offsets. -/
theorem tableWindows : Obligations.TableWindows := by
  unfold Obligations.TableWindows
  intro s hb
  have hoffset {n : Nat} (hn : n < 2 ^ 32) : (BitVec.ofNat 32 n).toNat = n :=
    (BitVec.toNat_ofNat n 32).trans (Nat.mod_eq_of_lt hn)
  refine ⟨fun x => ?_, fun i hi => ⟨?_, linkWord (nodeAt s.node i), ?_, ?_⟩, ⟨?_, ?_⟩, fun x w hw =>
    ⟨codeEntryWord (codeOf s.code x) w, ?_, ?_, fun h1 h8 k hk => getLsbD_codeEntryWord _ h1 h8 hk, ?_⟩,
    fun o v ho h => portAccess_write4_table hb v ho h⟩
  · have hx := x.isLt
    have h := portAccess_read4_freqw hb (hoffset (n := 0x1000 + 4 * x.toNat) (by omega)) hx
    rwa [BitVec.ofNat_toNat, BitVec.setWidth_eq] at h
  · rw [← nodewWord_freq s.node hi]
    exact portAccess_read4_nodew hb ((hoffset (by omega)).trans (by omega)) (by omega)
  · rw [← nodewWord_link s.node hi]
    exact portAccess_read4_nodew hb ((hoffset (by omega)).trans (by omega)) (by omega)
  · cases hkind : (nodeAt s.node i).kind with
    | leaf => exact toNat_linkWord_leaf hkind
    | internal => exact toNat_linkWord_internal hkind
  · exact (portAccess_read4_nodew (k := 1022) hb rfl (by decide)).trans
      (by rw [nodewWord_beyond _ (by decide)]; rfl)
  · exact (portAccess_read4_nodew (k := 1023) hb rfl (by decide)).trans
      (by rw [nodewWord_beyond _ (by decide)]; rfl)
  · have hx := x.isLt
    rw [← codewWord_entry s.code x hw]
    exact portAccess_read4_codew hb ((hoffset (by omega)).trans (by omega)) (by omega)
  · rintro rfl; rfl
  · intro h9
    rw [codeEntryWord, if_neg (by omega), if_neg (by omega)]

/-! ## Frames (rule R104) -/

theorem Unchanged.refl (l : Loc) (s : State) : Unchanged l s s := by
  cases l with
  | root => exact ⟨rfl, rfl⟩
  | ibuf | obuf => exact fun _ => rfl
  | _ => rfl

theorem Unchanged.trans {l : Loc} {s t u : State} (h : Unchanged l s t) (h' : Unchanged l t u) :
    Unchanged l s u := by
  cases l with
  | root => exact ⟨h'.1.trans h.1, h'.2.trans h.2⟩
  | ibuf | obuf => exact fun a => (h' a).trans (h a)
  | _ => exact Eq.trans h' h

/-- A rule that completes changes no location outside `ws`. -/
def Keeps (ws : List Loc) (body : State → Body) : Prop :=
  ∀ s t l, body s = .ok t → l ∉ ws → Unchanged l s t

theorem Keeps.mono {ws ws' : List Loc} {body : State → Body} (h : Keeps ws body) (hsub : ws ⊆ ws') :
    Keeps ws' body :=
  fun s t l ht hl => h s t l ht fun hm => hl (hsub hm)

/-- The stages of a composite change no location outside their write sets (rule R246). -/
theorem Keeps.thenStage {ws : List Loc} {before stage : State → Body} (hb : Keeps ws before)
    (hs : Keeps ws stage) : Keeps ws (fun s => thenStage (before s) stage) := by
  intro s u l hu hl
  obtain ⟨t, ht, hu⟩ := thenStage_ok hu
  exact (hb s t l ht hl).trans (hs t u l hu hl)

theorem putOutput_unchanged {l : Loc} (hl : l ∉ [Loc.obuf, .outLen]) (bytes : List Byte) (s : State) :
    Unchanged l s (putOutput bytes s) := by
  have hsame := Unchanged.refl l s
  cases l with
  | obuf | outLen => exact absurd (by decide) hl
  | _ => exact hsame

theorem putBitCount_unchanged {l : Loc} (hl : l ∉ [Loc.bitCnt]) (b : Nat) (s : State) :
    Unchanged l s (putBitCount b s) := by
  have hsame := Unchanged.refl l s
  cases l with
  | bitCnt => exact absurd (by decide) hl
  | _ => exact hsame

theorem with_code_unchanged {l : Loc} (hl : l ∉ [Loc.code]) (c : CodeTable) (s : State) :
    Unchanged l s { s with code := c } := by
  have hsame := Unchanged.refl l s
  cases l with
  | code => exact absurd (by decide) hl
  | _ => exact hsame

theorem clrBody_keeps : Keeps (writeSet .clr) clrBody := by
  intro s t l h hl
  injection h with h
  subst h
  have hsame := Unchanged.refl l s
  cases l with
  | ibuf | inLen | obuf => exact hsame
  | _ => exact absurd (by decide) hl

theorem freqBody_keeps : Keeps (writeSet .freq) freqBody := by
  intro s t l h hl
  obtain ⟨-, rfl⟩ := freqBody_ok h
  have hsame := Unchanged.refl l s
  cases l with
  | freq => exact absurd (by decide) hl
  | _ => exact hsame

theorem buildBody_keeps : Keeps (writeSet .build) buildBody := by
  intro s t l h hl
  injection h with h
  subst h
  have hsame := Unchanged.refl l s
  cases l with
  | node | nodeCnt | root => exact absurd (by decide) hl
  | _ => exact hsame

theorem genBody_keeps : Keeps (writeSet .gen) genBody := by
  intro s t l h hl
  obtain ⟨c, -, rfl⟩ := genBody_ok h
  exact with_code_unchanged hl c s

theorem swapBody_keeps : Keeps (writeSet .swap) swapBody := by
  intro s t l h hl
  obtain ⟨-, rfl⟩ := swapBody_ok h
  have hsame := Unchanged.refl l s
  cases l with
  | ibuf | inLen | obuf | outLen => exact absurd (by decide) hl
  | _ => exact hsame

theorem decBody_keeps : Keeps (writeSet .dec) decBody := by
  intro s t l h hl
  obtain ⟨-, -, -, out, -, rfl⟩ := decBody_ok h
  exact putOutput_unchanged hl out s

theorem serBody_keeps : Keeps (writeSet .ser) serBody := by
  intro s t l h hl
  obtain ⟨-, -, -, -, rfl⟩ := serBody_ok h
  exact putOutput_unchanged hl _ s

theorem unpackBody_keeps : Keeps (writeSet .unpack) unpackBody := by
  intro s t l h hl
  obtain ⟨-, -, -, -, rfl⟩ := unpackBody_ok h
  exact putOutput_unchanged hl _ s

/-- Output with a bit count, as ENC and PACK leave it. -/
theorem putBitCount_putOutput_unchanged {l : Loc} (hl : l ∉ [Loc.obuf, .outLen, .bitCnt]) (b : Nat)
    (bytes : List Byte) (s : State) : Unchanged l s (putBitCount b (putOutput bytes s)) :=
  (putOutput_unchanged (fun hm => hl (List.mem_append_left [.bitCnt] hm)) bytes s).trans
    (putBitCount_unchanged (fun hm => hl (List.mem_append_right [.obuf, .outLen] hm)) b _)

theorem encBody_keeps : Keeps (writeSet .enc) encBody := by
  intro s t l h hl
  obtain ⟨-, e, -, rfl⟩ := encBody_ok h
  exact putBitCount_putOutput_unchanged hl _ _ s

theorem packBody_keeps : Keeps (writeSet .pack) packBody := by
  intro s t l h hl
  obtain ⟨-, rfl⟩ := packBody_ok h
  exact putBitCount_putOutput_unchanged hl _ _ s

theorem deserBody_keeps : Keeps (writeSet .deser) deserBody := by
  intro s t l h hl
  obtain ⟨-, -, -, -, c, -, rfl⟩ := deserBody_ok h
  have hcode : [Loc.code] ⊆ writeSet .deser := by decide
  have hout : [Loc.obuf, .outLen, .bitCnt] ⊆ writeSet .deser := by decide
  exact (with_code_unchanged (fun hm => hl (hcode hm)) c s).trans
    (putBitCount_putOutput_unchanged (fun hm => hl (hout hm)) _ _ _)

/-- Every command's rule changes no location outside the command's write set. -/
theorem bodyOf_keeps (i : Instr) : Keeps (writeSet i) (bodyOf i) := by
  cases i with
  | nop => intro s t l h _; injection h with h; exact h ▸ Unchanged.refl l s
  | clr => exact clrBody_keeps
  | freq => exact freqBody_keeps
  | build => exact buildBody_keeps
  | gen => exact genBody_keeps
  | enc => exact encBody_keeps
  | dec => exact decBody_keeps
  | ser => exact serBody_keeps
  | deser => exact deserBody_keeps
  | swap => exact swapBody_keeps
  | pack => exact packBody_keeps
  | unpack => exact unpackBody_keeps
  | compress =>
    exact (((((freqBody_keeps.mono (by decide)).thenStage (buildBody_keeps.mono (by decide))).thenStage
      (genBody_keeps.mono (by decide))).thenStage (encBody_keeps.mono (by decide))).thenStage
      (swapBody_keeps.mono (by decide))).thenStage (serBody_keeps.mono (by decide))
  | decompress =>
    exact ((deserBody_keeps.mono (by decide)).thenStage (swapBody_keeps.mono (by decide))).thenStage
      (decBody_keeps.mono (by decide))

theorem complete_unchanged (l : Loc) (s : State) : Unchanged l s (complete s) := by
  have hsame := Unchanged.refl l s
  cases l with
  | _ => exact hsame

/-- Fault entry changes the fault registers and, of the other locations, only those in the write set
(rules R273, R274). -/
theorem faultEntry_unchanged {l : Loc} {ws : List Loc} (hl : l ∉ ws)
    (hfault : l ∉ [Loc.faultCode, .faultInfo, .faultBit]) (r : Raise) (s : State) :
    Unchanged l s (faultEntry ws r s) := by
  obtain ⟨cause, info, _ | _⟩ := r <;> cases l with
  | faultCode | faultInfo | faultBit => exact absurd (by decide) hfault
  | _ => simp [Unchanged, hl]

/-- A command changes only its write set, but for the fault registers when it faults (rule R104). -/
theorem exec_unchanged {i : Instr} {s t : State} (h : exec i s = .next t) {l : Loc} (hl : l ∉ writeSet i)
    (hfault : l ∉ [Loc.faultCode, .faultInfo, .faultBit]) : Unchanged l s t := by
  rcases exec_cases h with ⟨u, hu, rfl⟩ | ⟨r, -, rfl⟩
  · exact (bodyOf_keeps i s u l hu hl).trans (complete_unchanged l u)
  · exact faultEntry_unchanged hl hfault r s

/-! ## Who changes a table (rules R42, R48, R54) -/

/-- A word that decodes is the word of its command (rule R105). -/
theorem eq_encode_of_decode {w : Word} {i : Instr} (h : decode w = .ok i) : w = encode i := by
  have hrows : ∀ r ∈ opcodeMap, r.mask = BitVec.allOnes 32 ∧ r.pattern = encode r.instr := by decide
  rw [decode] at h
  split at h
  · rename_i r hfind
    obtain ⟨hmask, hpattern⟩ := hrows r (List.mem_of_find?_eq_some hfind)
    have hselect := List.find?_some hfind
    rw [beq_iff_eq, hmask, BitVec.and_allOnes, hpattern] at hselect
    injection h with h
    rw [hselect, h]
  · split at h <;> cases h

/-- The locations of the tables. -/
def tableLocs : List Loc := [.freq, .node, .nodeCnt, .root, .code]

/-- No host access changes a table (rule R44). -/
theorem portAccess_unchanged {l : Loc} (hl : l ∈ tableLocs) (a : Access) (s : State) :
    Unchanged l s (portAccess a s).1 := by
  have hsame := Unchanged.refl l s
  rcases portAccess_cases a s with e | ⟨-, ⟨w, -, e⟩ | ⟨v, e⟩ | ⟨v, e⟩ | ⟨v, e⟩ | ⟨v, e⟩ | ⟨i, b, -, e⟩⟩ <;>
    rw [e] <;> cases l with
    | freq | node | nodeCnt | root | code => exact hsame
    | _ => exact absurd hl (by decide)

/-- The answer is not a location. -/
theorem hostTurn_unchanged {l : Loc} (hl : l ∈ tableLocs) (a : Access) (s : State) :
    Unchanged l s (hostTurn a s) := by
  have haccess := portAccess_unchanged hl a s
  cases l with
  | _ => exact haccess

/-- Taking a turn off the list changes no location. -/
theorem popTurn_unchanged (l : Loc) (s : State) : Unchanged l s (popTurn s) := by
  have hsame := Unchanged.refl l s
  cases l with
  | _ => exact hsame

/-- A step other than a reset edge changes a table only as the engine's turn on a command that has the table in
its write set. -/
theorem step_unchanged_or {s t : State} (h : step s = .next t) (hrst : s.inputs.head? ≠ some .rst) {l : Loc}
    (hl : l ∈ tableLocs) :
    Unchanged l s t ∨
      (s.busy = true ∧ (s.inputs = [] ∨ s.inputs.head? = some .engine) ∧
        ∃ i, s.cmdr = encode i ∧ l ∈ writeSet i) := by
  have hfault : l ∉ [Loc.faultCode, .faultInfo, .faultBit] := by
    revert l; decide
  have hpop := popTurn_unchanged l s
  rcases step_cases h with ⟨a, -, rfl⟩ | ⟨hr, -⟩ | ⟨hturn, h⟩
  · exact .inl (hpop.trans (hostTurn_unchanged hl a _))
  · exact absurd hr hrst
  · rcases engineTurn_cases h with ⟨-, rfl⟩ | ⟨hbusy, i, hi, h⟩ | ⟨-, e, -, rfl⟩
    · exact .inl hpop
    · by_cases hw : l ∈ writeSet i
      · exact .inr ⟨hbusy, hturn, i, eq_encode_of_decode hi, hw⟩
      · exact .inl (hpop.trans (exec_unchanged h hw hfault))
    · exact .inl (hpop.trans (faultEntry_unchanged List.not_mem_nil hfault _ _))

/-- The commands that have FREQ in their write set, by their words. -/
theorem encode_mem_of_freq_mem_writeSet {i : Instr} (h : .freq ∈ writeSet i) :
    encode i ∈ [encode .freq, encode .compress, encode .clr] := by
  revert h
  cases i <;> decide

/-- The commands that have NODE, NODE_CNT or ROOT in their write set, by their words. -/
theorem encode_mem_of_tree_mem_writeSet {i : Instr} {l : Loc} (hl : l ∈ [Loc.node, .nodeCnt, .root])
    (h : l ∈ writeSet i) : encode i ∈ [encode .build, encode .compress, encode .clr] := by
  revert l
  cases i <;> decide

/-- The commands that have CODE in their write set, by their words. -/
theorem encode_mem_of_code_mem_writeSet {i : Instr} (h : .code ∈ writeSet i) :
    encode i ∈ [encode .gen, encode .deser, encode .compress, encode .decompress, encode .clr] := by
  revert h
  cases i <;> decide

/-- A changed tree register or entry is a changed location of the tree. -/
theorem exists_tree_changed {s t : State}
    (h : t.node ≠ s.node ∨ t.nodeCnt ≠ s.nodeCnt ∨ t.rootValid ≠ s.rootValid ∨ t.rootIndex ≠ s.rootIndex) :
    ∃ l ∈ [Loc.node, .nodeCnt, .root], ¬ Unchanged l s t := by
  rcases h with hnode | hcnt | hvalid | hindex
  · exact ⟨.node, by decide, hnode⟩
  · exact ⟨.nodeCnt, by decide, hcnt⟩
  · exact ⟨.root, by decide, fun hu => hvalid hu.1⟩
  · exact ⟨.root, by decide, fun hu => hindex hu.2⟩

/-- Settles O60: a changed table is one in the write set of the command the engine's turn ran. -/
theorem tablesChangeOnlyByTheirCommands : Obligations.TablesChangeOnlyByTheirCommands := by
  unfold Obligations.TablesChangeOnlyByTheirCommands
  intro s t h hrst
  have hchanged {l : Loc} (hl : l ∈ tableLocs) (hc : ¬ Unchanged l s t) :=
    (step_unchanged_or h hrst hl).resolve_left hc
  have htree : [Loc.node, .nodeCnt, .root] ⊆ tableLocs := by decide
  refine ⟨fun hc => ?_, fun hc => ?_, fun hc => ?_, fun hc => ?_⟩
  · obtain ⟨l, hl, hu⟩ : ∃ l ∈ tableLocs, ¬ Unchanged l s t := by
      rcases hc with hfreq | hnode | hcnt | hvalid | hindex | hcode
      · exact ⟨.freq, by decide, hfreq⟩
      · exact ⟨.node, by decide, hnode⟩
      · exact ⟨.nodeCnt, by decide, hcnt⟩
      · exact ⟨.root, by decide, fun hu => hvalid hu.1⟩
      · exact ⟨.root, by decide, fun hu => hindex hu.2⟩
      · exact ⟨.code, by decide, hcode⟩
    obtain ⟨hbusy, hturn, -⟩ := hchanged hl hu
    exact ⟨hbusy, hturn⟩
  · obtain ⟨-, -, i, hi, hw⟩ := hchanged (l := .freq) (by decide) hc
    exact hi ▸ encode_mem_of_freq_mem_writeSet hw
  · obtain ⟨l, hl, hu⟩ := exists_tree_changed hc
    obtain ⟨-, -, i, hi, hw⟩ := hchanged (htree hl) hu
    exact hi ▸ encode_mem_of_tree_mem_writeSet hl hw
  · obtain ⟨-, -, i, hi, hw⟩ := hchanged (l := .code) (by decide) hc
    exact hi ▸ encode_mem_of_code_mem_writeSet hw

end Sys2Proof.Machine

/-! PROOF. Each turn is one step, and every step answers a next state; which accesses the host port serves and
where the byte windows lie; what a command leaves unchanged; the bytes SER stores. -/

namespace Sys2Proof.Machine

/-! ## One turn a step (rules R85, R87, R300; log entries 5, 10) -/

section
variable {s : State} {rest : List Input}

theorem step_of_no_turn (h : s.inputs = []) : step s = engineTurn s := by
  rw [step, advance, h]

theorem step_of_engine (h : s.inputs = .engine :: rest) : step s = engineTurn { s with inputs := rest } := by
  rw [step, advance, h]

theorem step_of_access {a : Access} (h : s.inputs = .access a :: rest) :
    step s = .next (hostTurn a { s with inputs := rest }) := by
  rw [step, advance, h]

theorem step_of_rst (h : s.inputs = .rst :: rest) : step s = .next (rstEdge { s with inputs := rest }) := by
  rw [step, advance, h]

theorem engineTurn_idle (hb : s.busy = false) : engineTurn s = .next s := by
  simp [engineTurn, hb]

theorem engineTurn_of_decode {i : Instr} (hb : s.busy = true) (hi : decode s.cmdr = .ok i) :
    engineTurn s = exec i s := by
  simp [engineTurn, hb, engineStep, hi]

end

theorem exec_total (i : Instr) (s : State) : ∃ t, exec i s = .next t :=
  exec_eq i s ▸ runCommand_total (writeSet i) (bodyOf i) s

/-- The engine's turn answers a next state for every latched word, an illegal one included. -/
theorem engineTurn_total (s : State) : ∃ t, engineTurn s = .next t := by
  cases hb : s.busy with
  | false => exact ⟨s, engineTurn_idle hb⟩
  | true =>
    cases hd : decode s.cmdr with
    | ok i => exact engineTurn_of_decode hb hd ▸ exec_total i s
    | error e => exact ⟨_, by rw [engineTurn, if_pos hb, engineStep, hd, illegalCommand]⟩

/-- Settles O4: both ways to the engine's turn run the decoded command. -/
theorem stepRunsTheLatchedCommand : Obligations.StepRunsTheLatchedCommand := by
  unfold Obligations.StepRunsTheLatchedCommand
  intro s i hb hi
  exact ⟨fun h => (step_of_no_turn h).trans (engineTurn_of_decode hb hi),
    fun rest h => (step_of_engine h).trans (engineTurn_of_decode hb hi)⟩

/-- Settles O5: one equation of the step per kind of turn. -/
theorem stepTakesTheFirstTurn : Obligations.StepTakesTheFirstTurn := by
  unfold Obligations.StepTakesTheFirstTurn
  intro s rest
  exact ⟨fun a h => step_of_access h, step_of_rst,
    fun hb h => (step_of_engine h).trans (engineTurn_idle hb),
    fun hb h => (step_of_no_turn h).trans (engineTurn_idle hb)⟩

/-- Settles O8: by the first turn listed. -/
theorem stepAlwaysAnswersNext : Obligations.StepAlwaysAnswersNext := by
  unfold Obligations.StepAlwaysAnswersNext
  intro s
  match h : s.inputs with
  | [] => exact step_of_no_turn h ▸ engineTurn_total s
  | .engine :: rest => exact step_of_engine h ▸ engineTurn_total _
  | .access a :: rest => exact ⟨_, step_of_access h⟩
  | .rst :: rest => exact ⟨_, step_of_rst h⟩

/-! ## Accesses that are not served (rules R72 to R75, R80) -/

/-- While BUSY = 1 every access but a size-4 read of STATUS answers ERR (rule R75). -/
theorem portAccess_busy_err {s : State} (hb : s.busy = true) {a : Access} (ha : a ≠ .read4 (regOffset .status)) :
    portAccess a s = (s, errResponse a) := by
  rw [portAccess, if_pos hb]
  cases a with
  | read4 o =>
    have ho : o ≠ regOffset .status := fun e => ha (congrArg Access.read4 e)
    rw [busyAccess, if_neg ho]
  | _ => rfl

theorem portAccess_busy_status {s : State} (hb : s.busy = true) :
    portAccess (.read4 (regOffset .status)) s = (s, okWord (statusWord s)) := by
  rw [portAccess, if_pos hb, busyAccess, if_pos rfl]

theorem portAccess_read4_none {s : State} {o : Word} (h : readWord s o = none) :
    portAccess (.read4 o) s = (s, errResponse (.read4 o)) := by
  cases hb : s.busy with
  | false => simp [portAccess, hb, idleAccess, h]
  | true =>
    have ho : o ≠ regOffset .status := by
      rintro rfl
      simp [readWord, aligned4_regOffset, placeOf_regOffset] at h
    exact portAccess_busy_err hb (mt Access.read4.inj ho)

theorem portAccess_read1_none {s : State} {o : Word} (h : readByte s o = none) :
    portAccess (.read1 o) s = (s, errResponse (.read1 o)) := by
  cases hb : s.busy with
  | false => simp [portAccess, hb, idleAccess, h]
  | true => exact portAccess_busy_err hb Access.noConfusion

theorem portAccess_write4_err {s : State} {o v : Word} (h : writeWord o v s = (s, .err)) :
    portAccess (.write4 o v) s = (s, errResponse (.write4 o v)) := by
  cases hb : s.busy with
  | false => simp [portAccess, hb, idleAccess, h, errResponse]
  | true => exact portAccess_busy_err hb Access.noConfusion

theorem portAccess_write1_err {s : State} {o : Word} {b : Byte} (h : writeByte o b s = (s, .err)) :
    portAccess (.write1 o b) s = (s, errResponse (.write1 o b)) := by
  cases hb : s.busy with
  | false => simp [portAccess, hb, idleAccess, h, errResponse]
  | true => exact portAccess_busy_err hb Access.noConfusion

theorem portAccess_read1_state (s : State) (o : Word) : (portAccess (.read1 o) s).1 = s := by
  cases h : readByte s o with
  | none => rw [portAccess_read1_none h]
  | some b =>
    cases hb : s.busy with
    | false => simp [portAccess, hb, idleAccess, h]
    | true => rw [portAccess_busy_err hb Access.noConfusion]

theorem portAccess_read4_state (s : State) (o : Word) : (portAccess (.read4 o) s).1 = s := by
  cases h : readWord s o with
  | none => rw [portAccess_read4_none h]
  | some w =>
    cases hb : s.busy with
    | false => rw [portAccess_read4 hb h]
    | true =>
      by_cases ho : o = regOffset .status
      · rw [ho, portAccess_busy_status hb]
      · rw [portAccess_busy_err hb (mt Access.read4.inj ho)]

/-- With legal STATUS, BUSY = 1 leaves DONE = 0 (rule R25). -/
theorem StatusLegal.done_of_busy {s : State} (h : StatusLegal s) (hb : s.busy = true) : s.done = false := by
  cases hd : s.done with
  | false => rfl
  | true => exact absurd hb (by simp [(h.1 hd).1])

/-- Settles O48: the only access served is the size-4 read of STATUS. -/
theorem busyPortServesOnlyStatus : Obligations.BusyPortServesOnlyStatus := by
  unfold Obligations.BusyPortServesOnlyStatus
  intro s hb
  have hword : (statusWord s).toNat = 1 + 2 * s.done.toNat + 4 * s.faulted.toNat := by
    rw [toNat_statusWord, hb, Bool.toNat_true]
  refine ⟨⟨statusWord s, portAccess_busy_status hb, hword, fun hlegal => ⟨fun hf => ?_, fun hf => ⟨?_, ?_⟩⟩⟩,
    fun o ho => portAccess_busy_err hb (mt Access.read4.inj ho),
    fun o => portAccess_busy_err hb Access.noConfusion, fun o v => portAccess_busy_err hb Access.noConfusion,
    fun o v => portAccess_busy_err hb Access.noConfusion⟩
  · exact BitVec.eq_of_toNat_eq (by rw [hword, hlegal.done_of_busy hb, hf]; rfl)
  · exact BitVec.eq_of_toNat_eq (by rw [hword, hlegal.done_of_busy hb, hf]; rfl)
  · exact hlegal.2 hb hf

/-! ## The windows (rules R70, R71) -/

/-- The offset lies in one of the four word windows. -/
def InWordWindow (o : Word) : Prop :=
  o.toNat < 0x40 ∨ (0x1000 ≤ o.toNat ∧ o.toNat < 0x1400) ∨ (0x2000 ≤ o.toNat ∧ o.toNat < 0x3000) ∨
    (0x4000 ≤ o.toNat ∧ o.toNat < 0x8000)

/-- The offset lies in one of the two buffer windows of a capacity. -/
def InBufferWindow (cap : Nat) (o : Word) : Prop :=
  (0x40000000 ≤ o.toNat ∧ o.toNat < 0x40000000 + cap) ∨ (0x80000000 ≤ o.toNat ∧ o.toNat < 0x80000000 + cap)

section
variable {cap : Nat} {o : Word}

/-- Outside the word windows only the buffers' tests are left. -/
theorem placeOf_of_not_word (h : ¬ InWordWindow o) :
    placeOf cap o =
      if 0x40000000 ≤ o.toNat ∧ o.toNat < 0x40000000 + cap then .ibufw (o.toNat - 0x40000000)
      else if 0x80000000 ≤ o.toNat ∧ o.toNat < 0x80000000 + cap then .obufw (o.toNat - 0x80000000)
      else .unmapped := by
  obtain ⟨hreg, hfreqw, hnodew, hcodew⟩ : _ ∧ _ ∧ _ ∧ _ := by simpa only [InWordWindow, not_or] using h
  simp only [placeOf]
  rw [if_neg hreg, if_neg hfreqw, if_neg hnodew, if_neg hcodew]

theorem placeOf_ibufw_of {i : Nat} (ho : o.toNat = 0x40000000 + i) (hi : i < cap) :
    placeOf cap o = .ibufw i := by
  have hword : ¬ InWordWindow o := by unfold InWordWindow; omega
  rw [placeOf_of_not_word hword, if_pos (by omega), ho, Nat.add_sub_cancel_left]

theorem placeOf_obufw_of {i : Nat} (hcap : cap ≤ 0x40000000) (ho : o.toNat = 0x80000000 + i) (hi : i < cap) :
    placeOf cap o = .obufw i := by
  have hword : ¬ InWordWindow o := by unfold InWordWindow; omega
  rw [placeOf_of_not_word hword, if_neg (by omega), if_pos (by omega), ho, Nat.add_sub_cancel_left]

theorem placeOf_unmapped_of (hword : ¬ InWordWindow o) (hbuffer : ¬ InBufferWindow cap o) :
    placeOf cap o = .unmapped := by
  obtain ⟨hibufw, hobufw⟩ : _ ∧ _ := by simpa only [InBufferWindow, not_or] using hbuffer
  rw [placeOf_of_not_word hword, if_neg hibufw, if_neg hobufw]

variable {s : State}

/-- A size-4 access outside the word windows, or misaligned, is not served. -/
theorem wordAccess_unserved (h : o.toNat % 4 ≠ 0 ∨ ¬ InWordWindow o) :
    readWord s o = none ∧ ∀ v, writeWord o v s = (s, .err) := by
  rcases h with hmis | hword
  · have ha : ¬ aligned4 o = true := mt (aligned4_iff o).mp hmis
    exact ⟨if_neg ha, fun v => if_neg ha⟩
  · simp only [readWord, writeWord, placeOf_of_not_word hword]
    split_ifs <;> simp

/-- A place outside the buffer windows is no buffer's. -/
theorem byteAccess_unserved (h : ¬ InBufferWindow s.bufCap o) :
    readByte s o = none ∧ ∀ b, writeByte o b s = (s, .err) := by
  cases hp : placeOf s.bufCap o with
  | ibufw i =>
    obtain ⟨hi, ho⟩ := placeOf_ibufw hp
    exact absurd (.inl (by omega)) h
  | obufw i =>
    obtain ⟨hi, ho⟩ := placeOf_obufw hp
    exact absurd (.inr (by omega)) h
  | _ => simp [readByte, writeByte, hp]

end

/-- Settles O50: an offset outside the windows of its access size has no place there. -/
theorem unservedAccessesChangeNothing : Obligations.UnservedAccessesChangeNothing := by
  unfold Obligations.UnservedAccessesChangeNothing
  intro s o
  refine ⟨portAccess_read1_state s o, portAccess_read4_state s o, fun h => ?_, fun h => ?_⟩
  · obtain ⟨hread, hwrite⟩ := wordAccess_unserved (s := s) h
    exact ⟨portAccess_read4_none hread, fun v => portAccess_write4_err (hwrite v)⟩
  · obtain ⟨hread, hwrite⟩ := byteAccess_unserved h
    exact ⟨portAccess_read1_none hread, fun v => portAccess_write1_err (hwrite v)⟩

/-- A legal capacity keeps the buffer windows apart (rules R8, R70). -/
theorem CapacityLegal.le_window {s : State} (h : CapacityLegal s) : s.bufCap ≤ 0x40000000 := by
  simp only [CapacityLegal, bufCapWellFormed, Bool.and_eq_true, decide_eq_true_eq] at h
  exact h.2

/-- Settles O54: the place of each offset, and a read after a write. -/
theorem bufferWindows : Obligations.BufferWindows := by
  unfold Obligations.BufferWindows
  refine ⟨fun s i b hcap hwf hb hi => ?_, fun s o hcap ho => ?_⟩
  · have hmax := hcap.le_window
    have hibufw : placeOf s.bufCap (BitVec.ofNat 32 (0x40000000 + i)) = .ibufw i :=
      placeOf_ibufw_of (by rw [BitVec.toNat_ofNat]; omega) hi
    have hobufw : placeOf s.bufCap (BitVec.ofNat 32 (0x80000000 + i)) = .obufw i :=
      placeOf_obufw_of hmax (by rw [BitVec.toNat_ofNat]; omega) hi
    refine ⟨?_, ?_, ?_, Memory.write s.ibuf i b, ?_, Memory.read_write_same hwf i b,
      fun a ha => Memory.read_write_ne hwf b ha⟩
    · simp [portAccess, hb, idleAccess, readByte, hibufw, okByte]
    · simp [portAccess, hb, idleAccess, readByte, hobufw, okByte]
    · simp [portAccess, hb, idleAccess, writeByte, hobufw]
    · simp [portAccess, hb, idleAccess, writeByte, hibufw]
  · have hmax := hcap.le_window
    exact placeOf_unmapped_of (by unfold InWordWindow; omega) (by unfold InBufferWindow; omega)

/-! ## What no command changes (rules R87, R104) -/

/-- CMDR, CTRL, BUF_CAP, and the model's own turns and latest answer hold in `t` what they hold in `s`. -/
structure SameControl (s t : State) : Prop where
  cmdr : t.cmdr = s.cmdr
  bufCap : t.bufCap = s.bufCap
  ieDone : t.ieDone = s.ieDone
  ieFault : t.ieFault = s.ieFault
  inputs : t.inputs = s.inputs
  lastResp : t.lastResp = s.lastResp

theorem SameControl.trans {s t u : State} (h : SameControl s t) (h' : SameControl t u) : SameControl s u :=
  ⟨h'.cmdr.trans h.cmdr, h'.bufCap.trans h.bufCap, h'.ieDone.trans h.ieDone, h'.ieFault.trans h.ieFault,
    h'.inputs.trans h.inputs, h'.lastResp.trans h.lastResp⟩

theorem complete_sameControl (s : State) : SameControl s (complete s) := ⟨rfl, rfl, rfl, rfl, rfl, rfl⟩

theorem faultEntry_sameControl (ws : List Loc) (r : Raise) (s : State) : SameControl s (faultEntry ws r s) :=
  ⟨faultEntry_cmdr s ws r, faultEntry_bufCap s ws r, faultEntry_ieDone s ws r, faultEntry_ieFault s ws r,
    faultEntry_inputs s ws r, faultEntry_lastResp s ws r⟩

/-- A rule that completes leaves the control state as it was. -/
def KeepsControl (body : State → Body) : Prop := ∀ s t, body s = .ok t → SameControl s t

theorem KeepsControl.thenStage {before stage : State → Body} (hb : KeepsControl before) (hs : KeepsControl stage) :
    KeepsControl (fun s => thenStage (before s) stage) := by
  intro s u hu
  obtain ⟨t, ht, hu⟩ := thenStage_ok hu
  exact (hb s t ht).trans (hs t u hu)

theorem freqBody_keepsControl : KeepsControl freqBody := by
  intro s t h
  obtain ⟨-, rfl⟩ := freqBody_ok h
  exact ⟨rfl, rfl, rfl, rfl, rfl, rfl⟩

theorem buildBody_keepsControl : KeepsControl buildBody := by
  intro s t h
  injection h with h
  exact h ▸ ⟨rfl, rfl, rfl, rfl, rfl, rfl⟩

theorem genBody_keepsControl : KeepsControl genBody := by
  intro s t h
  obtain ⟨c, -, rfl⟩ := genBody_ok h
  exact ⟨rfl, rfl, rfl, rfl, rfl, rfl⟩

theorem swapBody_keepsControl : KeepsControl swapBody := by
  intro s t h
  obtain ⟨-, rfl⟩ := swapBody_ok h
  exact ⟨rfl, rfl, rfl, rfl, rfl, rfl⟩

theorem outputBody_keepsControl {i : Instr} (hi : i ∈ [Instr.enc, .dec, .ser, .deser, .pack, .unpack]) :
    KeepsControl (bodyOf i) := by
  intro s t h
  obtain ⟨bytes, -, hframe, -⟩ := outputBody_ok hi h
  rw [hframe]
  exact ⟨rfl, rfl, rfl, rfl, rfl, rfl⟩

theorem bodyOf_keepsControl (i : Instr) : KeepsControl (bodyOf i) := by
  cases i with
  | nop | clr =>
    intro s t h
    injection h with h
    exact h ▸ ⟨rfl, rfl, rfl, rfl, rfl, rfl⟩
  | freq => exact freqBody_keepsControl
  | build => exact buildBody_keepsControl
  | gen => exact genBody_keepsControl
  | swap => exact swapBody_keepsControl
  | enc | dec | ser | deser | pack | unpack => exact outputBody_keepsControl (by decide)
  | compress =>
    exact ((((freqBody_keepsControl.thenStage buildBody_keepsControl).thenStage genBody_keepsControl).thenStage
      (outputBody_keepsControl (i := .enc) (by decide))).thenStage swapBody_keepsControl).thenStage
      (outputBody_keepsControl (i := .ser) (by decide))
  | decompress =>
    exact ((outputBody_keepsControl (i := .deser) (by decide)).thenStage swapBody_keepsControl).thenStage
      (outputBody_keepsControl (i := .dec) (by decide))

theorem exec_sameControl {i : Instr} {s t : State} (h : exec i s = .next t) : SameControl s t := by
  rcases exec_cases h with ⟨u, hu, rfl⟩ | ⟨r, -, rfl⟩
  · exact (bodyOf_keepsControl i s u hu).trans (complete_sameControl u)
  · exact faultEntry_sameControl _ r s

/-- A completed command changes no location outside its write set, the fault registers included. -/
theorem exec_unchanged_of_done {i : Instr} {s t : State} (h : exec i s = .next t) (hd : t.done = true) {l : Loc}
    (hl : l ∉ writeSet i) : Unchanged l s t := by
  rcases exec_cases h with ⟨u, hu, rfl⟩ | ⟨r, -, rfl⟩
  · exact (bodyOf_keeps i s u l hu hl).trans (complete_unchanged l u)
  · exact absurd hd (by simp)

/-- A command ends with BUSY = 0: completed, or with its fault recorded (rules R87, R273). -/
theorem exec_status {i : Instr} {s t : State} (h : exec i s = .next t) :
    t.busy = false ∧ (t.done = true ∨ (t.done = false ∧ t.faulted = true ∧ t.faultCode ≠ none)) := by
  rcases exec_cases h with ⟨u, -, rfl⟩ | ⟨r, -, rfl⟩
  · exact ⟨rfl, .inl rfl⟩
  · exact ⟨rfl, .inr ⟨rfl, rfl, Option.some_ne_none _⟩⟩

/-- Settles O9: how a command ends, the control state it keeps, and its frame. -/
theorem commandChangesOnlyItsWriteSet : Obligations.CommandChangesOnlyItsWriteSet := by
  unfold Obligations.CommandChangesOnlyItsWriteSet
  intro i s t h
  obtain ⟨hbusy, hend⟩ := exec_status h
  obtain ⟨hcmdr, hcap, hdone, hfault, hinputs, hresp⟩ := exec_sameControl h
  exact ⟨hbusy, hcmdr, hcap, hdone, hfault, hinputs, hresp, hend,
    fun l hl hcode hinfo hbit => exec_unchanged h hl (by simp [hcode, hinfo, hbit]),
    fun hd l hl => exec_unchanged_of_done h hd hl⟩

/-! ## SER (rules R216, R222, R223) -/

/-- A part of a stored string is read back from the part's extent. -/
theorem Memory.readBytes_writeBytes_part {m : Memory} (h : Memory.wf m) {bytes x y z : List Byte}
    (hbytes : bytes = x ++ y ++ z) {a n : Nat} (ha : a = x.length) (hn : n = y.length) :
    Memory.readBytes (Memory.writeBytes m 0 bytes) a n = y := by
  subst hbytes ha hn
  apply List.ext_getElem (by simp)
  intro i h1 h2
  simp only [Memory.readBytes, List.getElem_map, List.getElem_range]
  rw [Memory.read_writeBytes h, if_pos (by simp; omega)]
  simp [List.getD, List.getElem?_append, h2]

theorem Memory.read_of_readBytes {m : Memory} {a n : Nat} {bytes : List Byte}
    (h : Memory.readBytes m a n = bytes) {i : Nat} (hi : i < n) : Memory.read m (a + i) = bytes.getD i 0#8 := by
  rw [← h, Memory.getD_readBytes m a n i hi]

section
variable {m : Memory} (h : Memory.wf m) (b : Nat) (y : List Byte) (c : CodeTable)
include h

theorem readBytes_container_header :
    Memory.readBytes (Memory.writeBytes m 0 (containerBytes b y c)) 0 4 = headerBytes b :=
  Memory.readBytes_writeBytes_part h (x := []) (List.append_assoc ..) rfl rfl

theorem readBytes_container_payload :
    Memory.readBytes (Memory.writeBytes m 0 (containerBytes b y c)) 4 y.length = y :=
  Memory.readBytes_writeBytes_part h (x := headerBytes b) rfl rfl rfl

theorem readBytes_container_table :
    Memory.readBytes (Memory.writeBytes m 0 (containerBytes b y c)) (4 + y.length) (tableSize c) = tableBytes c :=
  Memory.readBytes_writeBytes_part h (List.append_nil _).symm
    (by rw [List.length_append, length_headerBytes]) (length_tableBytes c).symm

end

/-- Byte `k` of the header, most significant first (rules R77, R217). -/
theorem getD_headerBytes (b : Word) {k : Nat} (hk : k < 4) :
    (headerBytes b.toNat).getD k 0#8 = (b >>> (24 - 8 * k)).setWidth 8 := by
  rw [headerBytes, BitVec.ofNat_toNat, BitVec.setWidth_eq]
  match k, hk with
  | 0, _ | 1, _ | 2, _ | 3, _ => rfl

/-- SER, its checks passed, stores the container and nothing else (rule R222). -/
theorem exec_ser_of_fits {s : State} (h1 : inputLength s ≤ s.bufCap) (h2 : s.bitCnt.msb = false)
    (h3 : ceil8 s.bitCnt.toNat ≤ inputLength s)
    (h4 : 4 + ceil8 s.bitCnt.toNat + tableSize s.code ≤ s.bufCap) :
    exec .ser s = .next { s with
      busy := false
      done := true
      obuf := Memory.writeBytes s.obuf 0
        (containerBytes s.bitCnt.toNat (inputPart s (ceil8 s.bitCnt.toNat)) s.code)
      outLen := BitVec.ofNat 32 (4 + ceil8 s.bitCnt.toNat + tableSize s.code) } := by
  rw [exec_of_ok (i := .ser) (serBody_of_fits h1 h2 h3 h4), putOutput, length_containerBytes, inputPart,
    Memory.length_readBytes]
  rfl

/-- Settles O38: the three parts of the container, each read back from its extent. -/
theorem serFramesTheContainer : Obligations.SerFramesTheContainer := by
  unfold Obligations.SerFramesTheContainer
  intro s p t hwf hin hbits hpe hp hte hsize
  subst hpe
  rw [hte] at hsize ⊢
  have hmsb : s.bitCnt.msb = false := BitVec.msb_eq_false_iff_two_mul_lt.mpr (by omega)
  have hlen : (inputPart s (ceil8 s.bitCnt.toNat)).length = ceil8 s.bitCnt.toNat := Memory.length_readBytes ..
  have hheader := readBytes_container_header hwf s.bitCnt.toNat (inputPart s (ceil8 s.bitCnt.toNat)) s.code
  have hpayload := readBytes_container_payload hwf s.bitCnt.toNat (inputPart s (ceil8 s.bitCnt.toNat)) s.code
  have htable := readBytes_container_table hwf s.bitCnt.toNat (inputPart s (ceil8 s.bitCnt.toNat)) s.code
  rw [hlen] at hpayload htable
  refine ⟨_, exec_ser_of_fits hin hmsb hp hsize, fun k hk => ?_, fun j hj => ?_, htable, fun a ha => ?_⟩
  · rw [← getD_headerBytes s.bitCnt hk, ← Memory.read_of_readBytes hheader hk, Nat.zero_add]
  · rw [Memory.read_of_readBytes hpayload hj, inputPart, Memory.getD_readBytes _ 0 _ j hj, Nat.zero_add]
  · have hextent := length_containerBytes s.bitCnt.toNat (inputPart s (ceil8 s.bitCnt.toNat)) s.code
    exact Memory.read_writeBytes_outside hwf (.inr (by omega))

end Sys2Proof.Machine

/-! PROOF. Which words are commands and why the others are illegal; a placed word runs next; a word written to
CMD is accepted or refused. -/

namespace Sys2Proof.Machine

/-! ## Command words (rules R100, R105 to R108) -/

/-- The command words are the 14 lowest ones, in the order of the opcode map. -/
theorem encode_opcodeMap :
    opcodeMap.map (fun r => encode r.instr) = (List.range 0x0E).map (BitVec.ofNat 32) := by decide

theorem exists_eq_encode_iff (w : Word) : (∃ i, w = encode i) ↔ w.toNat < 0x0E := by
  constructor
  · rintro ⟨i, rfl⟩
    cases i <;> decide
  · intro h
    have hw : w ∈ (List.range 0x0E).map (BitVec.ofNat 32) :=
      List.mem_map.mpr ⟨w.toNat, List.mem_range.mpr h, by simp⟩
    rw [← encode_opcodeMap] at hw
    obtain ⟨r, -, hr⟩ := List.mem_map.mp hw
    exact ⟨r.instr, hr.symm⟩

/-- A word is below 0x0E exactly when its ZERO field is 0 and its OPC is below 0x0E (rule R100). -/
theorem toNat_lt_iff_fields (w : Word) :
    w.toNat < 0x0E ↔ w.extractLsb' 8 24 = 0#24 ∧ (w.extractLsb' 0 8).toNat < 0x0E := by
  have hw := w.isLt
  rw [← BitVec.toNat_inj, BitVec.extractLsb'_toNat, BitVec.extractLsb'_toNat, Nat.shiftRight_eq_div_pow,
    Nat.shiftRight_zero, BitVec.toNat_ofNat]
  omega

theorem decode_eq_ok_iff (w : Word) (i : Instr) : decode w = .ok i ↔ w = encode i :=
  ⟨eq_encode_of_decode, fun h => h ▸ decode_encode i⟩

theorem exists_decode_eq_ok_iff (w : Word) : (∃ i, decode w = .ok i) ↔ w.toNat < 0x0E := by
  simp only [decode_eq_ok_iff, exists_eq_encode_iff]

/-- A word the decoder refuses is refused for its ZERO field first (rules R106, R107). -/
theorem reason_of_decode_eq_error {w : Word} {e : Illegal} (h : decode w = .error e) :
    e = if w.extractLsb' 8 24 = 0#24 then .reservedOpcode else .zeroFieldSet := by
  rw [decode] at h
  split at h
  · cases h
  · simp only [zeroFieldClear, beq_iff_eq] at h
    split at h <;> rename_i hzero <;> injection h with h
    · rw [if_pos hzero, h]
    · rw [if_neg hzero, h]

theorem decode_eq_error_iff (w : Word) (e : Illegal) :
    decode w = .error e ↔
      0x0E ≤ w.toNat ∧ e = if w.extractLsb' 8 24 = 0#24 then .reservedOpcode else .zeroFieldSet := by
  rw [← Nat.not_lt, ← exists_decode_eq_ok_iff]
  cases h : decode w with
  | ok i => simp
  | error e' => simp [reason_of_decode_eq_error h, eq_comm]

/-- Settles O3: the 14 words are those below 0x0E, and above them the ZERO field alone gives the reason. -/
theorem illegalWordsAreTheReservedOnes : Obligations.IllegalWordsAreTheReservedOnes := by
  unfold Obligations.IllegalWordsAreTheReservedOnes
  intro w
  rw [decode_eq_error_iff, decode_eq_error_iff, ← Nat.not_lt, toNat_lt_iff_fields]
  by_cases hzero : w.extractLsb' 8 24 = 0#24 <;> simp [hzero]

/-- Settles O1: a word that decodes is its command's word, and each command's word decodes to it. -/
theorem decodeExactlyTheCommandWords : Obligations.DecodeExactlyTheCommandWords := decode_eq_ok_iff

/-- Settles O2: the seven words are their commands' words, and the fields of the other three give the reason. -/
theorem opcodeMapWords : Obligations.OpcodeMapWords := by
  unfold Obligations.OpcodeMapWords
  exact ⟨decode_encode .nop, decode_encode .clr, decode_encode .freq, decode_encode .enc, decode_encode .deser,
    decode_encode .pack, decode_encode .decompress,
    (illegalWordsAreTheReservedOnes _).2.mpr (by decide), (illegalWordsAreTheReservedOnes _).1.mpr (by decide),
    (illegalWordsAreTheReservedOnes _).1.mpr (by decide)⟩

/-! ## A placed word (rule R101; log entry 7) -/

/-- A 32-bit table word keeps every bit of the word. -/
theorem tableWord_full (w : Nat) : tableWord 32 w = BitVec.ofNat 32 w :=
  BitVec.eq_of_toNat_eq (by simp [tableWord])

/-- The engine's turn that `placeCommand` lists runs the word's command. -/
theorem step_placeCommand {w : Word} {i : Instr} (h : decode w = .ok i) (s : State) :
    step (placeCommand w s) = exec i (acceptCommand w s) :=
  (step_of_engine (placeCommand_inputs s w)).trans (engineTurn_of_decode (placeCommand_busy s w) h)

/-- Settles O6: the placed word is the table word whole, and the turn listed with it runs its command. -/
theorem placedWordRunsNext : Obligations.PlacedWordRunsNext := by
  unfold Obligations.PlacedWordRunsNext
  intro s w i _ hi
  rw [State.withFetchWord, tableWord_full]
  exact step_placeCommand hi s

/-! ## A word written to CMD (rules R101, R102) -/

section
variable {s : State} {w : Word}

theorem accepts_iff : accepts s w = true ↔ s.faulted = false ∨ w = 0x00000001#32 := by
  simp [accepts]

theorem portAccess_cmd_of_accepts (hb : s.busy = false) (h : accepts s w = true) :
    portAccess (.write4 (regOffset .cmd) w) s = (acceptCommand w s, ⟨.ok, .none⟩) := by
  rw [portAccess_write4_reg hb, writeReg, issueCommand, if_pos h]

theorem portAccess_cmd_of_refuses (hb : s.busy = false) (h : ¬ accepts s w = true) :
    portAccess (.write4 (regOffset .cmd) w) s = (s, ⟨.err, .none⟩) := by
  rw [portAccess_write4_reg hb, writeReg, issueCommand, if_neg h]

end

/-- Settles O49: by whether the word is accepted. -/
theorem commandAcceptedOrRefused : Obligations.CommandAcceptedOrRefused := by
  unfold Obligations.CommandAcceptedOrRefused
  intro s w hb
  refine ⟨fun h => portAccess_cmd_of_accepts hb (accepts_iff.mpr h), fun hf hw => ?_⟩
  have hrefused : ¬ accepts s w = true := by simp [accepts_iff, hf, hw]
  exact portAccess_cmd_of_refuses hb hrefused

end Sys2Proof.Machine

/-! PROOF. FREQ counts the input (rules R151 to R153), and `check_in()` faults before anything is written
(rule R150). -/

namespace Sys2Proof.Machine

/-! ## The counters FREQ makes (rules R151 to R153) -/

section
variable {bytes : List Byte}

/-- No counter wraps (rule R152). -/
theorem toNat_freqOf_countBytes (h : bytes.length < 2 ^ 32) (x : Byte) :
    (freqOf (countBytes bytes) x).toNat = bytes.count x := by
  have hcount : bytes.count x ≤ bytes.length := List.count_le_length
  rw [freqOf_countBytes, BitVec.toNat_ofNat, Nat.mod_eq_of_lt (by omega)]

/-- The present symbols are those of the input. -/
theorem mem_presentSymbols_countBytes (h : bytes.length < 2 ^ 32) (x : Byte) :
    x ∈ presentSymbols (countBytes bytes) ↔ x ∈ bytes := by
  rw [mem_presentSymbols, ← List.count_pos_iff, ← toNat_freqOf_countBytes h, Nat.pos_iff_ne_zero,
    BitVec.toNat_ne, BitVec.toNat_zero]

theorem freqCount_countBytes_le (h : bytes.length < 2 ^ 32) : freqCount (countBytes bytes) ≤ bytes.length := by
  have hnodup : (presentSymbols (countBytes bytes)).Nodup := nodup_symbols.filter _
  exact (hnodup.subperm fun x hx => (mem_presentSymbols_countBytes h x).mp hx).length_le

theorem freqCount_countBytes_pos (h : bytes.length < 2 ^ 32) (hpos : 0 < bytes.length) :
    0 < freqCount (countBytes bytes) := by
  obtain ⟨x, hx⟩ := List.exists_mem_of_length_pos hpos
  exact List.length_pos_of_mem ((mem_presentSymbols_countBytes h x).mpr hx)

end

theorem length_inputBytes (s : State) : (inputBytes s).length = s.inLen.toNat := Memory.length_readBytes ..

theorem exec_freq_of_fits {s : State} (h : s.inLen.toNat ≤ s.bufCap) :
    exec .freq s = .next { s with busy := false, done := true, freq := countBytes (inputBytes s) } :=
  exec_of_ok (i := .freq) (checkIn_pass h _)

/-- Settles O20: IN_LEN is a 32-bit word, so no counter wraps, and the present symbols are those of the input. -/
theorem freqCountsTheInput : Obligations.FreqCountsTheInput := by
  unfold Obligations.FreqCountsTheInput
  intro s _ hfits
  have hlen : (inputBytes s).length < 2 ^ 32 := length_inputBytes s ▸ s.inLen.isLt
  have hle := freqCount_countBytes_le hlen
  have hsum := freqSum_countBytes hlen
  rw [length_inputBytes] at hle hsum
  refine ⟨_, exec_freq_of_fits hfits, toNat_freqOf_countBytes hlen, hsum, fun hzero => ?_, fun hpos => ⟨?_, ?_⟩⟩
  · exact Nat.le_zero.mp (hzero ▸ hle)
  · exact freqCount_countBytes_pos hlen (by rwa [length_inputBytes])
  · exact le_min (freqCount_le _) hle

/-! ## `check_in()` (rules R150, R269) -/

/-- The commands whose rule begins with `check_in()`, in the order of the obligation. -/
def checkInCommands : List Instr :=
  [.freq, .enc, .dec, .ser, .deser, .swap, .pack, .unpack, .compress, .decompress]

/-- Each of them checks IN_LEN first: by itself, through the payload checks, or in its first stage. -/
theorem bodyOf_raise_of_inputTooLong {i : Instr} {s : State} (hi : i ∈ checkInCommands)
    (h : s.bufCap < inputLength s) : bodyOf i s = .error ⟨.capacityExceeded, s.inLen, .early⟩ := by
  cases i with
  | nop | clr | build | gen => exact absurd hi (by decide)
  | freq | enc | deser | swap | pack | dec | ser | unpack => exact checkIn_raise h _
  | compress =>
    have hfreq : freqBody s = .error ⟨.capacityExceeded, s.inLen, .early⟩ := checkIn_raise h _
    exact thenStage_of_raise (thenStage_of_raise (thenStage_of_raise (thenStage_of_raise
      (thenStage_of_raise hfreq _) _) _) _) _
  | decompress =>
    have hdeser : deserBody s = .error ⟨.capacityExceeded, s.inLen, .early⟩ := checkIn_raise h _
    exact thenStage_of_raise (thenStage_of_raise hdeser _) _

/-- OUT_LEN is in the write set of each of them but FREQ. -/
theorem outLen_mem_writeSet_iff : ∀ i ∈ checkInCommands, .outLen ∈ writeSet i ↔ i ≠ .freq := by decide

/-- An early fault changes nothing but STATUS, the fault registers and OUT_LEN (rules R273, R274). -/
theorem faultEntry_early (ws : List Loc) (c : Cause) (info : Word) (s : State) :
    faultEntry ws ⟨c, info, .early⟩ s =
      { s with
        busy := false, done := false, faulted := true, faultCode := some c, faultInfo := info,
        outLen := if .outLen ∈ ws then 0#32 else s.outLen } := rfl

/-- Settles O13: the check comes first in each command's rule, and its fault is early. -/
theorem checkInFaultsFirst : Obligations.CheckInFaultsFirst := by
  unfold Obligations.CheckInFaultsFirst
  intro i s hi hlong
  rw [exec_of_error (bodyOf_raise_of_inputTooLong hi hlong), faultEntry_early]
  simp only [outLen_mem_writeSet_iff i hi, ite_not]

end Sys2Proof.Machine

/-! PROOF. BUILD merges the two least keys at every internal entry, and is a function of FREQ alone. -/

namespace Sys2Proof.Machine

/-! ## What a completed BUILD stored (rules R160 to R165, R171) -/

/-- NODE, NODE_CNT and ROOT after BUILD are read off the forest of FREQ. -/
theorem exec_build_stores {s t : State} (h : exec .build s = .next t) :
    t.node = (huffmanForest s.freq).node ∧
      t.nodeCnt = BitVec.ofNat 9 (huffmanForest s.freq).n ∧
      t.rootValid = decide ((huffmanForest s.freq).queue.length = 1) ∧
      t.rootIndex = BitVec.ofNat 9
        (if (huffmanForest s.freq).queue.length = 1 then (huffmanForest s.freq).queue.headD 0 else 0) := by
  obtain rfl := Host.Outcome.next.inj ((exec_build s).symm.trans h)
  exact ⟨rfl, rfl, rfl, rfl⟩

/-- NODE_CNT loses nothing: at most 256 leaves make at most 511 entries. -/
theorem toNat_ofNat_huffmanForest_n (f : FreqTable) :
    (BitVec.ofNat 9 (huffmanForest f).n).toNat = (huffmanForest f).n := by
  have hleaves := freqCount_le f
  have hn : (huffmanForest f).n < 2 ^ 9 := by
    obtain ⟨-, ⟨-, hn, -⟩ | ⟨-, hn, -⟩, -⟩ := huffmanForest_spec f <;> omega
  rw [BitVec.toNat_ofNat, Nat.mod_eq_of_lt hn]

/-- Settles O22: the invariant of the merge loop holds of the forest BUILD ends with, and BUILD stores that
forest. -/
theorem buildMergesTheTwoLeastKeys : Obligations.BuildMergesTheTwoLeastKeys := by
  unfold Obligations.BuildMergesTheTwoLeastKeys
  intro s t k l r hexec hleaf hlt hl hr
  obtain ⟨hnode, hcnt, -⟩ := exec_build_stores hexec
  obtain ⟨inv, -⟩ := huffmanForest_spec s.freq
  obtain ⟨-, hleaves, -⟩ := huffmanForest_root s.freq
  rw [hcnt, hleaves] at hleaf
  rw [hcnt, toNat_ofNat_huffmanForest_n] at hlt
  rw [hnode] at hl hr
  rw [hnode, hcnt, hleaves]
  exact ⟨(inv.internals k hleaf hlt).1, inv.merged k l r hleaf hlt hl hr⟩

/-- Settles O23: all that BUILD stores is read off the forest of FREQ. -/
theorem buildDependsOnFreqAlone : Obligations.BuildDependsOnFreqAlone := by
  unfold Obligations.BuildDependsOnFreqAlone
  intro s s' t t' hfreq h h'
  obtain ⟨hnode, hcnt, hvalid, hroot⟩ := exec_build_stores h
  obtain ⟨hnode', hcnt', hvalid', hroot'⟩ := exec_build_stores h'
  rw [hnode, hcnt, hvalid, hroot, hnode', hcnt', hvalid', hroot', hfreq]
  exact ⟨rfl, rfl, rfl, rfl⟩

end Sys2Proof.Machine

/-! PROOF. GEN reads its codes off a legal tree: exactly the leaves' symbols have codes, no code begins another, and
they are complete. FREQ, BUILD and GEN of an input give a code to each of its bytes. GEN faults at a bad root. -/

namespace Sys2Proof.Machine

/-! ## Walking down a legal tree (rules R46, R180) -/

/-- A path that begins with a path to a leaf ends at that leaf: no path leaves a leaf. -/
theorem TreePath.eq_of_prefix {m : NodeMemory} {r i j : Nat} {p q : Bits} (hi : TreePath m r p i)
    (hj : TreePath m r q j) (hleaf : (nodeAt m i).kind = .leaf) (hpq : p <+: q) : j = i := by
  obtain ⟨rest, rfl⟩ := hpq
  obtain ⟨k, hk, hrest⟩ := hj.split
  obtain rfl := hk.unique hi
  exact (hrest.of_leaf hleaf).2

/-- A bit sequence agrees with `f` when its first bit is that of `f` and its other bits agree with what follows. -/
theorem bitAt_cons_agrees {f : Nat → Bool} {q : Bits} (hq : ∀ k < q.length, bitAt q k = f (k + 1)) :
    ∀ k < (f 0 :: q).length, bitAt (f 0 :: q) k = f k
  | 0, _ => rfl
  | k + 1, hk => hq k (Nat.lt_of_succ_lt_succ hk)

/-- Any infinite bit string leads from any entry down to a leaf, since each bit leads to a smaller index. -/
theorem TreeShape.exists_leaf_along {m : NodeMemory} {S n : Nat} (t : TreeShape m S n) {i : Nat} (hi : i < n)
    (f : Nat → Bool) : ∃ q j, TreePath m i q j ∧ j < S ∧ ∀ k < q.length, bitAt q k = f k := by
  induction i using Nat.strong_induction_on generalizing f with
  | _ i ih =>
    by_cases hS : i < S
    · exact ⟨[], i, .here i, hS, fun k hk => absurd hk (Nat.not_lt_zero k)⟩
    · obtain ⟨hk, hl, hr, -⟩ := t.internals i (Nat.not_lt.mp hS) hi
      cases hf : f 0 with
      | false =>
        obtain ⟨q, j, hq, hj, hbits⟩ := ih _ hl (hl.trans hi) (fun k => f (k + 1))
        exact ⟨false :: q, j, .left hk hq, hj, hf ▸ bitAt_cons_agrees hbits⟩
      | true =>
        obtain ⟨q, j, hq, hj, hbits⟩ := ih _ hr (hr.trans hi) (fun k => f (k + 1))
        exact ⟨true :: q, j, .right hk hq, hj, hf ▸ bitAt_cons_agrees hbits⟩

/-! ## The codes GEN makes of a legal tree (rules R182, R183, R186) -/

section
variable {m : NodeMemory} {cnt root : NodeIndex} {valid : Bool} {c : CodeTable}

/-- With two leaves or more there is a tree, its root is its last entry, and that is no leaf (rule R46 (a)). -/
theorem TreeLegal.root_of_two_leaves (h : TreeLegal m cnt valid root) (h2 : 2 ≤ leafCount cnt) :
    valid = true ∧ root.toNat < cnt.toNat ∧ leafCount cnt ≤ root.toNat := by
  rcases h.count with ⟨rfl, -, -⟩ | ⟨hn, -, -, hv, hroot⟩
  · exact absurd h2 (by decide)
  · exact ⟨hv, by omega, by omega⟩

/-- With two leaves or more a path to a leaf is the code of the leaf's symbol. -/
theorem codeOf_generateCodes_leaf (h : TreeLegal m cnt valid root) (hc : generateCodes m cnt valid root = .ok c)
    (h2 : 2 ≤ leafCount cnt) {i : Nat} (hi : i < leafCount cnt) {q : Bits} (hq : TreePath m root.toNat q i) :
    codeOf c (nodeAt m i).sym = q := by
  obtain ⟨c', hc', -, -, hpaths⟩ := generateCodes_legal h
  obtain rfl : c = c' := Except.ok.inj (hc.symm.trans hc')
  exact (hpaths h2).1 i q hq hi

/-- With two leaves or more the code of a leaf's symbol leads to the leaf, since every leaf is under the root. -/
theorem generateCodes_path (h : TreeLegal m cnt valid root) (hc : generateCodes m cnt valid root = .ok c)
    (h2 : 2 ≤ leafCount cnt) {i : Nat} (hi : i < leafCount cnt) :
    TreePath m root.toNat (codeOf c (nodeAt m i).sym) i := by
  obtain ⟨hv, hroot, hle⟩ := h.root_of_two_leaves h2
  obtain ⟨q, hq⟩ := h.under_root hv ((hi.trans_le hle).trans hroot)
  rwa [codeOf_generateCodes_leaf h hc h2 hi hq]

/-- Exactly the leaves' symbols have codes (rule R186 (a)). -/
theorem codeOf_generateCodes_ne_nil_iff (h : TreeLegal m cnt valid root) (hc : generateCodes m cnt valid root = .ok c)
    (x : Byte) : codeOf c x ≠ [] ↔ ∃ i < leafCount cnt, (nodeAt m i).sym = x := by
  obtain ⟨c', hc', hnone, hlone, hpaths⟩ := generateCodes_legal h
  obtain rfl : c = c' := Except.ok.inj (hc.symm.trans hc')
  rcases h.count with ⟨rfl, hv, -⟩ | ⟨-, hS, -⟩
  · simp [hnone hv, leafCount]
  rcases Nat.eq_or_lt_of_le hS with h1 | h2
  · simp [hlone h1.symm, ← h1, codeOf_setCode, eq_comm]
  constructor
  · intro hx
    by_contra hno
    exact hx ((hpaths h2).2 x fun j hj e => hno ⟨j, hj, e⟩)
  · rintro ⟨i, hi, rfl⟩ hnil
    obtain ⟨-, -, hle⟩ := h.root_of_two_leaves h2
    have hpath := generateCodes_path h hc h2 hi
    rw [hnil] at hpath
    have hroot : i = root.toNat := hpath.unique (.here _)
    omega

/-- No code begins another (rule R186 (c)): a lone leaf has the only code, and no path to a leaf goes on to
another. -/
theorem generateCodes_prefixFree (h : TreeLegal m cnt valid root)
    (hc : generateCodes m cnt valid root = .ok c) : PrefixFree c := by
  intro a b ha hb hab hpre
  obtain ⟨i, hi, rfl⟩ := (codeOf_generateCodes_ne_nil_iff h hc a).mp ha
  obtain ⟨j, hj, rfl⟩ := (codeOf_generateCodes_ne_nil_iff h hc b).mp hb
  refine hab (congrArg (fun k => (nodeAt m k).sym) (?_ : i = j))
  by_cases h2 : 2 ≤ leafCount cnt
  · exact ((generateCodes_path h hc h2 hi).eq_of_prefix (generateCodes_path h hc h2 hj) (h.leaves i hi).1 hpre).symm
  · omega

/-- With two leaves or more the codes are complete (rule R186 (e)): every infinite bit string begins with one. -/
theorem generateCodes_complete (h : TreeLegal m cnt valid root) (hc : generateCodes m cnt valid root = .ok c)
    (h2 : 2 ≤ leafCount cnt) (f : Nat → Bool) :
    ∃ x, codeOf c x ≠ [] ∧ ∀ k < (codeOf c x).length, bitAt (codeOf c x) k = f k := by
  obtain ⟨-, hroot, -⟩ := h.root_of_two_leaves h2
  obtain ⟨q, j, hq, hj, hbits⟩ := h.shape.exists_leaf_along hroot f
  refine ⟨(nodeAt m j).sym, (codeOf_generateCodes_ne_nil_iff h hc _).mpr ⟨j, hj, rfl⟩, ?_⟩
  rwa [codeOf_generateCodes_leaf h hc h2 hj hq]

end

/-! ## The command GEN (rule R183) -/

theorem genBody_of_ok {s : State} {c : CodeTable}
    (h : generateCodes s.node s.nodeCnt s.rootValid s.rootIndex = .ok c) : genBody s = .ok { s with code := c } := by
  rw [genBody, h]

theorem genBody_of_error {s : State} {r : Raise}
    (h : generateCodes s.node s.nodeCnt s.rootValid s.rootIndex = .error r) : genBody s = .error r := by
  rw [genBody, h]

/-- GEN stores the codes it makes and changes nothing else. -/
theorem exec_gen_of_ok {s : State} {c : CodeTable}
    (h : generateCodes s.node s.nodeCnt s.rootValid s.rootIndex = .ok c) :
    exec .gen s = .next { s with busy := false, done := true, code := c } :=
  exec_of_ok (i := .gen) (genBody_of_ok h)

/-- Settles O25: GEN's codes are the paths to the leaves, and each bit string follows one such path. -/
theorem genCodesAreCompleteAndPrefixFree : Obligations.GenCodesAreCompleteAndPrefixFree := by
  unfold Obligations.GenCodesAreCompleteAndPrefixFree
  intro s t h hexec
  obtain ⟨c, hc, -⟩ := generateCodes_legal h
  obtain rfl := Host.Outcome.next.inj ((exec_gen_of_ok hc).symm.trans hexec)
  exact ⟨generateCodes_prefixFree h hc, (generateCodes_codesLegal h hc).2, generateCodes_complete h hc⟩

/-- Settles O24: by what GEN makes of no tree, of a lone leaf and of a larger tree. -/
theorem genReadsCodesOffTheTree : Obligations.GenReadsCodesOffTheTree := by
  unfold Obligations.GenReadsCodesOffTheTree
  intro s h
  obtain ⟨c, hc, hnone, hlone, -⟩ := generateCodes_legal h
  refine ⟨c, exec_gen_of_ok hc, (generateCodes_codesLegal h hc).1, fun hv x => ?_,
    fun h1 x => ?_, fun h2 => ⟨codeOf_generateCodes_ne_nil_iff h hc, fun i hi => generateCodes_path h hc h2 hi⟩⟩
  · rw [hnone hv, codeOf_emptyCode]
  · rw [hlone h1, codeOf_setCode, codeOf_emptyCode]

/-! ## The codes COMPRESS makes for an input (rule R248) -/

/-- The symbols of the leaves BUILD makes are the present symbols of FREQ. -/
theorem exists_huffmanForest_leaf_iff (t : FreqTable) (x : Byte) :
    (∃ i < freqCount t, (nodeAt (huffmanForest t).node i).sym = x) ↔ x ∈ presentSymbols t := by
  have hsym {i : Nat} (hi : i < (presentSymbols t).length) :
      (nodeAt (huffmanForest t).node i).sym = (presentSymbols t)[i] := by
    rw [nodeAt_huffmanForest_leaf hi, leafNode]
  rw [List.mem_iff_getElem, ← length_presentSymbols]
  exact ⟨fun ⟨i, hi, hx⟩ => ⟨i, hi, hsym hi ▸ hx⟩, fun ⟨i, hi, hx⟩ => ⟨i, hi, (hsym hi).trans hx⟩⟩

/-- Settles O42: no counter wraps on an input of at most 2^30 bytes, so BUILD makes a legal tree, whose leaves are the
bytes of the input. -/
theorem everyInputByteGetsACode : Obligations.EveryInputByteGetsACode := by
  unfold Obligations.EveryInputByteGetsACode
  intro x hlen
  have hx : x.length < 2 ^ 32 := hlen.trans_lt (by decide)
  have htree := huffmanForest_tree (freqSum_countBytes hx ▸ hx)
  obtain ⟨c, hc, -⟩ := generateCodes_legal htree
  refine ⟨c, congrArg Except.toOption hc, generateCodes_prefixFree htree hc, (generateCodes_codesLegal htree hc).1,
    fun b => ?_⟩
  obtain ⟨-, hleaves, -⟩ := huffmanForest_root (countBytes x)
  rw [codeOf_generateCodes_ne_nil_iff htree hc, hleaves, exists_huffmanForest_leaf_iff, mem_presentSymbols_countBytes hx]

/-! ## GEN's faults at the root (rules R183, R261) -/

theorem walk_of_bad_children {m : NodeMemory} {i : Nat} (hk : (nodeAt m i).kind = .internal)
    (hbad : i ≤ (nodeAt m i).left.toNat ∨ i ≤ (nodeAt m i).right.toNat ∨ (nodeAt m i).left = (nodeAt m i).right)
    (fuel : Nat) (p : Bits) (c : CodeTable) : walk m (fuel + 1) i p c = raiseLate .invalidTreeState i := by
  simp only [walk, hk, if_pos hbad]

theorem generateCodes_of_root_beyond {cnt root : NodeIndex} (h : cnt.toNat ≤ root.toNat) (m : NodeMemory) :
    generateCodes m cnt true root = raiseLate .invalidTreeState root.toNat := by
  rw [generateCodes, if_neg (by decide), if_pos h]

theorem generateCodes_of_internal_root {m : NodeMemory} {cnt root : NodeIndex} (h : root.toNat < cnt.toNat)
    (hk : (nodeAt m root.toNat).kind = .internal) :
    generateCodes m cnt true root = walk m (root.toNat + 1) root.toNat [] emptyCode := by
  simp only [generateCodes, Bool.true_eq_false, if_false, if_neg (Nat.not_le.mpr h), hk]

/-- Settles O26: the index check comes before the walk, and the walk's first check is of the root's children. -/
theorem genFaultsOnABadRoot : Obligations.GenFaultsOnABadRoot := by
  unfold Obligations.GenFaultsOnABadRoot
  rintro s _ _ hv rfl rfl
  refine ⟨fun hbeyond => faultsWith_iff.mpr (genBody_of_error ?_),
    fun hin hk hbad => faultsWith_iff.mpr (genBody_of_error ?_)⟩
  · rw [hv, generateCodes_of_root_beyond hbeyond, raiseLate]
  · rw [hv, generateCodes_of_internal_root hin hk, walk_of_bad_children hk hbad, raiseLate]

end Sys2Proof.Machine

/-! PROOF. The bit packer: what a packed byte is, the streaming packer, pack and unpack as inverses, the commands
PACK and UNPACK, and the faults of UNPACK, DEC and SER. -/

namespace Sys2Proof.Machine

/-! ## Packed bytes (rule R131) -/

/-- A word written most significant bit first is the weighted sum of its bits. -/
theorem toNat_msbFirst (w : Nat) (f : Nat → Bool) :
    (msbFirst w f).toNat = ((List.range w).map (fun k => (f k).toNat * 2 ^ (w - 1 - k))).sum := by
  induction w with
  | zero => rfl
  | succ w ih =>
    have hdouble : ∀ k ∈ List.range w, (f k).toNat * 2 ^ (w - k) = (f k).toNat * 2 ^ (w - 1 - k) * 2 := by
      intro k hk
      have hk : w - k = w - 1 - k + 1 := by have := List.mem_range.mp hk; omega
      rw [hk, pow_succ, mul_assoc]
    rw [msbFirst, BitVec.toNat_concat, ih, List.range_succ, List.map_append, List.sum_append, Nat.add_sub_cancel,
      List.map_congr_left hdouble, List.sum_map_mul_right]
    simp

/-- A byte is byte `j` of a packed sequence when each of its bits, most significant first, is the element at its
place. -/
theorem eq_packByte {x : Byte} {q : Bits} {j : Nat} (h : ∀ k < 8, x.getLsbD (7 - k) = bitAt q (8 * j + k)) :
    x = packByte q j := by
  apply BitVec.eq_of_getLsbD_eq
  intro i hi
  have hbit := h (7 - i) (by omega)
  rwa [← getLsbD_packByte q j (7 - i) (by omega), Nat.sub_sub_self (by omega)] at hbit

theorem bitAt_append_left {q r : Bits} {i : Nat} (h : i < q.length) : bitAt (q ++ r) i = bitAt q i := by
  rw [bitAt, List.getD_append _ _ _ _ h, bitAt]

/-- Bits that arrive later change no whole byte. -/
theorem packByte_append {q : Bits} {j : Nat} (h : 8 * j + 8 ≤ q.length) (r : Bits) :
    packByte (q ++ r) j = packByte q j :=
  eq_packByte fun k hk => by rw [getLsbD_packByte _ _ _ hk, bitAt_append_left (by omega)]

/-! ## The streaming packer (rule R141) -/

/-- The first `n` bytes of a packed sequence. -/
def firstBytes (q : Bits) (n : Nat) : List Byte := (List.range n).map (packByte q)

theorem take_packBits {q : Bits} {n : Nat} (h : n ≤ ceil8 q.length) : (packBits q).take n = firstBytes q n := by
  rw [packBits, ← List.map_take, List.take_range, min_eq_left h, firstBytes]

theorem firstBytes_succ (q : Bits) (n : Nat) : firstBytes q (n + 1) = firstBytes q n ++ [packByte q n] := by
  simp [firstBytes, List.range_succ]

theorem firstBytes_append {q : Bits} {n : Nat} (h : 8 * n ≤ q.length) (r : Bits) :
    firstBytes (q ++ r) n = firstBytes q n := by
  apply List.map_congr_left
  intro j hj
  have hj := List.mem_range.mp hj
  exact packByte_append (by omega) r

/-- The packer after the bits `q`: it has emitted the whole bytes, it counts the bits of the partial one, and it
holds these with the latest bit lowest. -/
structure Packer.Holds (p : Packer) (q : Bits) : Prop where
  emitted : p.emitted = firstBytes q (q.length / 8)
  count : p.count.toNat = q.length % 8
  held : ∀ i < q.length % 8, p.held.getLsbD i = bitAt q (q.length - 1 - i)

theorem Packer.holds_start : Packer.start.Holds [] := ⟨rfl, rfl, fun _ h => absurd h (Nat.not_lt_zero _)⟩

section
variable {p : Packer} {q : Bits}

/-- With the next bit put below them, the held bits are still the latest ones. -/
theorem Packer.Holds.getLsbD_concat (h : p.Holds q) (b : Bool) {i : Nat} (hi : i ≤ q.length % 8) :
    (p.held.concat b).getLsbD i = bitAt (q ++ [b]) (q.length - i) := by
  cases i with
  | zero => simp [bitAt]
  | succ i =>
    have hle := Nat.mod_le q.length 8
    rw [BitVec.getLsbD_concat_succ, h.held i hi, bitAt_append_left (by omega), Nat.sub_sub, Nat.add_comm 1]

/-- The eighth bit completes the byte it ends. -/
theorem Packer.Holds.concat_eq_packByte (h : p.Holds q) (b : Bool) (h7 : q.length % 8 = 7) :
    p.held.concat b = packByte (q ++ [b]) (q.length / 8) := by
  apply eq_packByte
  intro k hk
  rw [h.getLsbD_concat b (by omega)]
  congr 1
  omega

theorem Packer.Holds.push (h : p.Holds q) (b : Bool) : (p.push b).Holds (q ++ [b]) := by
  have hlen : (q ++ [b]).length = q.length + 1 := List.length_append
  have hkept : firstBytes (q ++ [b]) (q.length / 8) = firstBytes q (q.length / 8) := firstBytes_append (by omega) _
  have hcount : (p.push b).count.toNat = (q.length + 1) % 8 := by
    rw [Packer.push_count, BitVec.toNat_add, h.count]
    simp
  rcases p.push_cases b with ⟨h7, hemitted, -⟩ | ⟨h7, hemitted, hheld⟩
  · have h7 : q.length % 8 = 7 := h.count ▸ congrArg BitVec.toNat h7
    have hdiv : (q.length + 1) / 8 = q.length / 8 + 1 := by omega
    refine ⟨?_, hlen ▸ hcount, fun i hi => by omega⟩
    rw [hemitted, h.emitted, h.concat_eq_packByte b h7, hlen, hdiv, firstBytes_succ, hkept]
  · have h7 : q.length % 8 ≠ 7 := h.count ▸ BitVec.toNat_ne.mp h7
    have hdiv : (q.length + 1) / 8 = q.length / 8 := by omega
    refine ⟨?_, hlen ▸ hcount, fun i hi => ?_⟩
    · rw [hemitted, h.emitted, hlen, hdiv, hkept]
    · have hi7 : i < 7 := by omega
      rw [hheld, BitVec.getLsbD_setWidth, h.getLsbD_concat b (by omega), hlen, Nat.add_sub_cancel]
      simp [hi7]

/-- The partial byte, shifted left and filled with zeros, is the last byte of the packed sequence. -/
theorem Packer.Holds.shift_eq_packByte (h : p.Holds q) :
    p.held.setWidth 8 <<< (8 - p.count.toNat) = packByte q (q.length / 8) := by
  apply eq_packByte
  intro k hk
  rw [BitVec.getLsbD_shiftLeft, h.count]
  by_cases hin : k < q.length % 8
  · have hbit : 7 - k - (8 - q.length % 8) = q.length % 8 - 1 - k := by omega
    have hplace : q.length - 1 - (q.length % 8 - 1 - k) = 8 * (q.length / 8) + k := by omega
    rw [BitVec.getLsbD_setWidth, hbit, h.held _ (by omega), hplace]
    have hrange : 7 - k < 8 ∧ ¬ 7 - k < 8 - q.length % 8 ∧ q.length % 8 - 1 - k < 8 := by omega
    simp [hrange]
  · have hzero : 7 - k < 8 - q.length % 8 := by omega
    rw [bitAt_ge (by omega)]
    simp [hzero]

theorem Packer.Holds.finish_emitted (h : p.Holds q) : p.finish.emitted = packBits q := by
  have hcount := h.count
  rw [Packer.finish]
  split
  · rename_i h0
    have hceil : ceil8 q.length = q.length / 8 := by
      rw [h0, BitVec.toNat_zero] at hcount
      unfold ceil8
      omega
    rw [h.emitted, packBits, hceil, firstBytes]
  · rename_i h0
    have hceil : ceil8 q.length = q.length / 8 + 1 := by
      have hne : q.length % 8 ≠ 0 := hcount ▸ BitVec.toNat_ne.mp h0
      unfold ceil8
      omega
    rw [h.emitted, h.shift_eq_packByte, ← firstBytes_succ, packBits, hceil, firstBytes]

end

theorem holds_foldl_push (q : Bits) : (q.foldl Packer.push Packer.start).Holds q := by
  induction q using List.reverseRecOn with
  | nil => exact Packer.holds_start
  | append_singleton q b ih => exact List.foldl_concat .. ▸ ih.push b

/-- Settles O27: a packed byte is its bits weighted, and the streaming packer holds the bits it was fed. -/
theorem packIsTheWeightedSum : Obligations.PackIsTheWeightedSum := by
  unfold Obligations.PackIsTheWeightedSum
  intro q
  have h := holds_foldl_push q
  refine ⟨length_packBits q, fun j hj => ?_, ?_, h.count, h.finish_emitted, Packer.finish_count _⟩
  · rw [packBits_getD q hj, packByte, toNat_msbFirst]
  · have hle : q.length / 8 ≤ ceil8 q.length := by unfold ceil8; omega
    rw [h.emitted, take_packBits hle]

/-! ## Packing and unpacking (rule R135) -/

theorem unpackBit_of_lt_eight (y : List Byte) (j : Nat) {k : Nat} (h : k < 8) :
    unpackBit y (8 * j + k) = (y.getD j 0#8).getLsbD (7 - k) := by
  have hdiv : (8 * j + k) / 8 = j := by omega
  have hmod : (8 * j + k) % 8 = k := by omega
  rw [unpackBit, hdiv, hmod]

theorem bitAt_unpackBits (y : List Byte) (b i : Nat) :
    bitAt (unpackBits y b) i = (decide (i < b) && unpackBit y i) := by
  by_cases h : i < b
  · rw [bitAt_lt (by simpa using h), unpackBits_getElem]
    simp [h]
  · rw [bitAt_ge (by simpa using h)]
    simp [h]

/-- Strings of bytes are equal when they are equally long and their bits agree. -/
theorem bytes_ext_unpackBit {y z : List Byte} (hlen : y.length = z.length)
    (h : ∀ i < 8 * z.length, unpackBit y i = unpackBit z i) : y = z := by
  apply List.ext_getElem hlen
  intro j hy hz
  apply BitVec.eq_of_getLsbD_eq
  intro i hi
  have hbit := h (8 * j + (7 - i)) (by omega)
  rw [unpackBit_of_lt_eight _ _ (by omega), unpackBit_of_lt_eight _ _ (by omega), Nat.sub_sub_self (by omega)] at hbit
  simpa [List.getD, hy, hz] using hbit

/-- Beyond its end a sequence reads as the zeros it is packed with. -/
theorem unpackBit_packBits_eq_bitAt {q : Bits} {i : Nat} (h : i < 8 * ceil8 q.length) :
    unpackBit (packBits q) i = bitAt q i := by
  rw [unpackBit, packBits_getD q (by omega), getLsbD_packByte q _ _ (by omega), Nat.div_add_mod]

theorem unpackBits_packBits (q : Bits) : unpackBits (packBits q) q.length = q := by
  apply List.ext_getElem (length_unpackBits _ _)
  intro i hi hq
  rw [unpackBits_getElem, unpackBit_packBits q hq]

/-- Packing an unpacked string gives it back when it has the length and no bit set beyond the sequence. -/
theorem packBits_unpackBits_iff (y : List Byte) (b : Nat) :
    packBits (unpackBits y b) = y ↔
      y.length = ceil8 b ∧ ∀ i, b ≤ i → i < 8 * ceil8 b → unpackBit y i = false := by
  have hlen : (packBits (unpackBits y b)).length = ceil8 b := by simp
  have hbit {i : Nat} (hi : i < 8 * ceil8 b) :
      unpackBit (packBits (unpackBits y b)) i = (decide (i < b) && unpackBit y i) := by
    rw [unpackBit_packBits_eq_bitAt (by simpa using hi), bitAt_unpackBits]
  constructor
  · intro h
    rw [h] at hlen hbit
    refine ⟨hlen, fun i hb hi => ?_⟩
    rw [hbit hi, decide_eq_false (Nat.not_lt.mpr hb), Bool.false_and]
  · rintro ⟨hy, hpad⟩
    refine bytes_ext_unpackBit (hlen.trans hy.symm) fun i hi => ?_
    rw [hy] at hi
    rw [hbit hi]
    by_cases hb : i < b
    · simp [hb]
    · simp [hb, hpad i (Nat.not_lt.mp hb) hi]

/-- Settles O28: both sides are compared bit by bit, the padding bits included. -/
theorem packAndUnpackAreInverse : Obligations.PackAndUnpackAreInverse := by
  unfold Obligations.PackAndUnpackAreInverse
  exact ⟨unpackBits_packBits, packBits_unpackBits_iff⟩

/-! ## The commands PACK and UNPACK (rules R136 to R140) -/

/-- Input byte `i` as the commands read it. -/
theorem getD_inputBytes {s : State} {i : Nat} (h : i < s.inLen.toNat) :
    (inputBytes s).getD i 0#8 = Memory.read s.ibuf i := by
  rw [inputBytes, Memory.getD_readBytes s.ibuf 0 (inputLength s) i h, Nat.zero_add]

/-- The bit sequence of the input in bit-per-byte form (rule R137). -/
def inputBits (s : State) : Bits := (inputBytes s).map byteBit

@[simp] theorem length_inputBits (s : State) : (inputBits s).length = s.inLen.toNat := by
  rw [inputBits, List.length_map, length_inputBytes]

theorem bitAt_inputBits (s : State) (i : Nat) :
    bitAt (inputBits s) i = (decide (i < s.inLen.toNat) && (Memory.read s.ibuf i).getLsbD 0) := by
  by_cases h : i < s.inLen.toNat
  · have hi : i < (inputBytes s).length := by rwa [length_inputBytes]
    rw [bitAt_lt (by simpa using h), ← getD_inputBytes h, decide_eq_true h, Bool.true_and]
    simp [inputBits, byteBit, hi]
  · rw [bitAt_ge (by simpa using h), decide_eq_false h, Bool.false_and]

/-- PACK, its check passed, stores the packed bits of the input (rule R136). -/
theorem exec_pack_of_fits {s : State} (h : s.inLen.toNat ≤ s.bufCap) :
    exec .pack s = .next { s with
      busy := false, done := true, obuf := Memory.writeBytes s.obuf 0 (packBits (inputBits s)),
      outLen := BitVec.ofNat 32 (ceil8 s.inLen.toNat), bitCnt := s.inLen } := by
  have hbody : packBody s = .ok (putBitCount s.inLen.toNat (putOutput (packBits (inputBits s)) s)) := checkIn_pass h _
  rw [exec_of_ok (i := .pack) hbody, putBitCount, putOutput, length_packBits, length_inputBits, BitVec.ofNat_toNat,
    BitVec.setWidth_eq]
  rfl

/-- UNPACK, its checks passed, stores a byte for each bit of its input (rule R139). -/
theorem exec_unpack_of_fits {s : State} (h1 : s.inLen.toNat ≤ s.bufCap) (h2 : s.bitCnt.msb = false)
    (h3 : ceil8 s.bitCnt.toNat ≤ s.inLen.toNat) (h4 : s.bitCnt.toNat ≤ s.bufCap) :
    exec .unpack s = .next { s with
      busy := false, done := true,
      obuf := Memory.writeBytes s.obuf 0 ((unpackBits (inputBytes s) s.bitCnt.toNat).map bitByte),
      outLen := s.bitCnt } := by
  have hbody : unpackBody s = .ok (putOutput ((unpackBits (inputBytes s) s.bitCnt.toNat).map bitByte) s) := by
    rw [unpackBody, withPayload_pass h1 h2 h3, if_neg (Nat.not_lt.mpr h4), unpackBits_inputPart h3]
  rw [exec_of_ok (i := .unpack) hbody, putOutput, List.length_map, length_unpackBits, BitVec.ofNat_toNat,
    BitVec.setWidth_eq]
  rfl

theorem exec_swap_of_fits {s : State} (h : s.inLen.toNat ≤ s.bufCap) :
    exec .swap s = .next (complete (swapBuffers s)) :=
  exec_of_ok (i := .swap) (checkIn_pass h _)

/-- BITCNT is not negative when bit 31 is clear (rule R34). -/
theorem bitCnt_msb_eq_false {s : State} (h : s.bitCnt.toNat < 2 ^ 31) : s.bitCnt.msb = false :=
  BitVec.msb_eq_false_iff_two_mul_lt.mpr (by omega)

/-- Settles O29: OBUF holds the packed bits of the input, read back bit by bit. -/
theorem packCommandPacksBitZero : Obligations.PackCommandPacksBitZero := by
  unfold Obligations.PackCommandPacksBitZero
  intro s hwf hfits
  have hlen : (packBits (inputBits s)).length = ceil8 s.inLen.toNat := by simp
  refine ⟨_, exec_pack_of_fits hfits, fun j k hj hk => ?_, fun a ha => ?_⟩
  · rw [Memory.read_writeBytes hwf, if_pos (by omega), Nat.sub_zero, packBits_getD _ (by simpa using hj),
      getLsbD_packByte _ _ _ hk, bitAt_inputBits]
  · exact Memory.read_writeBytes_outside hwf (.inr (by omega))

/-- Settles O30: OBUF holds a byte for each bit, and each bit is read from its input byte. -/
theorem unpackCommandSpreadsTheBits : Obligations.UnpackCommandSpreadsTheBits := by
  unfold Obligations.UnpackCommandSpreadsTheBits
  intro s hwf hfits hbits hpayload hout
  have hlen : ((unpackBits (inputBytes s) s.bitCnt.toNat).map bitByte).length = s.bitCnt.toNat := by simp
  refine ⟨_, exec_unpack_of_fits hfits (bitCnt_msb_eq_false hbits) hpayload hout, fun i hi => ?_, fun a ha => ?_⟩
  · have hin : i / 8 < s.inLen.toNat := by unfold ceil8 at hpayload; omega
    rw [Memory.read_writeBytes hwf, if_pos (by omega), Nat.sub_zero, ← getD_inputBytes hin]
    simp [unpackBits, hi, unpackBit, bitByte]
  · exact Memory.read_writeBytes_outside hwf (.inr (by omega))

/-- Bit 0 of a byte, as a byte. -/
theorem bitByte_byteBit (x : Byte) : bitByte (byteBit x) = x &&& 0x01#8 := by
  rw [byteBit, BitVec.and_one_eq_setWidth_ofBool_getLsbD]
  cases x.getLsbD 0 <;> rfl

/-- What PACK leaves when it packs into `m`. -/
def afterPack (s : State) (m : Memory) : State :=
  { s with
    busy := false, done := true, obuf := m, outLen := BitVec.ofNat 32 (ceil8 s.inLen.toNat), bitCnt := s.inLen }

/-- Settles O31: what PACK stores, as O29 says, UNPACK reads back from IBUF, as O30 says. -/
theorem packSwapUnpackRoundTrip : Obligations.PackSwapUnpackRoundTrip := by
  unfold Obligations.PackSwapUnpackRoundTrip
  intro s hcap ⟨hwfIn, hwfOut, _, _⟩ hfits
  have hmax := hcap.le_window
  have hbits : s.inLen.toNat < 2 ^ 31 := by omega
  have hceil := (ceil8_le_self s.inLen.toNat).trans hfits
  have houtLen : (BitVec.ofNat 32 (ceil8 s.inLen.toNat)).toNat = ceil8 s.inLen.toNat := hcap.toNat_ofNat hceil
  obtain ⟨m, hpack, hpacked, -⟩ := packCommandPacksBitZero s hwfOut hfits
  have hswap : exec .swap (afterPack s m) = _ := exec_swap_of_fits hfits
  obtain ⟨m', hunpack, hbytes, -⟩ := unpackCommandSpreadsTheBits (complete (swapBuffers (afterPack s m))) hwfIn
    (houtLen.trans_le hceil) hbits houtLen.ge hfits
  refine ⟨_, _, _, hpack, hswap, hunpack, rfl, rfl, rfl, rfl, houtLen, rfl, houtLen, rfl, fun i hi => ?_⟩
  have hbyte : i / 8 < ceil8 s.inLen.toNat := by unfold ceil8; omega
  have hbit := hpacked (i / 8) (i % 8) hbyte (by omega)
  rw [Nat.div_add_mod, decide_eq_true hi, Bool.true_and] at hbit
  rw [← bitByte_byteBit, byteBit, ← hbit]
  exact hbytes i hi

/-! ## The faults of UNPACK, DEC and SER (rules R139, R203, R222, R264, R265) -/

section
variable {s : State} (hin : s.inLen.toNat ≤ s.bufCap) (rest : Nat → List Byte → Body)
include hin

theorem withPayload_of_negative (h : s.bitCnt.msb = true) :
    withPayload s rest = .error ⟨.invalidBitCount, s.bitCnt, .early⟩ := by
  rw [withPayload, checkIn_pass hin, withBitCount, if_pos h, raiseEarly, BitVec.ofNat_toNat, BitVec.setWidth_eq]

theorem withPayload_of_short (h : s.bitCnt.msb = false) (hshort : s.inLen.toNat < ceil8 s.bitCnt.toNat) :
    withPayload s rest = .error ⟨.truncatedInput, 0#32, .early⟩ := by
  rw [withPayload, checkIn_pass hin, withBitCount, h, if_neg (by decide),
    if_pos (show ceil8 s.bitCnt.toNat > inputLength s from hshort), raiseEarly]

end

/-- UNPACK, DEC and SER begin with the checks of the packed payload: they raise what these raise. -/
theorem bodyOf_of_payload_error {i : Instr} {s : State} {r : Raise} (hi : i ∈ [Instr.unpack, .dec, .ser])
    (h : ∀ rest, withPayload s rest = .error r) : bodyOf i s = .error r := by
  simp only [List.mem_cons, List.not_mem_nil, or_false] at hi
  rcases hi with rfl | rfl | rfl
  · rw [bodyOf, unpackBody, h]
  · rw [bodyOf, decBody, h]
  · rw [bodyOf, serBody, h]

/-- An early fault of a command that writes OBUF: OUT_LEN becomes 0 (rule R274). -/
theorem exec_of_early_error {i : Instr} {s : State} {c : Cause} {info : Word} (hi : .outLen ∈ writeSet i)
    (h : bodyOf i s = .error ⟨c, info, .early⟩) :
    exec i s = .next { s with
      busy := false, done := false, faulted := true, faultCode := some c, faultInfo := info, outLen := 0#32 } := by
  rw [exec_of_error h, faultEntry_early, if_pos hi]

/-- Settles O14: the checks of the packed payload, in their order. -/
theorem payloadChecksFault : Obligations.PayloadChecksFault := by
  unfold Obligations.PayloadChecksFault
  intro i s hi hin
  have hwrites : ∀ i ∈ [Instr.unpack, .dec, .ser], .outLen ∈ writeSet i := by decide
  refine ⟨fun hneg => ?_, fun hbits hshort => ?_⟩ <;>
    refine exec_of_early_error (hwrites i hi) (bodyOf_of_payload_error hi fun rest => ?_)
  · exact withPayload_of_negative hin rest (BitVec.msb_eq_true_iff_two_mul_ge.mpr (by omega))
  · exact withPayload_of_short hin rest (bitCnt_msb_eq_false hbits) hshort

/-- Settles O15: with the payload checks passed, the capacity check of each rule comes before any write. -/
theorem outputCapacityFaults : Obligations.OutputCapacityFaults := by
  unfold Obligations.OutputCapacityFaults
  intro s hin hbits hpayload
  have hpass := withPayload_pass hin (bitCnt_msb_eq_false hbits) hpayload
  refine ⟨fun hbig => exec_of_early_error (by decide) ?_, fun hbig => exec_of_early_error (by decide) ?_⟩
  · rw [bodyOf, unpackBody, hpass, if_pos hbig, raiseEarly, BitVec.ofNat_toNat, BitVec.setWidth_eq]
  · rw [bodyOf, serBody, hpass, if_pos hbig, raiseEarly]

end Sys2Proof.Machine

/-! PROOF. The encoder: what ENC stores when it completes, and its three faults. -/

namespace Sys2Proof.Machine

/-! ## ENC completes (rules R190, R192) -/

/-- ENC, its checks passed, stores the packed stream with its two lengths and changes nothing else. -/
theorem exec_enc_of_fits {s : State} (hin : s.inLen.toNat ≤ s.bufCap)
    (hcodes : ∀ x ∈ inputBytes s, codeOf s.code x ≠ [])
    (hbits : (encodedStream s.code (inputBytes s)).length ≤ Config.bitCntMax)
    (hout : ceil8 (encodedStream s.code (inputBytes s)).length ≤ s.bufCap) :
    exec .enc s = .next { s with
      busy := false
      done := true
      obuf := Memory.writeBytes s.obuf 0 (packBits (encodedStream s.code (inputBytes s)))
      outLen := BitVec.ofNat 32 (ceil8 (encodedStream s.code (inputBytes s)).length)
      bitCnt := BitVec.ofNat 32 (encodedStream s.code (inputBytes s)).length } := by
  rw [exec_of_ok (i := .enc) (encBody_of_ok hin (encodeFrom_fits hcodes hbits hout)), putBitCount, putOutput,
    length_packBits]
  rfl

/-- Settles O32: OBUF holds the packed stream, read back bit by bit. -/
theorem encPacksTheCodes : Obligations.EncPacksTheCodes := by
  unfold Obligations.EncPacksTheCodes
  rintro s _ hwf hin hcodes rfl hbits hout
  refine ⟨_, exec_enc_of_fits hin hcodes hbits hout, fun j k hj hk => ?_, fun a ha => ?_⟩
  · rw [Memory.read_writeBytes hwf, if_pos (by simpa using hj), Nat.sub_zero, packBits_getD _ hj,
      getLsbD_packByte _ _ _ hk]
  · exact Memory.read_writeBytes_outside hwf (.inr (by simpa using ha))

/-! ## ENC's faults (rules R192, R263, R267, R269) -/

/-- With a beginning of the input coded and fitting, ENC raises what its loop raises at the next byte. -/
theorem enc_faultsWith_of_next {s : State} {p rest : List Byte} {x : Byte} {k : Cause}
    (hin : s.inLen.toNat ≤ s.bufCap) (hinput : inputBytes s = p ++ x :: rest)
    (hcodes : ∀ y ∈ p, codeOf s.code y ≠ []) (hbits : (encodedStream s.code p).length ≤ Config.bitCntMax)
    (hout : ceil8 (encodedStream s.code p).length ≤ s.bufCap)
    (hnext : encodeFrom s.code s.bufCap p.length (x :: rest) (encodedStream s.code p)
      (encodedStream s.code p).length = raiseLate k p.length) :
    FaultsWith .enc s k p.length .late := by
  refine faultsWith_iff.mpr (encBody_of_error hin ?_)
  rw [hinput, encodeFrom_append (b := 0) (e := []) rfl hcodes hbits hout, List.nil_append, Nat.zero_add, Nat.zero_add,
    hnext, raiseLate]

theorem length_encodedStream_concat (c : CodeTable) (p : List Byte) (x : Byte) :
    (encodedStream c (p ++ [x])).length = (encodedStream c p).length + (codeOf c x).length := by
  simp

/-- Settles O33: the loop passes over the beginning and makes the three checks, in their order, at the next byte. -/
theorem encFaultsAtTheFirstBadByte : Obligations.EncFaultsAtTheFirstBadByte := by
  unfold Obligations.EncFaultsAtTheFirstBadByte
  intro s p x rest hin hinput hcodes hbits hout
  rw [length_encodedStream_concat]
  have hfault {k : Cause} := enc_faultsWith_of_next (k := k) hin hinput hcodes hbits hout
  refine ⟨fun hnone => hfault ?_, fun hcode hlong => hfault ?_, fun hcode hshort hbig => hfault ?_⟩
  · rw [encodeFrom, if_pos hnone]
  · rw [encodeFrom, if_neg hcode, if_pos hlong]
  · rw [encodeFrom, if_neg hcode, if_neg (Nat.not_lt.mpr hshort), if_pos hbig]

end Sys2Proof.Machine

/-! PROOF. The decoder: the trie walk simulates the accumulator, DEC emits the shortest-match reading of its stream or
faults in its loop, and ENC, SWAP, DEC gives the input back when no code begins another. -/

namespace Sys2Proof.Machine

/-! ## The trie walk (rule R205) -/

/-- The nodes of the trie are closed under beginnings. -/
theorem isTrieNode_of_prefix {c : CodeTable} {a b : Bits} (hab : a <+: b) (h : isTrieNode c b = true) :
    isTrieNode c a = true := by
  obtain ⟨s, hs, hb⟩ := (isTrieNode_iff c b).mp h
  exact (isTrieNode_iff c a).mpr ⟨s, hs, hab.trans hb⟩

/-- Where the walker stands after the bits `a`: on the root, on the node `a`, or dead. The root is there also when no
code is present. -/
def walkerAt (c : CodeTable) (a : Bits) : TrieState := if a = [] ∨ isTrieNode c a = true then .at a else .dead

@[simp] theorem walkerAt_nil (c : CodeTable) : walkerAt c [] = .at [] := if_pos (.inl rfl)

/-- The walker moves as the accumulator grows: it dies with the first bit that leaves the trie and stays dead. -/
theorem trieEdge_walkerAt (c : CodeTable) (a : Bits) (b : Bool) :
    trieEdge c (walkerAt c a) b = walkerAt c (a ++ [b]) := by
  by_cases h : a = [] ∨ isTrieNode c a = true
  · rw [walkerAt, if_pos h]
    simp [trieEdge, walkerAt]
  · have hdead : isTrieNode c (a ++ [b]) ≠ true := fun hn =>
      h (.inr (isTrieNode_of_prefix (List.prefix_append a [b]) hn))
    rw [walkerAt, if_neg h, walkerAt, if_neg (by simpa using hdead), trieEdge]

/-- The walker's mark is the accumulator's reverse lookup: off the trie no code is found. -/
theorem trieMark_walkerAt (c : CodeTable) (a : Bits) : trieMark c (walkerAt c a) = rev c a := by
  by_cases h : a = [] ∨ isTrieNode c a = true
  · rw [walkerAt, if_pos h, trieMark]
  · rw [walkerAt, if_neg h, trieMark]
    cases hr : rev c a with
    | none => rfl
    | some s => exact absurd (.inr (isTrieNode_of_rev hr)) h

/-- The simulation: a walker that stands where the accumulator puts it, and that began with the accumulator's first
bit, ends as the accumulator does. -/
theorem trieDecodeFrom_walkerAt (c : CodeTable) (cap start : Nat) (q acc : Bits) (out : List Byte) :
    trieDecodeFrom c cap (start + acc.length) start q (walkerAt c acc) out =
      decodeFrom c cap (start + acc.length) q acc out := by
  induction q generalizing start acc out with
  | nil => simp [trieDecodeFrom, decodeFrom]
  | cons b q ih =>
    rw [trieDecodeFrom, decodeFrom, trieEdge_walkerAt, trieMark_walkerAt]
    cases rev c (acc ++ [b]) with
    | none => simpa [Nat.add_assoc] using ih start (acc ++ [b]) out
    | some s =>
      have hnext := ih (start + acc.length + 1) [] (out ++ [s])
      rw [walkerAt_nil, List.length_nil, Nat.add_zero] at hnext
      simp only [hnext]

/-- Settles O36: both loops start at the root with nothing accumulated. -/
theorem trieWalkDecodesAlike : Obligations.TrieWalkDecodesAlike := by
  unfold Obligations.TrieWalkDecodesAlike
  intro c cap q
  simpa using trieDecodeFrom_walkerAt c cap 0 q [] []

/-! ## DEC and the shortest-match reading (rules R200 to R203, R206) -/

/-- The decoder's loop from its start. -/
theorem decodeFrom_zero {c : CodeTable} (d : CodesDistinct c) {q r : Bits} {x : List Byte}
    (m : ShortestMatches c q x r) (cap : Nat) :
    decodeFrom c cap 0 q [] [] =
      if x.length ≤ cap then
        (if r = [] then .ok x else raiseLate .unmatchedBitSequence (q.length - r.length))
      else raiseLate .capacityExceeded ((encodedStream c (x.take (cap + 1))).length - 1) := by
  simpa using decodeFrom_eq (out := []) d (noMatch_nil c) (le_refl 0) (Nat.zero_le cap) m

/-- Settles O34: nothing is left over and the bytes fit, so the loop answers them. -/
theorem decEmitsTheShortestMatches : Obligations.DecEmitsTheShortestMatches := by
  unfold Obligations.DecEmitsTheShortestMatches
  intro s x hwf hdistinct hin hbits hpayload hread hfits
  have hloop := decodeFrom_zero hdistinct hread s.bufCap
  rw [if_pos hfits, if_pos rfl] at hloop
  exact ⟨_, exec_of_ok (i := .dec) (decBody_of_ok hin (bitCnt_msb_eq_false hbits) hpayload hloop),
    Memory.readBytes_writeBytes hwf 0 x, fun a ha => Memory.read_writeBytes_outside hwf (.inr (by omega))⟩

/-- Settles O35: a full OBUF ends the loop before the bits left over are found. -/
theorem decFaultsInItsLoop : Obligations.DecFaultsInItsLoop := by
  unfold Obligations.DecFaultsInItsLoop
  intro s x r hdistinct hin hbits hpayload hread
  have hloop := decodeFrom_zero hdistinct hread s.bufCap
  rw [length_unpackBits] at hloop
  have hfault {k : Cause} {info : Nat}
      (h : decodeFrom s.code s.bufCap 0 (unpackBits (inputBytes s) s.bitCnt.toNat) [] [] = raiseLate k info) :
      FaultsWith .dec s k info .late :=
    faultsWith_iff.mpr (decBody_of_error hin (bitCnt_msb_eq_false hbits) hpayload h)
  refine ⟨fun hfits hrest => hfault ?_, fun hbig => hfault ?_⟩
  · rw [hloop, if_pos hfits, if_neg hrest]
  · rw [hloop, if_neg (Nat.not_le.mpr hbig)]

/-! ## ENC, SWAP, DEC (rule R207) -/

theorem codesDistinct_of_prefixFree {c : CodeTable} (h : PrefixFree c) : CodesDistinct c := by
  intro a b ha hab
  by_contra hne
  exact h a b ha (hab ▸ ha) hne (hab ▸ List.prefix_rfl)

/-- Where no code begins another, the shortest-match reading of an encoded stream is the string encoded. -/
theorem shortestMatches_encodedStream {c : CodeTable} (hfree : PrefixFree c) {x : List Byte}
    (hcodes : ∀ y ∈ x, codeOf c y ≠ []) : ShortestMatches c (encodedStream c x) x [] := by
  induction x with
  | nil => exact .stop (noMatch_nil c)
  | cons y x ih =>
    have hy := hcodes y (by simp)
    refine .emit hy (fun a u ha hne hu => ?_) (ih fun z hz => hcodes z (by simp [hz]))
    obtain rfl | huy := eq_or_ne u y
    · exact hu.symm
    · exact absurd (hu ▸ ha) (hfree u y (hu ▸ hne) hy huy)

/-- A completed ENC leaves a stream whose length is a legal bit count, the empty one included. -/
theorem encodeFrom_length_le {c : CodeTable} {cap : Nat} {xs : List Byte} {e : Bits}
    (h : encodeFrom c cap 0 xs [] 0 = .ok e) : e.length ≤ Config.bitCntMax := by
  obtain ⟨he, -, hl⟩ := encodeFrom_ok h rfl
  by_cases hx : xs = []
  · subst hx; simp [he]
  · exact (hl hx).1

/-- When ENC completes, its checks passed: the conditions of `exec_enc_of_fits`. -/
theorem fits_of_exec_enc_done {s t : State} (h : exec .enc s = .next t) (hdone : t.done = true) :
    s.inLen.toNat ≤ s.bufCap ∧ (∀ x ∈ inputBytes s, codeOf s.code x ≠ []) ∧
      (encodedStream s.code (inputBytes s)).length ≤ Config.bitCntMax ∧
      ceil8 (encodedStream s.code (inputBytes s)).length ≤ s.bufCap := by
  rcases exec_cases h with ⟨u, hu, -⟩ | ⟨r, -, rfl⟩
  · obtain ⟨hin, e, he, -⟩ := encBody_ok hu
    obtain ⟨hstream, hcodes, -⟩ := encodeFrom_ok he rfl
    rw [List.nil_append] at hstream
    exact ⟨hin, hcodes, hstream ▸ encodeFrom_length_le he, hstream ▸ encodeFrom_ceil8_le he⟩
  · cases hdone

/-- What ENC leaves when it packs the stream `e` into OBUF. -/
def afterEnc (s : State) (e : Bits) : State :=
  { s with
    busy := false, done := true, obuf := Memory.writeBytes s.obuf 0 (packBits e),
    outLen := BitVec.ofNat 32 (ceil8 e.length), bitCnt := BitVec.ofNat 32 e.length }

/-- After SWAP the input bytes are the packed stream. -/
theorem inputBytes_swap_afterEnc {s : State} {e : Bits} (hcap : CapacityLegal s) (hwf : Memory.wf s.obuf)
    (hout : ceil8 e.length ≤ s.bufCap) :
    inputBytes (complete (swapBuffers (afterEnc s e))) = packBits e := by
  have hlen : inputLength (complete (swapBuffers (afterEnc s e))) = (packBits e).length :=
    (hcap.toNat_ofNat hout).trans (length_packBits e).symm
  rw [inputBytes, hlen]
  exact Memory.readBytes_writeBytes hwf 0 (packBits e)

/-- Settles O37: SWAP presents the packed stream, whose shortest-match reading is the input, and DEC emits it as O34
says. -/
theorem encSwapDecRoundTrip : Obligations.EncSwapDecRoundTrip := by
  unfold Obligations.EncSwapDecRoundTrip
  intro s t hcap ⟨hwfIn, hwfOut, _, _⟩ hfree henc hdone
  obtain ⟨hin, hcodes, hbits, hout⟩ := fits_of_exec_enc_done henc hdone
  have hread := shortestMatches_encodedStream hfree hcodes
  have ht : t = afterEnc s (encodedStream s.code (inputBytes s)) :=
    Host.Outcome.next.inj (henc.symm.trans (exec_enc_of_fits hin hcodes hbits hout))
  subst ht
  generalize encodedStream s.code (inputBytes s) = e at *
  have hlong : e.length < 2 ^ 31 := hbits.trans_lt (by decide)
  have hbitCnt : (BitVec.ofNat 32 e.length).toNat = e.length := by
    rw [BitVec.toNat_ofNat, Nat.mod_eq_of_lt (by omega)]
  have houtLen : (BitVec.ofNat 32 (ceil8 e.length)).toNat = ceil8 e.length := hcap.toNat_ofNat hout
  have hlen := length_inputBytes s
  have hstream :
      unpackBits (inputBytes (complete (swapBuffers (afterEnc s e)))) (BitVec.ofNat 32 e.length).toNat = e := by
    rw [inputBytes_swap_afterEnc hcap hwfOut hout, hbitCnt, unpackBits_packBits]
  obtain ⟨m, hdec, hbytes, -⟩ := decEmitsTheShortestMatches (complete (swapBuffers (afterEnc s e))) (inputBytes s)
    hwfIn (codesDistinct_of_prefixFree hfree) (houtLen.trans_le hout) (hbitCnt.trans_lt hlong)
    ((congrArg ceil8 hbitCnt).trans_le houtLen.ge) (hstream.symm ▸ hread) (hlen.trans_le hin)
  refine ⟨_, _, exec_swap_of_fits hin, hdec, rfl, rfl, ?_, hlen ▸ hbytes⟩
  rw [hlen, BitVec.ofNat_toNat, BitVec.setWidth_eq]

end Sys2Proof.Machine

/-! PROOF. DESER: its early faults, what it loads from a container and the faults of its table loop; SER, SWAP, DESER
gives back what SER framed. -/

namespace Sys2Proof.Machine

/-! ## DESER's early faults (rules R218, R227, R264) -/

theorem toNat_headerWord (x : List Byte) :
    (headerWord x).toNat = (x.getD 0 0#8).toNat * 2 ^ 24 + (x.getD 1 0#8).toNat * 2 ^ 16 +
      (x.getD 2 0#8).toNat * 2 ^ 8 + (x.getD 3 0#8).toNat := by
  simp only [headerWord, toNat_append_eq_add]
  omega

/-- Settles O16: the word of the header is the number of its four bytes, and the three checks come in their order. -/
theorem deserEarlyFaults : Obligations.DeserEarlyFaults := by
  unfold Obligations.DeserEarlyFaults
  intro s w hin hw
  have hword (h4 : 4 ≤ s.inLen.toNat) : (headerWord (inputBytes s)).toNat = w := by
    rw [toNat_headerWord, getD_inputBytes (by omega), getD_inputBytes (by omega), getD_inputBytes (by omega),
      getD_inputBytes (by omega), hw]
  have hdeser (c : Cause) (info : Word) (h : deserBody s = .error ⟨c, info, .early⟩) :=
    exec_of_early_error (i := .deser) (by decide) h
  refine ⟨fun hshort => hdeser _ _ ?_, fun h4 hneg => hdeser _ _ ?_, fun h4 hpos hshort => hdeser _ _ ?_⟩ <;>
    rw [deserBody, checkIn_pass hin]
  · rw [if_pos (show inputLength s < 4 from hshort), raiseEarly]
  · have hmsb : (headerWord (inputBytes s)).msb = true :=
      BitVec.msb_eq_true_iff_two_mul_ge.mpr (by rw [hword h4]; omega)
    rw [if_neg (show ¬ inputLength s < 4 from Nat.not_lt.mpr h4), if_pos hmsb, hword h4, raiseEarly]
  · have hmsb : (headerWord (inputBytes s)).msb = false :=
      BitVec.msb_eq_false_iff_two_mul_lt.mpr (by rw [hword h4]; omega)
    rw [if_neg (show ¬ inputLength s < 4 from Nat.not_lt.mpr h4), hmsb, if_neg (by decide), hword h4,
      if_pos (show 4 + ceil8 w > inputLength s from hshort), raiseEarly]

/-! ## Past the legal entries of a container (rules R226 to R228) -/

/-- Every entry has a byte at least, so the bound on the table loop covers the entries. -/
theorem length_le_length_rawTable (es : List RawEntry) : es.length ≤ (rawTable es).length := by
  induction es with
  | nil => exact Nat.zero_le _
  | cons e es ih =>
    have hcons : (rawTable (e :: es)).length = e.raw.length + (rawTable es).length := List.length_append
    have hraw : e.raw.length = e.bytes.length + 1 + 1 := rfl
    rw [List.length_cons]
    omega

section
variable {s : State} {b : Nat} {y tail : List Byte} {es : List RawEntry} (hin : s.inLen.toNat ≤ s.bufCap)
  (hb : b < 2 ^ 31) (hy : y.length = ceil8 b) (hes : EntriesLegal es)
  (hx : inputBytes s = headerBytes b ++ y ++ rawTable es ++ tail)

include hy hx

theorem drop_inputBytes_entries : (inputBytes s).drop (4 + ceil8 b) = rawTable es ++ tail := by
  rw [hx, List.append_assoc (headerBytes b ++ y), List.drop_left']
  rw [List.length_append, length_headerBytes, hy]

theorem drop_inputBytes_tail : (inputBytes s).drop (4 + ceil8 b + (rawTable es).length) = tail := by
  rw [← List.drop_drop, drop_inputBytes_entries hy hx, List.drop_left]

theorem length_inputBytes_entries :
    (inputBytes s).length = 4 + ceil8 b + (rawTable es).length + tail.length := by
  simp only [hx, List.length_append, length_headerBytes, hy]

include hes

/-- The table loop of a container reaches what follows the legal entries with these loaded. -/
theorem loadEntries_past_entries :
    ∃ fuel, loadEntries (inputBytes s) (inputLength s) (4 + ceil8 b) emptyCode =
      loadEntries (inputBytes s) (fuel + 1) (4 + ceil8 b + (rawTable es).length) (putEntries emptyCode es) := by
  have hlen : inputLength s = _ := (length_inputBytes s).symm.trans (length_inputBytes_entries hy hx)
  have hcount := length_le_length_rawTable es
  have hfuel : inputLength s = (inputLength s - es.length - 1 + 1) + es.length := by omega
  refine ⟨inputLength s - es.length - 1, ?_⟩
  rw [hfuel, loadEntries_append hes (fun _ _ => codeOf_emptyCode _) (fun e he t h => ?_)
    (drop_inputBytes_entries hy hx), ← hfuel]
  exact RawEntry.code_ne_nil (hes.1 e he) (h.symm.trans (codeOf_emptyCode t))

include hin hb

/-- What the table loop raises right after the legal entries, DESER raises. -/
theorem deser_faultsWith_of_tail {k : Cause} {info : Nat}
    (hnext : ∀ fuel, loadEntries (inputBytes s) (fuel + 1) (4 + ceil8 b + (rawTable es).length)
      (putEntries emptyCode es) = raiseLate k info) : FaultsWith .deser s k info .late := by
  obtain ⟨fuel, hload⟩ := loadEntries_past_entries hy hes hx
  have hx' : inputBytes s = headerBytes b ++ y ++ (rawTable es ++ tail) := by rw [hx, List.append_assoc]
  exact faultsWith_iff.mpr (deserBody_of_error hin hb hy hx' (hload.trans (hnext fuel)))

end

/-! ## A well-formed container (rules R216, R227, R230) -/

section
variable {s : State} {b : Nat} {y : List Byte} {es : List RawEntry} (hy : y.length = ceil8 b)
  (hes : EntriesLegal es) (hx : inputBytes s = headerBytes b ++ y ++ rawTable es)
include hy hes hx

theorem loadEntries_container :
    loadEntries (inputBytes s) (inputLength s) (4 + ceil8 b) emptyCode = .ok (putEntries emptyCode es) := by
  rw [← List.append_nil (headerBytes b ++ y ++ rawTable es)] at hx
  obtain ⟨fuel, hload⟩ := loadEntries_past_entries hy hes hx
  exact hload.trans (loadEntries_end (length_inputBytes_entries hy hx).le)

theorem deserBody_of_container (hin : s.inLen.toNat ≤ s.bufCap) (hb : b < 2 ^ 31) :
    deserBody s = .ok (putBitCount b (putOutput y { s with code := putEntries emptyCode es })) :=
  deserBody_of_ok hin hb hy hx (loadEntries_container hy hes hx)

end

/-- Settles O39: the loop passes over the entries and ends at the container's end. -/
theorem deserLoadsTheContainer : Obligations.DeserLoadsTheContainer := by
  unfold Obligations.DeserLoadsTheContainer
  intro s b y es hwf hin hb hy hes hx
  refine ⟨putEntries emptyCode es, Memory.writeBytes s.obuf 0 y, ?_, putEntries_holds hes.2.1, ?_, fun a ha => ?_⟩
  · rw [exec_of_ok (i := .deser) (deserBody_of_container hy hes hx hin hb), ← hy]
    rfl
  · rw [← hy, Memory.readBytes_writeBytes hwf]
  · exact Memory.read_writeBytes_outside hwf (.inr (by omega))

/-! ## The faults of the table loop (rules R226 to R228, R264, R266) -/

section
variable {x : List Byte} {fuel pos : Nat} {c : CodeTable}

/-- The head of an entry lacks its code length. -/
theorem loadEntries_of_lone_byte (h : x.length = pos + 1) :
    loadEntries x (fuel + 1) pos c = raiseLate .truncatedInput pos := by
  rw [loadEntries, if_neg (by omega), if_pos (by omega)]

theorem length_of_drop_head {z l : Byte} {rest : List Byte} (h : x.drop pos = z :: l :: rest) :
    x.length = pos + 2 + rest.length := by
  have hlen := congrArg List.length h
  simp only [List.length_drop, List.length_cons] at hlen
  omega

theorem loadEntries_of_zero_length {z : Byte} {rest : List Byte} (h : x.drop pos = z :: 0#8 :: rest) :
    loadEntries x (fuel + 1) pos c = raiseLate .invalidCodeTable pos := by
  have hlen := length_of_drop_head h
  have hzero : x.getD (pos + 1) 0#8 = 0#8 := getD_of_drop h
  rw [loadEntries, if_neg (by omega), if_neg (by omega)]
  simp only [hzero]
  exact if_pos rfl

theorem loadEntries_of_short_code {z l : Byte} {rest : List Byte} (h : x.drop pos = z :: l :: rest) (hl : l ≠ 0#8)
    (hshort : rest.length < ceil8 l.toNat) : loadEntries x (fuel + 1) pos c = raiseLate .truncatedInput pos := by
  have hlen := length_of_drop_head h
  have hl' : x.getD (pos + 1) 0#8 = l := getD_of_drop h
  have hne : l.toNat ≠ 0 := fun h0 => hl (BitVec.eq_of_toNat_eq h0)
  rw [loadEntries, if_neg (by omega), if_neg (by omega)]
  simp only [hl']
  rw [if_neg hne, if_pos (by omega)]

/-- A symbol or a code that the table holds already (rule R228). -/
theorem loadEntries_of_duplicate {e : RawEntry} {rest : List Byte} (he : e.legal) (h : x.drop pos = e.raw ++ rest)
    (hdup : codeOf c e.sym ≠ [] ∨ ∃ z, codeOf c z = e.code) :
    loadEntries x (fuel + 1) pos c = raiseLate .invalidCodeTable pos := by
  rw [loadEntries_entry he h]
  by_cases hsym : codeOf c e.sym ≠ []
  · rw [if_pos hsym]
  · rw [if_neg hsym, if_pos ((hasCode_iff c e.code).mpr (hdup.resolve_left hsym))]

end

/-- A symbol or a code of an entry is in every table that holds the entries. -/
theorem HoldsEntries.duplicate {c : CodeTable} {es : List RawEntry} (h : HoldsEntries c es)
    (hlegal : ∀ e ∈ es, e.legal) {e : RawEntry}
    (hdup : e.sym ∈ es.map RawEntry.sym ∨ e.code ∈ es.map RawEntry.code) :
    codeOf c e.sym ≠ [] ∨ ∃ z, codeOf c z = e.code := by
  rcases hdup with hsym | hcode
  · obtain ⟨f, hf, hfe⟩ := List.mem_map.mp hsym
    rw [← hfe, h.1 f hf]
    exact .inl (RawEntry.code_ne_nil (hlegal f hf))
  · obtain ⟨f, hf, hfe⟩ := List.mem_map.mp hcode
    exact .inr ⟨f.sym, (h.1 f hf).trans hfe⟩

/-- Settles O40: the loop passes over the legal entries, and the next one fails one of the checks, in their order. -/
theorem deserFaultsInItsTableLoop : Obligations.DeserFaultsInItsTableLoop := by
  unfold Obligations.DeserFaultsInItsTableLoop
  rintro s b _ y es tail hin hb hy hes hx rfl
  have hlen := length_inputBytes_entries hy hx
  have hdrop := drop_inputBytes_tail hy hx
  have hfault {k : Cause} {info : Nat} := deser_faultsWith_of_tail (k := k) (info := info) hin hb hy hes hx
  refine ⟨fun hone => hfault fun _ => ?_, fun z rest htail => hfault fun _ => ?_,
    fun z l rest htail hl hshort => hfault fun _ => ?_, fun e rest he htail hdup => hfault fun _ => ?_⟩
  · exact loadEntries_of_lone_byte (hone ▸ hlen)
  · exact loadEntries_of_zero_length (hdrop.trans htail)
  · exact loadEntries_of_short_code (hdrop.trans htail) hl hshort
  · exact loadEntries_of_duplicate he (hdrop.trans htail) ((putEntries_holds hes.2.1).duplicate hes.1 hdup)

/-! ## SER, SWAP, DESER (rule R231) -/

/-- A table that holds the entries is determined by them. -/
theorem HoldsEntries.unique {c c' : CodeTable} {es : List RawEntry} (h : HoldsEntries c es) (h' : HoldsEntries c' es) :
    c = c' := by
  refine codeTable_ext fun x => ?_
  by_cases hx : x ∈ es.map RawEntry.sym
  · obtain ⟨e, he, rfl⟩ := List.mem_map.mp hx
    rw [h.1 e he, h'.1 e he]
  · rw [h.2 x hx, h'.2 x hx]

/-- The entry SER writes for a symbol (rule R222). -/
def entryOf (c : CodeTable) (x : Byte) : RawEntry := ⟨x, (codeOf c x).length, packBits (codeOf c x)⟩

theorem code_entryOf (c : CodeTable) (x : Byte) : (entryOf c x).code = codeOf c x := unpackBits_packBits _

/-- The entries SER writes, in ascending symbol order (rule R223). -/
def tableEntries (c : CodeTable) : List RawEntry := (symbols.filter (fun x => codeOf c x ≠ [])).map (entryOf c)

theorem rawTable_tableEntries (c : CodeTable) : rawTable (tableEntries c) = tableBytes c := by
  rw [rawTable, tableEntries, tableBytes]
  induction symbols with
  | nil => rfl
  | cons x xs ih =>
    by_cases hx : codeOf c x = []
    · simpa [hx] using ih
    · simpa [hx, entryOf, RawEntry.raw, entryBytes] using ih

theorem map_sym_tableEntries (c : CodeTable) :
    (tableEntries c).map RawEntry.sym = symbols.filter (fun x => codeOf c x ≠ []) := by
  rw [tableEntries, List.map_map]
  exact List.map_id _

theorem map_code_tableEntries (c : CodeTable) :
    (tableEntries c).map RawEntry.code = (symbols.filter (fun x => codeOf c x ≠ [])).map (codeOf c) := by
  rw [tableEntries, List.map_map]
  exact List.map_congr_left fun x _ => code_entryOf c x

theorem holdsEntries_tableEntries (c : CodeTable) : HoldsEntries c (tableEntries c) := by
  refine ⟨fun e he => ?_, fun x hx => ?_⟩
  · obtain ⟨x, -, rfl⟩ := List.mem_map.mp he
    exact (code_entryOf c x).symm
  · by_contra hne
    rw [map_sym_tableEntries] at hx
    exact hx (List.mem_filter.mpr ⟨mem_symbols x, decide_eq_true hne⟩)

/-- The entries of a legal code table can stand together in a container (rules R52, R220). -/
theorem CodesLegal.tableEntries_legal {c : CodeTable} (h : CodesLegal c) : EntriesLegal (tableEntries c) := by
  obtain ⟨hlen, hdist⟩ := h
  refine ⟨fun e he => ?_, ?_, ?_⟩
  · obtain ⟨x, hx, rfl⟩ := List.mem_map.mp he
    have hpresent : codeOf c x ≠ [] := of_decide_eq_true (List.mem_filter.mp hx).2
    exact ⟨List.length_pos_iff.mpr hpresent, hlen x, length_packBits _⟩
  · rw [map_sym_tableEntries]
    exact nodup_symbols.filter _
  · rw [map_code_tableEntries]
    refine (nodup_symbols.filter _).map_on fun x hx z _ hxz => ?_
    exact hdist x z (of_decide_eq_true (List.mem_filter.mp hx).2) hxz

/-- When SER completes, its checks passed: the conditions of `exec_ser_of_fits`. -/
theorem fits_of_exec_ser_done {s t : State} (h : exec .ser s = .next t) (hdone : t.done = true) :
    s.inLen.toNat ≤ s.bufCap ∧ s.bitCnt.msb = false ∧ ceil8 s.bitCnt.toNat ≤ s.inLen.toNat ∧
      4 + ceil8 s.bitCnt.toNat + tableSize s.code ≤ s.bufCap := by
  rcases exec_cases h with ⟨u, hu, -⟩ | ⟨r, -, rfl⟩
  · obtain ⟨hin, hmsb, hpayload, hsize, -⟩ := serBody_ok hu
    exact ⟨hin, hmsb, hpayload, hsize⟩
  · cases hdone

/-- What SER leaves when it frames the payload `y`. -/
def afterSer (s : State) (y : List Byte) : State :=
  { s with
    busy := false, done := true,
    obuf := Memory.writeBytes s.obuf 0 (containerBytes s.bitCnt.toNat y s.code),
    outLen := BitVec.ofNat 32 (4 + ceil8 s.bitCnt.toNat + tableSize s.code) }

/-- After SWAP the input bytes are the container. -/
theorem inputBytes_swap_afterSer {s : State} {y : List Byte} (hcap : CapacityLegal s) (hwf : Memory.wf s.obuf)
    (hy : y.length = ceil8 s.bitCnt.toNat) (hsize : 4 + ceil8 s.bitCnt.toNat + tableSize s.code ≤ s.bufCap) :
    inputBytes (complete (swapBuffers (afterSer s y))) = containerBytes s.bitCnt.toNat y s.code := by
  have hlen : inputLength (complete (swapBuffers (afterSer s y))) =
      (containerBytes s.bitCnt.toNat y s.code).length := by
    rw [length_containerBytes, hy]
    exact hcap.toNat_ofNat hsize
  rw [inputBytes, hlen]
  exact Memory.readBytes_writeBytes hwf 0 _

/-- Settles O41: SWAP presents the container, whose table is the raw table of the entries of CODE; DESER loads these
as O39 says, and only CODE holds them. -/
theorem serSwapDeserIdentity : Obligations.SerSwapDeserIdentity := by
  unfold Obligations.SerSwapDeserIdentity
  intro s t hcap ⟨hwfIn, hwfOut, _, _⟩ hdist hlens hser hdone
  obtain ⟨hin, hmsb, hpayload, hsize⟩ := fits_of_exec_ser_done hser hdone
  have ht : t = afterSer s (inputPart s (ceil8 s.bitCnt.toNat)) :=
    Host.Outcome.next.inj (hser.symm.trans (exec_ser_of_fits hin hmsb hpayload hsize))
  have hy : (inputPart s (ceil8 s.bitCnt.toNat)).length = ceil8 s.bitCnt.toNat := Memory.length_readBytes ..
  have hread : ∀ j < ceil8 s.bitCnt.toNat,
      (inputPart s (ceil8 s.bitCnt.toNat)).getD j 0#8 = Memory.read s.ibuf j := fun j hj => by
    rw [inputPart, Memory.getD_readBytes _ 0 _ j hj, Nat.zero_add]
  generalize inputPart s (ceil8 s.bitCnt.toNat) = y at ht hy hread
  subst ht
  have hbits : s.bitCnt.toNat < 2 ^ 31 := by
    have hdouble := BitVec.msb_eq_false_iff_two_mul_lt.mp hmsb
    omega
  have hinput := inputBytes_swap_afterSer hcap hwfOut hy hsize
  rw [containerBytes, ← rawTable_tableEntries] at hinput
  obtain ⟨c, m, hdeser, hholds, hbytes, -⟩ := deserLoadsTheContainer (complete (swapBuffers (afterSer s y)))
    s.bitCnt.toNat y (tableEntries s.code) hwfIn ((hcap.toNat_ofNat hsize).trans_le hsize) hbits hy
    (CodesLegal.tableEntries_legal ⟨hlens, hdist⟩) hinput
  refine ⟨_, _, exec_swap_of_fits hin, hdeser, rfl, rfl, ?_, hholds.unique (holdsEntries_tableEntries s.code),
    hcap.toNat_ofNat (by omega), fun j hj => ?_⟩
  · exact (BitVec.ofNat_toNat ..).trans (BitVec.setWidth_eq _)
  · rw [← hread j hj, ← Memory.read_of_readBytes hbytes hj, Nat.zero_add]

end Sys2Proof.Machine

/-! PROOF. DECOMPRESS: its stages' faults, and what it reads from a well-formed container. -/

namespace Sys2Proof.Machine

/-! ## The stages of DECOMPRESS (rules R246, R249, R274) -/

/-- Every fault of DESER is DECOMPRESS's, early or late as DESER's. -/
theorem decompress_faultsWith_of_deser {s : State} {k : Cause} {info : Nat} {p : Phase}
    (h : FaultsWith .deser s k info p) : FaultsWith .decompress s k info p :=
  faultsWith_iff.mpr (thenStage_of_raise (thenStage_of_raise (faultsWith_iff.mp h) swapBody) decBody)

section
variable {s d : State} (hdeser : deserBody s = .ok d) (hin : d.inLen.toNat ≤ d.bufCap)
include hdeser hin

/-- With DESER completed and its check passed, DECOMPRESS's SWAP stage hands DEC the exchanged buffers. -/
theorem deserBody_thenStage_swapBody : thenStage (deserBody s) swapBody = .ok (swapBuffers d) :=
  thenStage_of_ok hdeser (checkIn_pass hin _)

/-- DECOMPRESS ends as its DEC stage does when that completes. -/
theorem exec_decompress_of_dec {t : State} (hdec : exec .dec (swapBuffers d) = .next t) (hdone : t.done = true) :
    exec .decompress s = .next t := by
  rcases exec_cases hdec with ⟨u, hu, rfl⟩ | ⟨r, -, rfl⟩
  · exact exec_of_ok (i := .decompress) (thenStage_of_ok (deserBody_thenStage_swapBody hdeser hin) hu)
  · cases hdone

/-- A fault of its DEC stage is a late fault of DECOMPRESS. -/
theorem decompress_faultsWith_of_dec {k : Cause} {info : Nat} {p : Phase}
    (h : FaultsWith .dec (swapBuffers d) k info p) : FaultsWith .decompress s k info .late :=
  faultsWith_iff.mpr (thenStage_of_late (deserBody_thenStage_swapBody hdeser hin) (faultsWith_iff.mp h))

end

/-! ## A well-formed container (rules R227, R249) -/

/-- What DESER leaves of a container: the bit count `b`, the payload `y` and the code table `c`. -/
def afterDeser (s : State) (b : Nat) (y : List Byte) (c : CodeTable) : State :=
  putBitCount b (putOutput y { s with code := c })

/-- DEC's input bytes, after SWAP, are the payload. -/
theorem inputBytes_swap_afterDeser {s : State} {b : Nat} {y : List Byte} (c : CodeTable) (hcap : CapacityLegal s)
    (hwf : Memory.wf s.obuf) (hy : y.length ≤ s.bufCap) : inputBytes (swapBuffers (afterDeser s b y c)) = y := by
  have hlen : inputLength (swapBuffers (afterDeser s b y c)) = y.length := hcap.toNat_ofNat hy
  rw [inputBytes, hlen]
  exact Memory.readBytes_writeBytes hwf 0 y

/-- Settles O45: DESER loads the container's entries, SWAP presents its payload, and DEC completes or faults as O34 and
O35 say. -/
theorem decompressReadsTheContainer : Obligations.DecompressReadsTheContainer := by
  unfold Obligations.DecompressReadsTheContainer
  refine fun s => ⟨fun _ _ _ => decompress_faultsWith_of_deser, ?_⟩
  intro b y es c x r hcap ⟨hwfIn, hwfOut, _, _⟩ hin hb hy hes hx hholds hread
  have hc : putEntries emptyCode es = c := (putEntries_holds hes.2.1).unique hholds
  have hdeser : deserBody s = .ok (afterDeser s b y c) := hc ▸ deserBody_of_container hy hes hx hin hb
  have hdist : CodesDistinct c :=
    hc ▸ (loadEntries_codesLegal codesLegal_emptyCode (loadEntries_container hy hes hx)).2
  have hfits : y.length ≤ s.bufCap := by
    have hlen := congrArg List.length hx
    simp only [length_inputBytes, List.length_append] at hlen
    omega
  have hinput := inputBytes_swap_afterDeser (b := b) c hcap hwfOut hfits
  have hbitCnt : (BitVec.ofNat 32 b).toNat = b := by rw [BitVec.toNat_ofNat, Nat.mod_eq_of_lt (by omega)]
  have hinLen : (BitVec.ofNat 32 y.length).toNat = y.length := hcap.toNat_ofNat hfits
  have hpayload : ceil8 (BitVec.ofNat 32 b).toNat ≤ (BitVec.ofNat 32 y.length).toNat := by
    rw [hbitCnt, hinLen, hy]
  have hstream : ShortestMatches c (unpackBits (inputBytes (swapBuffers (afterDeser s b y c)))
      (BitVec.ofNat 32 b).toNat) x r := by rwa [hinput, hbitCnt]
  obtain ⟨hleft, hfull⟩ := decFaultsInItsLoop (swapBuffers (afterDeser s b y c)) x r hdist (hinLen.trans_le hfits)
    (hbitCnt.trans_lt hb) hpayload hstream
  refine ⟨?_, fun hr hlen => ?_, fun hbig => decompress_faultsWith_of_dec hdeser hin (hfull hbig)⟩
  · rintro rfl hlen
    obtain ⟨m, hdec, hbytes, -⟩ := decEmitsTheShortestMatches (swapBuffers (afterDeser s b y c)) x hwfIn hdist
      (hinLen.trans_le hfits) (hbitCnt.trans_lt hb) hpayload hstream hlen
    exact ⟨_, exec_decompress_of_dec hdeser hin hdec rfl, rfl, rfl, hbitCnt, hinLen.trans hy,
      hy ▸ Memory.readBytes_writeBytes hwfOut 0 y, hcap.toNat_ofNat hlen, hbytes, rfl, rfl, rfl, rfl, rfl⟩
  · rw [← hbitCnt]
    exact decompress_faultsWith_of_dec hdeser hin (hleft hlen hr)

end Sys2Proof.Machine

/-! PROOF. COMPRESS: what its table stages leave, the container it makes, its faults, what it leaves beyond the new
lengths, and COMPRESS, SWAP, DECOMPRESS as the identity. -/

namespace Sys2Proof.Machine

/-! ## The table stages FREQ, BUILD and GEN (rules R247, R248) -/

/-- `s` with the counters `t`, the tree of the forest `w` as BUILD stores it (rule R165), and the codes `c`. The
forest is a parameter so that no lemma about the other fields looks into it. -/
def withTables (t : FreqTable) (w : Forest) (c : CodeTable) (s : State) : State :=
  { s with
    freq := t
    node := w.node
    nodeCnt := BitVec.ofNat 9 w.n
    rootValid := w.queue.length = 1
    rootIndex := BitVec.ofNat 9 (if w.queue.length = 1 then w.queue.headD 0 else 0)
    code := c }

theorem buildBody_eq (s : State) : buildBody s = .ok (withTables s.freq (huffmanForest s.freq) s.code s) := rfl

theorem genBody_withTables {t : FreqTable} {w : Forest} {c : CodeTable} (b : CodeTable) (s : State)
    (h : generateCodes w.node (BitVec.ofNat 9 w.n) (w.queue.length = 1)
      (BitVec.ofNat 9 (if w.queue.length = 1 then w.queue.headD 0 else 0)) = .ok c) :
    genBody (withTables t w b s) = .ok (withTables t w c s) :=
  genBody_of_ok h

/-- The counts of the input of `s`, their tree, and the codes `c`: FREQ and BUILD leave this with the codes of `s`, and
GEN then with `codesFor` the input. -/
def afterTables (s : State) (c : CodeTable) : State :=
  withTables (countBytes (inputBytes s)) (huffmanForest (countBytes (inputBytes s))) c s

section
variable (s : State) (c : CodeTable)

@[simp] theorem afterTables_freq : (afterTables s c).freq = countBytes (inputBytes s) := rfl
@[simp] theorem afterTables_code : (afterTables s c).code = c := rfl
@[simp] theorem afterTables_bufCap : (afterTables s c).bufCap = s.bufCap := rfl
@[simp] theorem afterTables_inLen : (afterTables s c).inLen = s.inLen := rfl
@[simp] theorem afterTables_ibuf : (afterTables s c).ibuf = s.ibuf := rfl
@[simp] theorem afterTables_obuf : (afterTables s c).obuf = s.obuf := rfl
@[simp] theorem afterTables_faulted : (afterTables s c).faulted = s.faulted := rfl
@[simp] theorem inputBytes_afterTables : inputBytes (afterTables s c) = inputBytes s := rfl

/-- IN_LEN is a 32-bit word, so no counter wraps (rule R152). -/
theorem length_inputBytes_lt : (inputBytes s).length < 2 ^ 32 := length_inputBytes s ▸ s.inLen.isLt

theorem treeLegal_afterTables : TreeLegal (afterTables s c).node (afterTables s c).nodeCnt
    (afterTables s c).rootValid (afterTables s c).rootIndex :=
  huffmanForest_tree (freqSum_countBytes (length_inputBytes_lt s) ▸ length_inputBytes_lt s)


end

theorem codesFor_eq (x : List Byte) :
    codesFor x = (generateCodes (huffmanForest (countBytes x)).node (BitVec.ofNat 9 (huffmanForest (countBytes x)).n)
      ((huffmanForest (countBytes x)).queue.length = 1)
      (BitVec.ofNat 9 (if (huffmanForest (countBytes x)).queue.length = 1
        then (huffmanForest (countBytes x)).queue.headD 0 else 0))).toOption := rfl

theorem toOption_eq_some_iff {x : Except Raise CodeTable} {c : CodeTable} : x.toOption = some c ↔ x = .ok c := by
  cases x <;> simp [Except.toOption]

theorem genBody_afterTables {s : State} {c : CodeTable} (hc : codesFor (inputBytes s) = some c) (b : CodeTable) :
    genBody (afterTables s b) = .ok (afterTables s c) := by
  rw [codesFor_eq, toOption_eq_some_iff] at hc
  exact genBody_withTables b s hc

/-- GEN's codes of the tree of the input are `codesFor` the input. -/
theorem codesFor_of_genBody_ok {s g : State} {b : CodeTable} (h : genBody (afterTables s b) = .ok g) :
    ∃ c, codesFor (inputBytes s) = some c ∧ g = afterTables s c := by
  obtain ⟨c, hc, -⟩ := genBody_ok h
  have hc' : codesFor (inputBytes s) = some c := by
    rw [codesFor_eq, toOption_eq_some_iff]
    exact hc
  exact ⟨c, hc', Except.ok.inj (h.symm.trans (genBody_afterTables hc' b))⟩

/-- GEN finds a legal tree of every input, so it makes codes (rule R248). -/
theorem exists_codesFor (s : State) : ∃ c, codesFor (inputBytes s) = some c := by
  obtain ⟨c, hc, -⟩ := generateCodes_legal (treeLegal_afterTables s s.code)
  obtain ⟨c, hc, -⟩ := codesFor_of_genBody_ok (genBody_of_ok hc)
  exact ⟨c, hc⟩

/-- A rule that gives alike before and after completion runs so as a command. -/
theorem exec_complete_of_ok {i : Instr} {s t : State} (hstage : bodyOf i (complete s) = (bodyOf i s).map complete)
    (h : bodyOf i s = .ok t) : exec i (complete s) = .next (complete t) := by
  rw [h] at hstage
  exact exec_of_ok (t := complete t) hstage

section
variable {s : State} {c : CodeTable} (hc : codesFor (inputBytes s) = some c)
include hc

theorem generateCodes_afterTables :
    generateCodes (afterTables s c).node (afterTables s c).nodeCnt (afterTables s c).rootValid
      (afterTables s c).rootIndex = .ok c := by
  rw [codesFor_eq, toOption_eq_some_iff] at hc
  exact hc

theorem codesLegal_of_codesFor : CodesLegal c :=
  generateCodes_codesLegal (treeLegal_afterTables s c) (generateCodes_afterTables hc)

theorem prefixFree_of_codesFor : PrefixFree c :=
  generateCodes_prefixFree (treeLegal_afterTables s c) (generateCodes_afterTables hc)

variable (hin : s.inLen.toNat ≤ s.bufCap)
include hin

/-- Every input byte has a code (rule R248). -/
theorem codeOf_ne_nil_of_codesFor (hcap : CapacityLegal s) : ∀ x ∈ inputBytes s, codeOf c x ≠ [] := by
  have hlen : (inputBytes s).length ≤ Config.bufCapMax := (length_inputBytes s).trans_le (hin.trans hcap.le_window)
  obtain ⟨c', hc', -, -, hpresent⟩ := everyInputByteGetsACode (inputBytes s) hlen
  obtain rfl : c = c' := Option.some.inj (hc.symm.trans hc')
  exact fun x hx => (hpresent x).mpr hx

theorem tableStages_eq : thenStage (thenStage (freqBody s) buildBody) genBody = .ok (afterTables s c) :=
  thenStage_of_ok (thenStage_of_ok (checkIn_pass hin _) (buildBody_eq _)) (genBody_afterTables hc s.code)

/-- The table stages as commands of their own. -/
theorem exec_tables :
    exec .freq s = .next (complete { s with freq := countBytes (inputBytes s) }) ∧
      exec .build (complete { s with freq := countBytes (inputBytes s) }) = .next (complete (afterTables s s.code)) ∧
      exec .gen (complete (afterTables s s.code)) = .next (complete (afterTables s c)) := by
  refine ⟨exec_freq_of_fits hin, exec_complete_of_ok (buildBody_complete _) (buildBody_eq _),
    exec_complete_of_ok (genBody_complete _) (genBody_afterTables hc _)⟩

/-- A fault of its ENC stage is COMPRESS's, late (rules R246, R274). -/
theorem compressBody_of_enc_error {r : Raise} (henc : encBody (afterTables s c) = .error r) :
    compressBody s = .error { r with phase := .late } :=
  thenStage_of_raise (thenStage_of_raise (thenStage_of_late (tableStages_eq hc hin) henc) swapBody) serBody

end

/-! ## The stages ENC, SWAP and SER (rule R247) -/

/-- The checks of ENC pass in `g`, whose input has the stream `e` (rule R192). -/
structure StreamFits (g : State) (e : Bits) : Prop where
  input : g.inLen.toNat ≤ g.bufCap
  present : ∀ x ∈ inputBytes g, codeOf g.code x ≠ []
  stream : e = encodedStream g.code (inputBytes g)
  bits : e.length ≤ Config.bitCntMax
  payload : ceil8 e.length ≤ g.bufCap

theorem streamFits_of_encBody_ok {g d : State} (h : encBody g = .ok d) :
    StreamFits g (encodedStream g.code (inputBytes g)) := by
  obtain ⟨hin, hpresent, hbits, hpayload⟩ := fits_of_exec_enc_done (exec_of_ok (i := .enc) h) rfl
  exact ⟨hin, hpresent, rfl, hbits, hpayload⟩

/-- The stages ENC and SWAP leave the packed stream in IBUF, the input in OBUF. -/
def afterEncSwap (g : State) (e : Bits) : State :=
  swapBuffers (putBitCount e.length (putOutput (packBits e) g))

/-- The stages ENC, SWAP and SER leave the packed stream in IBUF and the container over the input in OBUF. -/
def afterEncSwapSer (g : State) (e : Bits) : State :=
  putOutput (containerBytes e.length (packBits e) g.code) (afterEncSwap g e)

/-- SER finds the packed stream in IBUF. -/
theorem inputPart_afterEncSwap {g : State} (e : Bits) (hwf : Memory.wf g.obuf) :
    inputPart (afterEncSwap g e) (ceil8 e.length) = packBits e := by
  rw [← length_packBits]
  exact Memory.readBytes_writeBytes hwf 0 (packBits e)

section
variable {g : State} {e : Bits} (h : StreamFits g e)
include h

theorem StreamFits.length_lt : e.length < 2 ^ 31 := h.bits.trans_lt (by decide)

theorem StreamFits.toNat_bitCnt : (afterEncSwap g e).bitCnt.toNat = e.length := by
  have hlt := h.length_lt
  exact (BitVec.toNat_ofNat ..).trans (Nat.mod_eq_of_lt (by omega))

theorem StreamFits.toNat_inLen : (afterEncSwap g e).inLen.toNat = ceil8 e.length := by
  have hlt := h.length_lt
  have hle := ceil8_le_self e.length
  rw [← length_packBits]
  exact (BitVec.toNat_ofNat ..).trans (Nat.mod_eq_of_lt (by rw [length_packBits]; omega))

theorem StreamFits.encBody_eq : encBody g = .ok (putBitCount e.length (putOutput (packBits e) g)) := by
  obtain ⟨hin, hpresent, rfl, hbits, hpayload⟩ := h
  exact encBody_of_ok hin (encodeFrom_fits hpresent hbits hpayload)

theorem StreamFits.swapBody_eq :
    swapBody (putBitCount e.length (putOutput (packBits e) g)) = .ok (afterEncSwap g e) :=
  checkIn_pass h.input _

/-- The payload checks of SER pass, and its capacity check is left (rule R222). -/
theorem StreamFits.serBody_eq : serBody (afterEncSwap g e) =
    if 4 + ceil8 e.length + tableSize g.code > g.bufCap then
      raiseEarly .capacityExceeded (4 + ceil8 e.length + tableSize g.code)
    else .ok (putOutput (containerBytes e.length (inputPart (afterEncSwap g e) (ceil8 e.length)) g.code)
      (afterEncSwap g e)) := by
  have hbits := h.toNat_bitCnt
  have hin := h.toNat_inLen
  rw [serBody, withPayload_pass (hin.trans_le h.payload) (bitCnt_msb_eq_false (hbits.trans_lt h.length_lt))
    ((congrArg ceil8 hbits).trans_le hin.ge), hbits]
  rfl

theorem StreamFits.serBody_of_fits (hwf : Memory.wf g.obuf)
    (hsize : 4 + ceil8 e.length + tableSize g.code ≤ g.bufCap) :
    serBody (afterEncSwap g e) = .ok (afterEncSwapSer g e) := by
  rw [h.serBody_eq, if_neg (Nat.not_lt.mpr hsize), inputPart_afterEncSwap e hwf, afterEncSwapSer]

theorem StreamFits.serBody_of_overflow (hsize : g.bufCap < 4 + ceil8 e.length + tableSize g.code) :
    serBody (afterEncSwap g e) = raiseEarly .capacityExceeded (4 + ceil8 e.length + tableSize g.code) := by
  rw [h.serBody_eq, if_pos hsize]

end

/-! ## COMPRESS as a whole (rule R247) -/

section
variable {s : State} {c : CodeTable} {e : Bits} (hc : codesFor (inputBytes s) = some c)
  (h : StreamFits (afterTables s c) e)
include hc h

/-- The stages before SER pass, so COMPRESS ends as SER does. -/
theorem compressBody_eq : compressBody s = thenStage (.ok (afterEncSwap (afterTables s c) e)) serBody :=
  congrArg (thenStage · serBody)
    (thenStage_of_ok (thenStage_of_ok (tableStages_eq hc h.input) h.encBody_eq) h.swapBody_eq)

/-- A container that fits is stored (rule R222). -/
theorem compressBody_of_fits (hwf : Memory.wf s.obuf) (hsize : 4 + ceil8 e.length + tableSize c ≤ s.bufCap) :
    compressBody s = .ok (afterEncSwapSer (afterTables s c) e) :=
  (compressBody_eq hc h).trans (thenStage_of_ok rfl (h.serBody_of_fits hwf hsize))

/-- A container that does not fit is a late CapacityExceeded with the size it needs (rules R222, R274). -/
theorem compress_faultsWith_of_overflow (hsize : s.bufCap < 4 + ceil8 e.length + tableSize c) :
    FaultsWith .compress s .capacityExceeded (4 + ceil8 e.length + tableSize c) .late :=
  faultsWith_iff.mpr ((compressBody_eq hc h).trans (thenStage_of_late rfl (h.serBody_of_overflow hsize)))

end

/-- COMPRESS completes only when the checks of all its stages pass, and leaves what they leave. -/
theorem exec_compress_done {s t : State} (hwf : Memory.wf s.obuf) (h : exec .compress s = .next t)
    (hdone : t.done = true) :
    ∃ c e, codesFor (inputBytes s) = some c ∧ StreamFits (afterTables s c) e ∧
      4 + ceil8 e.length + tableSize c ≤ s.bufCap ∧ t = complete (afterEncSwapSer (afterTables s c) e) := by
  rcases exec_cases h with ⟨u, hu, rfl⟩ | ⟨r, -, rfl⟩
  · obtain ⟨a, b, g, d, -, hfreq, hbuild, hgen, henc, -, -⟩ := compressBody_ok hu
    obtain ⟨-, rfl⟩ := freqBody_ok hfreq
    obtain rfl := Except.ok.inj ((buildBody_eq _).symm.trans hbuild)
    obtain ⟨c, hc, rfl⟩ := codesFor_of_genBody_ok hgen
    have hfits := streamFits_of_encBody_ok henc
    refine ⟨c, _, hc, hfits, ?_⟩
    rcases Nat.lt_or_ge s.bufCap (4 + ceil8 (encodedStream c (inputBytes s)).length + tableSize c) with hsize | hsize
    · cases hu.symm.trans (faultsWith_iff.mp (compress_faultsWith_of_overflow hc hfits hsize))
    · exact ⟨hsize, congrArg complete (Except.ok.inj (hu.symm.trans (compressBody_of_fits hc hfits hwf hsize)))⟩
  · cases hdone

/-! ## COMPRESS's faults (rules R246, R248, R274) -/

/-- When every byte has a code, ENC's loop raises LengthOverflow or CapacityExceeded (rule R192). -/
theorem encodeFrom_error_cause {c : CodeTable} {cap i b : Nat} {xs : List Byte} {e : Bits} {r : Raise}
    (hpresent : ∀ x ∈ xs, codeOf c x ≠ []) (h : encodeFrom c cap i xs e b = .error r) :
    r.cause = .capacityExceeded ∨ r.cause = .lengthOverflow := by
  induction xs generalizing i e b with
  | nil => cases h
  | cons x xs ih =>
    rw [encodeFrom, if_neg (hpresent x (by simp))] at h
    split_ifs at h
    · exact .inr (congrArg Raise.cause (Except.error.inj h)).symm
    · exact .inl (congrArg Raise.cause (Except.error.inj h)).symm
    · exact ih (fun y hy => hpresent y (by simp [hy])) h

theorem encBody_error_cause {g : State} {r : Raise} (hpresent : ∀ x ∈ inputBytes g, codeOf g.code x ≠ [])
    (h : encBody g = .error r) : r.cause = .capacityExceeded ∨ r.cause = .lengthOverflow := by
  rcases checkIn_error h with ⟨-, rfl⟩ | ⟨-, h⟩
  · exact .inl rfl
  · split at h
    · rename_i hloop
      exact Except.error.inj h ▸ encodeFrom_error_cause hpresent hloop
    · cases h

/-- COMPRESS raises nothing but the two faults of size: GEN finds a legal tree, and every input byte has a code. -/
theorem compressBody_error_cause {s : State} {r : Raise} (hcap : CapacityLegal s) (h : compressBody s = .error r) :
    r.cause = .capacityExceeded ∨ r.cause = .lengthOverflow := by
  rcases Nat.lt_or_ge s.bufCap s.inLen.toNat with hlong | hin
  · have hraise := bodyOf_raise_of_inputTooLong (i := .compress) (by decide) hlong
    obtain rfl := Except.error.inj (h.symm.trans hraise)
    exact .inl rfl
  obtain ⟨c, hc⟩ := exists_codesFor s
  cases henc : encBody (afterTables s c) with
  | error r' =>
    obtain rfl := Except.error.inj (h.symm.trans (compressBody_of_enc_error hc hin henc))
    exact encBody_error_cause (g := afterTables s c) (r := r') (codeOf_ne_nil_of_codesFor hc hin hcap) henc
  | ok d =>
    have hfits := streamFits_of_encBody_ok henc
    rw [compressBody_eq hc hfits] at h
    obtain hbefore | ⟨x, r', hx, hser, rfl⟩ := thenStage_error h
    · cases hbefore
    · obtain rfl := Except.ok.inj hx
      rw [hfits.serBody_eq] at hser
      split_ifs at hser
      obtain rfl := Except.error.inj hser
      exact .inl rfl

/-- A fault of ENC on what the commands FREQ, BUILD and GEN leave is COMPRESS's, late (rules R246, R274). -/
theorem compress_faultsWith_of_enc {s : State} {c : CodeTable} {k : Cause} {info : Nat} {p : Phase}
    (hc : codesFor (inputBytes s) = some c) (hin : s.inLen.toNat ≤ s.bufCap)
    (h : FaultsWith .enc (complete (afterTables s c)) k info p) : FaultsWith .compress s k info .late := by
  have hraise := faultsWith_iff.mp h
  rw [bodyOf, encBody_complete] at hraise
  cases hstage : encBody (afterTables s c) with
  | ok d => rw [hstage] at hraise; cases hraise
  | error r =>
    rw [hstage] at hraise
    obtain rfl := Except.error.inj hraise
    exact faultsWith_iff.mpr (compressBody_of_enc_error hc hin hstage)

/-- Settles O44: the check of IN_LEN is FREQ's, the table stages never fault, and the faults of ENC and SER are late. -/
theorem compressFaultsOnlyForSize : Obligations.CompressFaultsOnlyForSize := by
  unfold Obligations.CompressFaultsOnlyForSize
  refine fun s hcap => ⟨fun t h => ?_, fun hlong => ?_, fun f b g k info p hfreq hdone hbuild hgen henc => ?_, ?_⟩
  · rcases exec_cases h with ⟨u, -, rfl⟩ | ⟨r, hr, rfl⟩
    · exact .inl rfl
    · rw [faultEntry_faultCode, Option.some.injEq, Option.some.injEq]
      exact .inr (compressBody_error_cause hcap hr)
  · rw [faultsWith_iff, BitVec.ofNat_toNat, BitVec.setWidth_eq]
    exact bodyOf_raise_of_inputTooLong (by decide) hlong
  · rcases exec_cases hfreq with ⟨u, hu, rfl⟩ | ⟨r, -, rfl⟩
    · obtain ⟨hin, rfl⟩ := freqBody_ok hu
      obtain ⟨c, hc⟩ := exists_codesFor s
      obtain ⟨-, hbuild', hgen'⟩ := exec_tables hc hin
      obtain rfl := Host.Outcome.next.inj (hbuild'.symm.trans hbuild)
      obtain rfl := Host.Outcome.next.inj (hgen'.symm.trans hgen)
      exact compress_faultsWith_of_enc hc hin henc
    · cases hdone
  · rintro c _ hin hc rfl hbits hpayload hsize
    have hfits : StreamFits (afterTables s c) (encodedStream c (inputBytes s)) :=
      ⟨hin, codeOf_ne_nil_of_codesFor hc hin hcap, rfl, hbits, hpayload⟩
    exact compress_faultsWith_of_overflow hc hfits hsize

/-! ## COMPRESS completes (rule R247) -/

/-- The tables are not touched by the stages after them, nor is FAULT. -/
theorem afterEncSwapSer_tables (g : State) (e : Bits) :
    (afterEncSwapSer g e).faulted = g.faulted ∧ (afterEncSwapSer g e).freq = g.freq ∧
      (afterEncSwapSer g e).node = g.node ∧ (afterEncSwapSer g e).nodeCnt = g.nodeCnt ∧
      (afterEncSwapSer g e).rootValid = g.rootValid ∧ (afterEncSwapSer g e).rootIndex = g.rootIndex ∧
      (afterEncSwapSer g e).code = g.code :=
  ⟨rfl, rfl, rfl, rfl, rfl, rfl, rfl⟩

/-- The leaves of the tree hold the counts of their symbols (rule R166). -/
theorem freq_afterTables_leaf (s : State) (c : CodeTable) {i : Nat} (hi : i < leafCount (afterTables s c).nodeCnt) :
    (nodeAt (afterTables s c).node i).freq = freqOf (afterTables s c).freq (nodeAt (afterTables s c).node i).sym := by
  obtain ⟨-, hcount, -⟩ := huffmanForest_root (countBytes (inputBytes s))
  have hi' : i < (presentSymbols (countBytes (inputBytes s))).length := by
    rw [length_presentSymbols, ← hcount]
    exact hi
  have hleaf : nodeAt (afterTables s c).node i = _ := nodeAt_huffmanForest_leaf hi'
  rw [hleaf]
  rfl

/-- COMPRESS leaves the packed stream in IBUF and the container in OBUF. -/
theorem readBytes_afterEncSwapSer (g : State) (e : Bits) (hwfIn : Memory.wf g.ibuf) (hwfOut : Memory.wf g.obuf) :
    Memory.readBytes (afterEncSwapSer g e).ibuf 0 (ceil8 e.length) = packBits e ∧
      Memory.readBytes (afterEncSwapSer g e).obuf 0 (4 + ceil8 e.length + tableSize g.code) =
        containerBytes e.length (packBits e) g.code := by
  have hlen := length_containerBytes e.length (packBits e) g.code
  rw [length_packBits] at hlen
  rw [← hlen, ← length_packBits]
  exact ⟨Memory.readBytes_writeBytes hwfOut 0 _, Memory.readBytes_writeBytes hwfIn 0 _⟩

theorem outLen_afterEncSwapSer (g : State) (e : Bits) :
    (afterEncSwapSer g e).outLen = BitVec.ofNat 32 (4 + ceil8 e.length + tableSize g.code) := by
  rw [← length_packBits, ← length_containerBytes e.length]
  rfl

theorem toNat_outLen_afterEncSwapSer {g : State} {e : Bits} (hcap : CapacityLegal g)
    (hsize : 4 + ceil8 e.length + tableSize g.code ≤ g.bufCap) :
    (afterEncSwapSer g e).outLen.toNat = 4 + ceil8 e.length + tableSize g.code := by
  rw [outLen_afterEncSwapSer]
  exact hcap.toNat_ofNat hsize

/-- Settles O43: the stages' checks pass, the table stages are the commands of their own, and the later stages leave the
tables alone. -/
theorem compressMakesTheContainer : Obligations.CompressMakesTheContainer := by
  unfold Obligations.CompressMakesTheContainer
  intro s c e hcap ⟨hwfIn, hwfOut, _, _⟩ hin hc he hbits hsize
  have hpresent := codeOf_ne_nil_of_codesFor hc hin hcap
  have hfits : StreamFits (afterTables s c) e := ⟨hin, hpresent, he, hbits, by rw [afterTables_bufCap]; omega⟩
  have hcompress := exec_of_ok (i := .compress) (compressBody_of_fits hc hfits hwfOut hsize)
  obtain ⟨hfreq, hbuild, hgen⟩ := exec_tables hc hin
  obtain ⟨hfaulted, hcounts, hnode, hcnt, hvalid, hroot, hcode⟩ := afterEncSwapSer_tables (afterTables s c) e
  obtain ⟨hibuf, hobuf⟩ := readBytes_afterEncSwapSer (afterTables s c) e hwfIn hwfOut
  have hout := toNat_outLen_afterEncSwapSer (g := afterTables s c) hcap hsize
  refine ⟨_, _, _, _, hfreq, hbuild, hgen, rfl, rfl, rfl, hcompress, rfl, hfaulted, hcounts, hnode, hcnt, hvalid, hroot,
    hcode, ?_⟩
  simp only [complete_freq, complete_node, complete_nodeCnt, complete_rootValid, complete_rootIndex, complete_code,
    complete_outLen, complete_obuf, hcounts, hnode, hcnt, hvalid, hroot, hcode, hout]
  exact ⟨toNat_freqOf_countBytes (length_inputBytes_lt s), treeLegal_afterTables s c,
    fun i hi => freq_afterTables_leaf s c hi,
    fun x hx => (codeOf_generateCodes_ne_nil_iff (treeLegal_afterTables s c) (generateCodes_afterTables hc) x).mp
      (hpresent x hx),
    rfl, hfits.toNat_bitCnt, hfits.toNat_inLen, hibuf, rfl, hobuf⟩

/-! ## COMPRESS, SWAP, DECOMPRESS (rule R251) -/

/-- SWAP presents the container that COMPRESS leaves. -/
theorem inputBytes_swap_afterEncSwapSer {g : State} {e : Bits} (hcap : CapacityLegal g) (hwf : Memory.wf g.ibuf)
    (hsize : 4 + ceil8 e.length + tableSize g.code ≤ g.bufCap) :
    inputBytes (complete (swapBuffers (complete (afterEncSwapSer g e)))) =
      containerBytes e.length (packBits e) g.code := by
  have hlen : inputLength (complete (swapBuffers (complete (afterEncSwapSer g e)))) =
      (containerBytes e.length (packBits e) g.code).length := by
    rw [length_containerBytes, length_packBits]
    exact toNat_outLen_afterEncSwapSer hcap hsize
  rw [inputBytes, hlen]
  exact Memory.readBytes_writeBytes hwf 0 _

theorem buffersLegal_swap_afterEncSwapSer {g : State} {e : Bits} (h : BuffersLegal g)
    (hsize : 4 + ceil8 e.length + tableSize g.code ≤ g.bufCap) :
    BuffersLegal (complete (swapBuffers (complete (afterEncSwapSer g e)))) := by
  obtain ⟨hwfIn, hwfOut, hbelowIn, hbelowOut⟩ := h
  refine ⟨Memory.wf_writeBytes hwfIn 0 _, Memory.wf_writeBytes hwfOut 0 _,
    Memory.below_writeBytes hbelowIn ?_, Memory.below_writeBytes hbelowOut ?_⟩
  · rw [length_containerBytes, length_packBits, Nat.zero_add]
    exact hsize
  · rw [length_packBits]
    show 0 + ceil8 e.length ≤ g.bufCap
    omega

/-- The table of the container is the raw table of the entries of CODE, and its payload reads as the input: DECOMPRESS
gives back the input of `g`, as O45 says. -/
theorem StreamFits.exec_swap_decompress {g : State} {e : Bits} (h : StreamFits g e) (hcap : CapacityLegal g)
    (hbuffers : BuffersLegal g) (hfree : PrefixFree g.code) (hlegal : CodesLegal g.code)
    (hsize : 4 + ceil8 e.length + tableSize g.code ≤ g.bufCap) :
    ∃ u v : State, exec .swap (complete (afterEncSwapSer g e)) = .next u ∧ exec .decompress u = .next v ∧
      u.done = true ∧ v.done = true ∧ v.outLen = g.inLen ∧ Memory.readBytes v.obuf 0 g.inLen.toNat = inputBytes g := by
  have hswap := exec_swap_of_fits (s := complete (afterEncSwapSer g e)) (h.toNat_inLen.trans_le h.payload)
  have ⟨hwfIn, _⟩ := hbuffers
  have hinput := inputBytes_swap_afterEncSwapSer hcap hwfIn hsize
  rw [containerBytes, ← rawTable_tableEntries] at hinput
  have hread : ShortestMatches g.code (unpackBits (packBits e) e.length) (inputBytes g) [] := by
    rw [unpackBits_packBits, h.stream]
    exact shortestMatches_encodedStream hfree h.present
  have hlen := length_inputBytes g
  obtain ⟨hcompletes, -⟩ := (decompressReadsTheContainer (complete (swapBuffers (complete (afterEncSwapSer g e))))).2
    e.length (packBits e) (tableEntries g.code) g.code (inputBytes g) [] hcap
    (buffersLegal_swap_afterEncSwapSer hbuffers hsize) ((toNat_outLen_afterEncSwapSer hcap hsize).trans_le hsize)
    h.length_lt (length_packBits e) hlegal.tableEntries_legal hinput (holdsEntries_tableEntries g.code) hread
  obtain ⟨v, hdecompress, hvdone, -, -, -, -, hvout, hvobuf, -⟩ := hcompletes rfl (hlen.trans_le h.input)
  exact ⟨_, v, hswap, hdecompress, rfl, hvdone, BitVec.eq_of_toNat_eq (hvout.trans hlen), hlen ▸ hvobuf⟩

/-- Settles O46: a completed COMPRESS leaves the container of its tables, whose codes are legal and begin no other. -/
theorem compressDecompressRoundTrip : Obligations.CompressDecompressRoundTrip := by
  unfold Obligations.CompressDecompressRoundTrip
  intro s t hcap hbuffers hexec hdone
  have ⟨_, hwfOut, _, _⟩ := hbuffers
  obtain ⟨c, e, hc, hfits, hsize, rfl⟩ := exec_compress_done hwfOut hexec hdone
  exact hfits.exec_swap_decompress hcap hbuffers (prefixFree_of_codesFor hc) (codesLegal_of_codesFor hc) hsize

/-! ## What the composites leave beyond the new lengths (rules R57, R244) -/

/-- From `s`, bytes are stored in OBUF, the buffers exchanged, and bytes stored in OBUF again; the lengths are those of
the bytes stored. -/
def StoresAroundOneSwap (s t : State) : Prop :=
  ∃ y z : List Byte, y.length < 2 ^ 32 ∧ z.length < 2 ^ 32 ∧
    t.ibuf = Memory.writeBytes s.obuf 0 y ∧ t.inLen = BitVec.ofNat 32 y.length ∧
    t.obuf = Memory.writeBytes s.ibuf 0 z ∧ t.outLen = BitVec.ofNat 32 z.length

theorem StoresAroundOneSwap.read_beyond {s t : State} (h : StoresAroundOneSwap s t) (hwfIn : Memory.wf s.ibuf)
    (hwfOut : Memory.wf s.obuf) :
    (∀ a, t.outLen.toNat ≤ a → Memory.read t.obuf a = Memory.read s.ibuf a) ∧
      (∀ a, t.inLen.toNat ≤ a → Memory.read t.ibuf a = Memory.read s.obuf a) := by
  obtain ⟨y, z, hy, hz, hibuf, hinLen, hobuf, houtLen⟩ := h
  rw [hibuf, hinLen, hobuf, houtLen, BitVec.toNat_ofNat, BitVec.toNat_ofNat, Nat.mod_eq_of_lt hy, Nat.mod_eq_of_lt hz]
  exact ⟨fun a ha => Memory.read_writeBytes_outside hwfIn (.inr (by omega)),
    fun a ha => Memory.read_writeBytes_outside hwfOut (.inr (by omega))⟩

/-- A bit emits at most one byte. -/
theorem decodeFrom_length_le {c : CodeTable} {cap i : Nat} {q acc : Bits} {out out' : List Byte}
    (h : decodeFrom c cap i q acc out = .ok out') : out'.length ≤ out.length + q.length := by
  induction q generalizing i acc out with
  | nil =>
    rw [decodeFrom] at h
    split at h
    · exact (Except.ok.inj h ▸ Nat.le_refl _)
    · cases h
  | cons b q ih =>
    rw [decodeFrom] at h
    split at h
    · exact (ih h).trans (by simp)
    · split at h
      · cases h
      · exact (ih h).trans (by simp; omega)

/-- The payload has at most 2^28 bytes, and the table at most 8704 (rule R222). -/
theorem afterEncSwapSer_storesAroundOneSwap {g : State} {e : Bits} (h : StreamFits g e) (hc : CodeLengthsLegal g.code) :
    StoresAroundOneSwap g (afterEncSwapSer g e) := by
  have hlt := h.length_lt
  have hceil := ceil8_le_self e.length
  have htable := tableSize_le hc
  refine ⟨packBits e, containerBytes e.length (packBits e) g.code, ?_, ?_, rfl, rfl, rfl, rfl⟩
  · rw [length_packBits]
    omega
  · rw [length_containerBytes, length_packBits]
    omega

theorem decompressBody_storesAroundOneSwap {s u : State} (h : decompressBody s = .ok u) : StoresAroundOneSwap s u := by
  obtain ⟨a, b, hdeser, hswap, hdec⟩ := decompressBody_ok h
  obtain ⟨-, -, hmsb, -, c, -, rfl⟩ := deserBody_ok hdeser
  obtain ⟨-, rfl⟩ := swapBody_ok hswap
  obtain ⟨-, hbits, -, out, hout, rfl⟩ := decBody_ok hdec
  have hpayload := BitVec.msb_eq_false_iff_two_mul_lt.mp hmsb
  have hceil := ceil8_le_self (headerWord (inputBytes s)).toNat
  have hbytes := decodeFrom_length_le hout
  rw [length_unpackBits, List.length_nil, Nat.zero_add] at hbytes
  refine ⟨_, out, ?_, ?_, rfl, rfl, rfl, rfl⟩
  · rw [List.length_take]
    omega
  · exact hbytes.trans_lt (BitVec.isLt _)

/-- Settles O11: each of the two stores in OBUF, exchanges the buffers once, and stores in OBUF again. -/
theorem compositesExchangeTheRestOfTheBuffers : Obligations.CompositesExchangeTheRestOfTheBuffers := by
  unfold Obligations.CompositesExchangeTheRestOfTheBuffers
  intro i s t hi hwfIn hwfOut h hdone
  simp only [List.mem_cons, List.not_mem_nil, or_false] at hi
  rcases hi with rfl | rfl
  · obtain ⟨c, e, hc, hfits, -, rfl⟩ := exec_compress_done hwfOut h hdone
    exact (afterEncSwapSer_storesAroundOneSwap hfits (codesLegal_of_codesFor hc).1).read_beyond hwfIn hwfOut
  · rcases exec_cases h with ⟨u, hu, rfl⟩ | ⟨r, -, rfl⟩
    · exact (decompressBody_storesAroundOneSwap hu).read_beyond hwfIn hwfOut
    · cases hdone

end Sys2Proof.Machine

/-! PROOF. NOP, CLR and SWAP; fault entry, the illegal word and what leaves a recorded fault; the level of `irq`; the
reset edge, the reset state, and what every command does from it. -/

namespace Sys2Proof.Machine

/-! ## NOP, CLR and SWAP (rules R240, R242, R244) -/

theorem issueCommand_of_accepts {w : Word} {s : State} (h : accepts s w = true) :
    issueCommand w s = (acceptCommand w s, .ok) := by
  rw [issueCommand, if_pos h]

theorem issueCommand_of_refuses {w : Word} {s : State} (h : ¬ accepts s w = true) :
    issueCommand w s = (s, .err) := by
  rw [issueCommand, if_neg h]

/-- Settles O17: NOP's rule is to complete, and it is no exception at the port. -/
theorem nopOnlyCompletes : Obligations.NopOnlyCompletes := by
  unfold Obligations.NopOnlyCompletes
  refine ⟨decode_encode .nop, fun s => exec_of_ok (i := .nop) rfl, fun s hf => ?_, fun s hf => ?_⟩
  · exact issueCommand_of_accepts (accepts_iff.mpr (.inl hf))
  · exact issueCommand_of_refuses (by simp [accepts_iff, hf])

theorem exec_clr (s : State) : exec .clr s = .next (complete (clearFault (clearTables s))) :=
  exec_of_ok (i := .clr) rfl

/-- Settles O18: the three tables CLR leaves are the empty ones. -/
theorem clrClearsTablesAndFault : Obligations.ClrClearsTablesAndFault := by
  unfold Obligations.ClrClearsTablesAndFault
  refine ⟨decode_encode .clr, fun s => ⟨zeroFreq, zeroNode, emptyCode, exec_clr s, freqOf_zeroFreq, nodeAt_zeroNode,
    codeOf_emptyCode⟩, fun s _ => ?_⟩
  rw [issueCommand_of_accepts (accepts_iff.mpr (.inr rfl))]

/-- Settles O19: what SWAP leaves, from which a second SWAP restores the buffers, and `check_in()` before it. -/
theorem swapExchangesTheBuffers : Obligations.SwapExchangesTheBuffers := by
  unfold Obligations.SwapExchangesTheBuffers
  refine ⟨decode_encode .swap, fun s => ⟨exec_swap_of_fits, fun hin hout t u ht hu => ?_, fun hlong => ?_⟩⟩
  · obtain rfl := Host.Outcome.next.inj ((exec_swap_of_fits hin).symm.trans ht)
    exact (Host.Outcome.next.inj ((exec_swap_of_fits (s := complete (swapBuffers s)) hout).symm.trans hu)).symm
  · exact checkInFaultsFirst .swap s (by decide) hlong

/-! ## Fault entry and the way out of a fault (rules R268, R272 to R277) -/

theorem engineTurn_of_illegal {s : State} {e : Illegal} (hb : s.busy = true) (he : decode s.cmdr = .error e) :
    engineTurn s = .next (faultEntry [] ⟨.illegalCommand, s.cmdr, .early⟩ s) := by
  rw [engineTurn, if_pos hb, engineStep, he, illegalCommand]

/-- Settles O7: the engine's turn enters the fault with an empty write set. -/
theorem illegalWordFaults : Obligations.IllegalWordFaults := by
  unfold Obligations.IllegalWordFaults
  exact ⟨rfl, fun s e hb he => ⟨fun h => (step_of_no_turn h).trans (engineTurn_of_illegal hb he),
    fun rest h => (step_of_engine h).trans (engineTurn_of_illegal hb he)⟩⟩

/-- Settles O12: early, the equation of fault entry; late, one fact a field and the frame. -/
theorem faultEntryRecordsTheFault : Obligations.FaultEntryRecordsTheFault := by
  unfold Obligations.FaultEntryRecordsTheFault
  refine fun ws c info s => ⟨faultEntry_early ws c info s, ?_⟩
  rintro t rfl
  obtain ⟨hcmdr, hcap, hdone, hfault, -, -⟩ := faultEntry_sameControl ws ⟨c, info, .late⟩ s
  refine ⟨rfl, rfl, rfl, rfl, rfl, hcmdr, hdone, hfault, hcap, fun hout => ?_, fun hbits => ?_,
    fun l hl hcode hinfo hbit => faultEntry_unchanged hl (by simp [hcode, hinfo, hbit]) _ s⟩
  · rw [faultEntry_outLen, if_pos hout]
  · rw [faultEntry_bitCnt, spoil_late, scramble_bitCnt, if_pos hbits]

/-- No access changes a recorded fault (rule R277). -/
theorem portAccess_keepsFault (a : Access) (s : State) :
    (portAccess a s).1.faulted = s.faulted ∧ (portAccess a s).1.faultCode = s.faultCode ∧
      (portAccess a s).1.faultInfo = s.faultInfo := by
  rcases portAccess_cases a s with e | ⟨-, ⟨w, -, e⟩ | ⟨v, e⟩ | ⟨v, e⟩ | ⟨v, e⟩ | ⟨v, e⟩ | ⟨i, b, -, e⟩⟩ <;>
    rw [e] <;> exact ⟨rfl, rfl, rfl⟩

/-- Settles O59: the host's accesses keep the fault, an idle engine's turn changes nothing, and a busy engine with a
fault recorded runs CLR (rule R282). -/
theorem faultLeftOnlyByClrOrReset : Obligations.FaultLeftOnlyByClrOrReset := by
  unfold Obligations.FaultLeftOnlyByClrOrReset
  intro s t hstatus h hf
  rcases step_cases h with ⟨a, -, rfl⟩ | ⟨hrst, -⟩ | ⟨hturn, h⟩
  · obtain ⟨hfaulted, hcode, hinfo⟩ := portAccess_keepsFault a (popTurn s)
    exact .inl ⟨hfaulted.trans hf, hcode, hinfo⟩
  · exact .inr (.inr hrst)
  · cases hb : s.busy with
    | false =>
      obtain rfl := Host.Outcome.next.inj ((engineTurn_idle (s := popTurn s) hb).symm.trans h)
      exact .inl ⟨hf, rfl, rfl⟩
    | true => exact .inr (.inl ⟨rfl, hstatus.2 hb hf, hturn⟩)

/-! ## The interrupt output (rules R278, R279) -/

theorem irq_writeCtrl (v : Word) (s : State) :
    irq (writeCtrl v s) = ((v.getLsbD 0 && s.done) || (v.getLsbD 1 && s.faulted)) := rfl

/-- Settles O55: the level is the formula's, and each change below makes both its terms 0. -/
theorem irqLevel : Obligations.IrqLevel := by
  unfold Obligations.IrqLevel
  refine ⟨fun s => ⟨by simp [irq], fun hf => ⟨fun w => ?_, fun v hv => ?_, fun v hv => ?_⟩, fun hd v hv => ?_⟩,
    fun cap i o q k => rfl⟩
  · simp [irq, hf]
  · simp [irq, hf, writeStatus, hv]
  · rw [irq_writeCtrl, hv, hf, Bool.false_and, Bool.and_false, Bool.or_false]
  · rw [irq_writeCtrl, hv, hd, Bool.false_and, Bool.and_false, Bool.or_false]

/-! ## Reset (rules R300 to R303) -/

/-- Settles O56: the edge gives the reset state with free buffers, which are in canonical form. -/
theorem resetEdgeGivesTheResetState : Obligations.ResetEdgeGivesTheResetState := by
  unfold Obligations.ResetEdgeGivesTheResetState
  intro s t rest hinputs h
  obtain rfl := Host.Outcome.next.inj ((step_of_rst hinputs).symm.trans h)
  exact ⟨rfl, rfl, rfl, rfl, rfl, rfl, rfl, rfl, rfl, rfl, rfl, rfl, rfl, rfl, rfl, freqOf_zeroFreq, nodeAt_zeroNode,
    codeOf_emptyCode, ⟨wf_freeIbuf _ _, wf_freeObuf _ _, below_freeIbuf _ _, below_freeObuf _ _⟩, rfl⟩

theorem resetWith_inv {cap : Nat} {i o : Memory} (q : List Input) (k : Nat) (hcap : bufCapWellFormed cap = true)
    (hi : Memory.wf i) (ho : Memory.wf o) (hib : Memory.below cap i) (hob : Memory.below cap o) :
    Inv (State.resetWith cap i o q k) where
  capacity := hcap
  status := ⟨fun hd => Bool.noConfusion hd, fun hb => Bool.noConfusion hb⟩
  fault := ⟨⟨fun _ => rfl, fun _ => rfl⟩, fun _ => rfl⟩
  buffers := ⟨hi, ho, hib, hob⟩
  output := Nat.zero_le _
  lengths := codesLegal_emptyCode.1
  tables := tablesLegal_of_empty rfl rfl rfl rfl rfl rfl

/-- Settles O57: the tables are empty and no fault is recorded at reset, and CLR gives these values too. -/
theorem resetStateSatisfiesTheInvariants : Obligations.ResetStateSatisfiesTheInvariants := by
  unfold Obligations.ResetStateSatisfiesTheInvariants
  refine ⟨resetWith_inv [] 0 (by decide) Memory.wf_nil Memory.wf_nil (by simp) (by simp),
    fun cap i o q k hcap hi ho hib hob => resetWith_inv q k hcap hi ho hib hob, fun s t h => ?_⟩
  obtain rfl := Host.Outcome.next.inj ((exec_clr s).symm.trans h)
  rfl

/-! ## The commands from the reset state (rule R305) -/

theorem freqCount_zeroFreq : freqCount zeroFreq = 0 := by
  simp [freqCount]

/-- With no counts BUILD makes no entry. -/
theorem huffmanForest_zeroFreq : (huffmanForest zeroFreq).n = 0 ∧ (huffmanForest zeroFreq).queue = [] := by
  obtain ⟨-, ⟨-, hn, hq⟩ | ⟨hpos, -⟩, -⟩ := huffmanForest_spec zeroFreq
  · exact ⟨hn, hq⟩
  · rw [freqCount_zeroFreq] at hpos
    cases hpos

theorem generateCodes_of_no_tree (m : NodeMemory) (cnt root : NodeIndex) :
    generateCodes m cnt false root = .ok emptyCode := rfl

/-- The empty input has no codes. -/
theorem codesFor_nil : codesFor [] = some emptyCode := by
  obtain ⟨-, hq⟩ := huffmanForest_zeroFreq
  have hcount : countBytes [] = zeroFreq := rfl
  rw [codesFor_eq, hcount, hq]
  rfl

theorem tableSize_emptyCode : tableSize emptyCode = 0 := by
  simp [tableSize]

theorem containerBytes_empty : containerBytes 0 [] emptyCode = [0#8, 0#8, 0#8, 0#8] := by
  have htable : tableBytes emptyCode = [] := by
    rw [← List.length_eq_zero_iff, length_tableBytes, tableSize_emptyCode]
  rw [containerBytes, htable]
  rfl

/-- The results a command leaves from the reset state: no output, no counts, no tree, no codes. -/
structure EmptyResults (t : State) : Prop where
  outLen : t.outLen = 0#32
  bitCnt : t.bitCnt = 0#32
  freq : t.freq = zeroFreq
  nodeCnt : t.nodeCnt = 0#9
  rootValid : t.rootValid = false
  code : t.code = emptyCode

/-- The state has nothing to work on: the input, the bit count and the tables are empty, as after reset. -/
structure NothingToDo (s : State) : Prop where
  inLen : s.inLen = 0#32
  results : EmptyResults s

section
variable {s : State} (h : NothingToDo s)
include h

theorem NothingToDo.inputBytes_eq : inputBytes s = [] := by
  rw [inputBytes, inputLength, h.inLen]
  rfl

theorem NothingToDo.fits : inputLength s ≤ s.bufCap := by
  rw [inputLength, h.inLen]
  exact Nat.zero_le _

/-- The checks of the packed payload pass with no bits and no bytes. -/
theorem NothingToDo.withPayload_eq (rest : Nat → List Byte → Body) : withPayload s rest = rest 0 [] := by
  have hbits := h.results.bitCnt
  rw [withPayload_pass h.fits (by rw [hbits]; rfl) (by rw [hbits]; exact Nat.zero_le _), hbits]
  rfl

theorem NothingToDo.putOutput_nil : EmptyResults (putOutput [] s) := { h.results with outLen := rfl }

theorem NothingToDo.bodyOf_emptyResults {j : Instr}
    (hj : j ∈ [Instr.nop, .clr, .freq, .build, .gen, .enc, .dec, .pack, .unpack, .swap]) :
    ∃ t, bodyOf j s = .ok t ∧ EmptyResults t := by
  cases j with
  | nop => exact ⟨s, rfl, h.results⟩
  | clr => exact ⟨_, rfl, rfl, rfl, rfl, rfl, rfl, rfl⟩
  | freq => exact ⟨_, checkIn_pass h.fits _, { h.results with freq := by rw [h.inputBytes_eq]; rfl }⟩
  | build =>
    obtain ⟨hn, hq⟩ := huffmanForest_zeroFreq
    refine ⟨_, buildBody_eq s, ?_⟩
    rw [h.results.freq]
    generalize huffmanForest zeroFreq = w at hn hq
    exact { h.results with
      freq := rfl
      nodeCnt := congrArg (BitVec.ofNat 9) hn
      rootValid := by simp [withTables, hq] }
  | gen =>
    have hgen := generateCodes_of_no_tree s.node s.nodeCnt s.rootIndex
    rw [← h.results.rootValid] at hgen
    exact ⟨_, genBody_of_ok hgen, { h.results with code := rfl }⟩
  | enc =>
    exact ⟨_, encBody_of_ok (e := []) h.fits (by rw [h.inputBytes_eq]; rfl), { h.putOutput_nil with bitCnt := rfl }⟩
  | dec =>
    have hdec : decBody s = .ok (putOutput [] s) := h.withPayload_eq _
    exact ⟨_, hdec, h.putOutput_nil⟩
  | pack =>
    refine ⟨_, checkIn_pass h.fits _, ?_⟩
    rw [h.inputBytes_eq, inputLength, h.inLen]
    exact { h.putOutput_nil with bitCnt := rfl }
  | unpack =>
    have hunpack : unpackBody s = .ok (putOutput [] s) := (h.withPayload_eq _).trans (if_neg (Nat.not_lt_zero _))
    exact ⟨_, hunpack, h.putOutput_nil⟩
  | swap => exact ⟨_, checkIn_pass h.fits _, { h.results with outLen := h.inLen }⟩
  | ser | deser | compress | decompress => exact absurd hj (by decide)

/-- SER's container of nothing is 4 bytes long. -/
theorem NothingToDo.serBody_eq : serBody s =
    if 4 > s.bufCap then raiseEarly .capacityExceeded 4 else .ok (putOutput [0#8, 0#8, 0#8, 0#8] s) := by
  rw [serBody, h.withPayload_eq, h.results.code, containerBytes_empty, tableSize_emptyCode]
  rfl

theorem NothingToDo.codesFor_eq : codesFor (inputBytes s) = some emptyCode := by
  rw [h.inputBytes_eq, codesFor_nil]

/-- COMPRESS reaches its SER stage with no codes and no stream. -/
theorem NothingToDo.streamFits : StreamFits (afterTables s emptyCode) [] where
  input := h.fits
  present := by rw [inputBytes_afterTables, h.inputBytes_eq]; simp
  stream := by rw [inputBytes_afterTables, h.inputBytes_eq, encodedStream_nil]
  bits := Nat.zero_le _
  payload := Nat.zero_le _

theorem NothingToDo.exec_stores_empty_container (hwfIn : Memory.wf s.ibuf) (hwfOut : Memory.wf s.obuf)
    (hcap : 4 ≤ s.bufCap) {j : Instr} (hj : j ∈ [Instr.ser, .compress]) :
    ∃ t, exec j s = .next t ∧ t.done = true ∧ t.outLen = 4#32 ∧
      Memory.readBytes t.obuf 0 4 = [0#8, 0#8, 0#8, 0#8] := by
  simp only [List.mem_cons, List.not_mem_nil, or_false] at hj
  rcases hj with rfl | rfl
  · have hser := h.serBody_eq.trans (if_neg (Nat.not_lt.mpr hcap))
    exact ⟨_, exec_of_ok (i := .ser) hser, rfl, rfl, Memory.readBytes_writeBytes hwfOut 0 [0#8, 0#8, 0#8, 0#8]⟩
  · have hcompress := compressBody_of_fits h.codesFor_eq h.streamFits hwfOut
      (by rw [tableSize_emptyCode]; exact hcap)
    obtain ⟨-, hobuf⟩ := readBytes_afterEncSwapSer (afterTables s emptyCode) [] hwfIn hwfOut
    rw [afterTables_code, List.length_nil, packBits_nil, containerBytes_empty, tableSize_emptyCode, ceil8_zero] at hobuf
    refine ⟨_, exec_of_ok (i := .compress) hcompress, rfl, ?_, ?_⟩
    · rw [complete_outLen, outLen_afterEncSwapSer, afterTables_code, tableSize_emptyCode]
      rfl
    · rw [complete_obuf]
      exact hobuf

theorem NothingToDo.exec_faults_of_cap_lt_four (hcap : s.bufCap < 4) {j : Instr} (hj : j ∈ [Instr.ser, .compress]) :
    ∃ t, exec j s = .next t ∧ t.faultCode = some .capacityExceeded ∧ t.faultInfo = 4#32 := by
  simp only [List.mem_cons, List.not_mem_nil, or_false] at hj
  rcases hj with rfl | rfl
  · have hser := h.serBody_eq.trans (if_pos hcap)
    exact ⟨_, exec_of_error (i := .ser) hser, rfl, rfl⟩
  · have hcompress := compress_faultsWith_of_overflow h.codesFor_eq h.streamFits
      (by rw [tableSize_emptyCode]; exact hcap)
    rw [tableSize_emptyCode] at hcompress
    exact ⟨_, hcompress, rfl, rfl⟩

/-- An empty input has no header. -/
theorem NothingToDo.exec_faults_without_header {j : Instr} (hj : j ∈ [Instr.deser, .decompress]) :
    ∃ t, exec j s = .next t ∧ t.faultCode = some .truncatedInput ∧ t.faultInfo = 0#32 := by
  have hshort : inputLength s < 4 := by rw [inputLength, h.inLen]; decide
  have hdeser : FaultsWith .deser s .truncatedInput 0 .early :=
    faultsWith_iff.mpr ((checkIn_pass h.fits _).trans (if_pos hshort))
  simp only [List.mem_cons, List.not_mem_nil, or_false] at hj
  rcases hj with rfl | rfl
  · exact ⟨_, hdeser, rfl, rfl⟩
  · exact ⟨_, decompress_faultsWith_of_deser hdeser, rfl, rfl⟩

end

theorem resetWith_nothingToDo (cap : Nat) (i o : Memory) (q : List Input) (k : Nat) :
    NothingToDo (State.resetWith cap i o q k) :=
  ⟨rfl, rfl, rfl, rfl, rfl, rfl, rfl⟩

/-- Settles O47: after reset no fault is recorded, and the commands find nothing to do. -/
theorem commandsFromReset : Obligations.CommandsFromReset := by
  unfold Obligations.CommandsFromReset
  rintro s cap i o q k - hwfIn hwfOut rfl
  have hreset := resetWith_nothingToDo cap i o q k
  refine ⟨fun j => ?_, fun j hj => ?_, fun hcap j hj => hreset.exec_stores_empty_container hwfIn hwfOut hcap hj,
    fun hcap j hj => hreset.exec_faults_of_cap_lt_four hcap hj, fun j hj => hreset.exec_faults_without_header hj⟩
  · rw [issueCommand_of_accepts (accepts_iff.mpr (.inl rfl))]
  · obtain ⟨t, ht, hout, hbits, hfreq, hcnt, hvalid, hcode⟩ := hreset.bodyOf_emptyResults hj
    refine ⟨_, exec_of_ok ht, rfl, hout, hbits, fun x => ?_, hcnt, hvalid, fun x => ?_⟩
    · rw [complete_freq, hfreq, freqOf_zeroFreq]
    · rw [complete_code, hcode, codeOf_emptyCode]

end Sys2Proof.Machine
